-- ==== Sys2Proof/Word.lean ====
section
/-! DEFINITION. The word types of the pulse decoder (spec 00_scope.md R8, 10_state.md R20, 30_encoding.md R72). -/

namespace Sys2Proof

/-- A register word of the RegisterMap: `WORD` = 32 bits (R8, R54). -/
abbrev Word := BitVec 32

/-- A count, `CW` = 32 bits (R21, decision D3): the pulse sample, the response counter, the threshold. -/
abbrev Count := BitVec 32

/-- One byte of the SensorFrame (R26). -/
abbrev Byte := BitVec 8

/-- An operation word (R72): `op` in bits 15 to 11, the argument in bits 10 to 0. -/
abbrev OpWord := BitVec 16

/-- A pin number as an operation word carries it, bits 5 to 0 (R72): 0 to 63, of which 0 to 31 are
admitted (R10, R80). -/
abbrev PinNo := BitVec 6

/-- A pulse index as an operation word carries it, bits 5 to 0 (R72): 0 to 63, of which 0 to 40 are
legal (R72, R80). -/
abbrev PulseNo := BitVec 6

/-- A time argument in milliseconds, bits 10 to 0 of the operation word (R72): 0 to 2047. -/
abbrev Millis := BitVec 11

/-- The bit pattern of an IEEE 754 binary32 value (R147). -/
abbrev F32 := BitVec 32

end Sys2Proof
end

