-- ==== Sys2Proof/Config.lean ====
section
/-! DEFINITION. The constants of spec 00_scope.md R8, the parameters of R9 with their constraints
(R10), and the free values: what the spec leaves to the environment or leaves unspecified at reset. -/

namespace Sys2Proof

/-! ### Constants (R8) -/

/-- `NPULSES`: pulses sampled per attempt. -/
def nPulses : Nat := 41
/-- `NCOUNTS`: entries of the pulse sample. -/
def nCounts : Nat := 82
/-- `NBITS`: data bits decoded. -/
def nBits : Nat := 40
/-- `DEC_FIRST`: first pulse decoded as a bit. -/
def decFirst : Nat := 1
/-- `THR_FIRST`: first pulse in the threshold mean. -/
def thrFirst : Nat := 2
/-- `THR_N`: number of counts in the threshold mean, and its divisor. -/
def thrN : Nat := 39
/-- `T_HIGH_MS`: handshake high time, 500 ms. -/
def tHighMs : Millis := 500
/-- `T_LOW_MS`: handshake low time, 20 ms. -/
def tLowMs : Millis := 20
/-- `SET_OFF`: word offset of the set register. -/
def setOff : Nat := 7
/-- `CLR_OFF`: word offset of the clear register. -/
def clrOff : Nat := 10
/-- `LEV_OFF`: word offset of the input-level register. -/
def levOff : Nat := 13
/-- `FSEL_W`: width of one function-select field. -/
def fselW : Nat := 3
/-- `FSEL_PER_WORD`: function-select fields per word. -/
def fselPerWord : Nat := 10
/-- `FSEL_INPUT`: function code "input". -/
def fselInput : BitVec 3 := 0b000
/-- `FSEL_OUTPUT`: function code "basic output". -/
def fselOutput : BitVec 3 := 0b001

/-! ### Parameters (R9, R10) -/

/-- The parameters the source names or needs but gives no value for (R9), `PIN` and `CW` apart:
`PIN` is a register (R31) and `CW` is 32 (decision D3). -/
structure Params where
  /-- `MAXCOUNT`: the ceiling of every poll loop. -/
  maxCount : Nat
  /-- `SETTLE_ITER`: iterations of the settle delay. -/
  settleIter : Nat
  /-- `MAP_PHYS_OFFSET`: no rule reads it. -/
  mapPhysOffset : Nat
  /-- `MAP_SIZE`: bytes of the mapped window. -/
  mapSize : Nat
  /-- `DEV_RESTRICTED`: identity of the low-privilege device; no rule reads it. -/
  devRestricted : Nat
  /-- `DEV_PRIVILEGED`: identity of the fallback device; no rule reads it. -/
  devPrivileged : Nat
  deriving DecidableEq, Repr

/-- The constraints a model checks before it admits a configuration (R10). -/
abbrev Params.Admissible (c : Params) (pin : Nat) : Prop :=
  pin ≤ 31 ∧ 1 ≤ c.maxCount ∧ c.maxCount ≤ 2 ^ 32 - 1 ∧ thrN * (c.maxCount - 1) ≤ 2 ^ 32 - 1 ∧
    4 * (levOff + 1) ≤ c.mapSize

namespace Config

/-! ### The configuration of the instance that `State.reset` constructs: free inside R10 (log 7) -/

/-- The pin the caller supplies at construction (R31), free in 0 to 31. -/
opaque pinArg : Fin 32
/-- `MAXCOUNT - 1`, free in the range R10 leaves: 0 to 110127366. -/
opaque maxCountLess1 : Fin 110127367
/-- `SETTLE_ITER`. -/
opaque settleIter : Nat
/-- `MAP_PHYS_OFFSET`. -/
opaque mapPhysOffset : Nat
/-- How far `MAP_SIZE` exceeds its least admitted value 56 (R10). -/
opaque mapSizeOver56 : Nat
/-- `DEV_RESTRICTED`. -/
opaque devRestricted : Nat
/-- `DEV_PRIVILEGED`. -/
opaque devPrivileged : Nat

/-- The parameters of the constructed instance. -/
def params : Params where
  maxCount := maxCountLess1.val + 1
  settleIter := settleIter
  mapPhysOffset := mapPhysOffset
  mapSize := 56 + mapSizeOver56
  devRestricted := devRestricted
  devPrivileged := devPrivileged

/-! ### Unspecified reset contents: free values, "not zero" (R39, R191; log 6) -/

/-- `cnt[0..81]` before the first attempt. -/
opaque resetCnt : Vector Count 82
/-- `wcnt` before the first attempt. -/
opaque resetWcnt : Count
/-- `thr` before the first attempt that decodes. -/
opaque resetThr : Count
/-- `dat[0..4]` before the first attempt. -/
opaque resetDat : Vector Byte 5
/-- `FSEL[0..5]`: whatever the host left there. -/
opaque resetFsel : Vector Word 6
/-- `out[0..31]`: whatever the host left there. -/
opaque resetOut : Word

/-! ### Answers of the environment once the listed ones are used up: free values (log 4, log 5) -/

/-- The word the `n`-th `LEV` read returns when no listed answer is left (R56). -/
opaque freeLev : Nat → Word
/-- Whether the restricted device opens at the `n`-th mapping request (R91). -/
opaque freeRestrictedOpens : Nat → Bool
/-- Whether the privileged device opens at the `n`-th mapping request (R91). -/
opaque freePrivilegedOpens : Nat → Bool
/-- Whether the mapping call succeeds at the `n`-th mapping request (R91). -/
opaque freeMappingSucceeds : Nat → Bool

end Config

end Sys2Proof
end

