-- ==== Sys2Proof/Syntax.lean ====
section
/-! DEFINITION. The operations of the pulse decoder: one constructor per row of spec/opcode_table.json
(spec 30_encoding.md R70, R71). -/

namespace Sys2Proof

/-- The 18 operations: the seven named operations (R70) and the eleven micro-operations (R71). -/
inductive Instr where
  /-- `ENSUREMAPPED` (R90). -/
  | ensuremapped
  /-- `SETINPUT p` (R101). -/
  | setinput (p : PinNo)
  /-- `SETOUTPUT p` (R102). -/
  | setoutput (p : PinNo)
  /-- `SETHIGH p` (R103). -/
  | sethigh (p : PinNo)
  /-- `SETLOW p` (R104). -/
  | setlow (p : PinNo)
  /-- `READINPUT p` (R105). -/
  | readinput (p : PinNo)
  /-- `READDATA` (R110). -/
  | readdata
  /-- `SLEEPC ms` (R120). -/
  | sleepc (ms : Millis)
  /-- `WAITP ms` (R121). -/
  | waitp (ms : Millis)
  /-- `SETTLE` (R122). -/
  | settle
  /-- `PRIOUP` (R123). -/
  | prioup
  /-- `PRIODN` (R124). -/
  | priodn
  /-- `WAITRESP` (R125). -/
  | waitresp
  /-- `CNTLOW i` (R127). -/
  | cntlow (i : PulseNo)
  /-- `CNTHIGH i` (R128). -/
  | cnthigh (i : PulseNo)
  /-- `THRESH` (R141). -/
  | thresh
  /-- `DECBITS` (R142). -/
  | decbits
  /-- `CHKSUM` (R144). -/
  | chksum
  deriving DecidableEq, Repr

end Sys2Proof
end

