-- ==== Sys2Proof/WellFormed.lean ====
section
/-! DEFINITION. Which operations are legal: the operand ranges of spec 30_encoding.md R72 and R80. -/

namespace Sys2Proof

/-- The pins the spec admits: 0 to 31 (R10, R80; decision D7). -/
abbrev pinLegal (p : PinNo) : Prop := p.toNat ≤ 31

/-- The pulse indices the spec admits: 0 to 40 (R72, R80). -/
abbrev pulseLegal (i : PulseNo) : Prop := i.toNat ≤ 40

/-- The operand check of each operation. A time operand takes every value its 11 bits hold (R72). -/
def Instr.wellFormed (i : Instr) : Bool :=
  match i with
  | .setinput p | .setoutput p | .sethigh p | .setlow p | .readinput p => decide (pinLegal p)
  | .cntlow k | .cnthigh k => decide (pulseLegal k)
  | .ensuremapped | .readdata | .sleepc _ | .waitp _ | .settle | .prioup | .priodn | .waitresp
  | .thresh | .decbits | .chksum => true

end Sys2Proof
end

