-- ==== Sys2Proof/Decode.lean ====
section
/-! DEFINITION. The operation word: decoder, encoder and the host's view of the opcode table
(spec 30_encoding.md R72, R80, R81). The numbers are the spec's own (decision D1). -/

namespace Sys2Proof

/-- Why a word spells no operation (R80). -/
inductive DecodeError where
  /-- Operation codes 7 and 19 to 31 are reserved (R80 (a)). -/
  | reservedOp
  /-- A format Z word with a non-zero argument (R80 (b)). -/
  | argumentNotZero
  /-- A format P or I word with a non-zero bit in 10 to 6 (R80 (b)). -/
  | middleNotZero
  /-- A format P word with a pin above 31 (R80 (b)). -/
  | pinAbove31
  /-- A format I word with an index above 40 (R80 (b)). -/
  | indexAbove40
  deriving DecidableEq, Repr

/-- The answer of the decoder: the operation, or the reason there is none. -/
inductive Decoded where
  | op (i : Instr)
  | bad (e : DecodeError)
  deriving DecidableEq, Repr

/-- The operation a decoded word spells, if any. -/
def Decoded.toOption : Decoded → Option Instr
  | .op i => some i
  | .bad _ => none

/-- Bits 15 to 11 of a word: the operation code (R72). -/
def opField (w : OpWord) : BitVec 5 := w.extractLsb' 11 5

/-- Bits 10 to 6 of a word (R72). -/
def midField (w : OpWord) : BitVec 5 := w.extractLsb' 6 5

/-- Bits 5 to 0 of a word: a pin or a pulse index (R72). -/
def lowField (w : OpWord) : BitVec 6 := w.extractLsb' 0 6

/-- Bits 10 to 0 of a word: the argument of formats Z and T (R72). -/
def argField (w : OpWord) : BitVec 11 := w.extractLsb' 0 11

/-- Format Z: the argument is 0 (R72, R80). -/
def decodeZ (w : OpWord) (i : Instr) : Decoded :=
  if argField w = 0 then .op i else .bad .argumentNotZero

/-- Format P: bits 10 to 6 are 0, bits 5 to 0 a pin of 0 to 31 (R72, R80). DESIGN CHOICE (log 29): where both
fail the non-zero bits are named. -/
def decodeP (w : OpWord) (mk : PinNo → Instr) : Decoded :=
  if midField w ≠ 0 then .bad .middleNotZero
  else if pinLegal (lowField w) then .op (mk (lowField w)) else .bad .pinAbove31

/-- Format I: bits 10 to 6 are 0, bits 5 to 0 a pulse index of 0 to 40 (R72, R80). DESIGN CHOICE (log 29):
where both fail the non-zero bits are named. -/
def decodeI (w : OpWord) (mk : PulseNo → Instr) : Decoded :=
  if midField w ≠ 0 then .bad .middleNotZero
  else if pulseLegal (lowField w) then .op (mk (lowField w)) else .bad .indexAbove40

/-- Format T: bits 10 to 0 are the milliseconds (R72). -/
def decodeT (w : OpWord) (mk : Millis → Instr) : Decoded := .op (mk (argField w))

/-- The decoder: the operation codes of R72, everything else refused (R80). -/
def decode (w : OpWord) : Decoded :=
  match (opField w).toNat with
  | 0 => decodeZ w .ensuremapped
  | 1 => decodeP w .setinput
  | 2 => decodeP w .setoutput
  | 3 => decodeP w .sethigh
  | 4 => decodeP w .setlow
  | 5 => decodeP w .readinput
  | 6 => decodeZ w .readdata
  | 7 => .bad .reservedOp
  | 8 => decodeT w .sleepc
  | 9 => decodeT w .waitp
  | 10 => decodeZ w .settle
  | 11 => decodeZ w .prioup
  | 12 => decodeZ w .priodn
  | 13 => decodeZ w .waitresp
  | 14 => decodeI w .cntlow
  | 15 => decodeI w .cnthigh
  | 16 => decodeZ w .thresh
  | 17 => decodeZ w .decbits
  | 18 => decodeZ w .chksum
  | _ => .bad .reservedOp

/-- Format Z of R72: the code, then eleven zero bits. -/
def encodeZ (op : BitVec 5) : OpWord := op ++ 0#11

/-- Formats P and I of R72: the code, five zero bits, six operand bits. -/
def encodeLow (op : BitVec 5) (x : BitVec 6) : OpWord := op ++ 0#5 ++ x

/-- Format T of R72: the code, then the eleven bits of the time. -/
def encodeT (op : BitVec 5) (ms : Millis) : OpWord := op ++ ms

/-- The encoder, from the same table of R72. -/
def encode (i : Instr) : OpWord :=
  match i with
  | .ensuremapped => encodeZ 0
  | .setinput p => encodeLow 1 p
  | .setoutput p => encodeLow 2 p
  | .sethigh p => encodeLow 3 p
  | .setlow p => encodeLow 4 p
  | .readinput p => encodeLow 5 p
  | .readdata => encodeZ 6
  | .sleepc ms => encodeT 8 ms
  | .waitp ms => encodeT 9 ms
  | .settle => encodeZ 10
  | .prioup => encodeZ 11
  | .priodn => encodeZ 12
  | .waitresp => encodeZ 13
  | .cntlow k => encodeLow 14 k
  | .cnthigh k => encodeLow 15 k
  | .thresh => encodeZ 16
  | .decbits => encodeZ 17
  | .chksum => encodeZ 18

/-- The words the reader's opcode table gives, as numbers: every operation is one 16-bit word (R72,
R81), so a row has at most 16 bits and a number beyond them spells nothing. -/
def tableWord (nbits w : Nat) : Option OpWord :=
  if nbits ≤ 16 ∧ w < 2 ^ nbits then some (BitVec.ofNat 16 w) else none

/-- The host's view of the decoder: the operation of a table row whose bits are `w`. -/
def decodeTableWord (nbits w : Nat) : Option Instr :=
  match tableWord nbits w with
  | some x => (decode x).toOption
  | none => none

end Sys2Proof
end

