-- ==== Sys2Proof/Machine/State.lean ====
section
/-! DEFINITION. The state of the pulse decoder (spec 10_state.md R20 to R40), the reasons a step can
stop, and the state after reset (R39, R190). -/

namespace Sys2Proof.Machine

/-! ### The enumerations of the state -/

/-- The phase register's values (R22): 6 + 2 * 41 = 88. -/
inductive Phase where
  | idle
  | handshake
  | waitResponse
  | sampleLow (i : Fin 41)
  | sampleHigh (i : Fin 41)
  | decode
  | done
  | failed
  deriving DecidableEq, Repr

/-- The 83 polling phases, any of which can time out (R129, R160, R161). -/
inductive PollPhase where
  | waitResponse
  | sampleLow (i : Fin 41)
  | sampleHigh (i : Fin 41)
  deriving DecidableEq, Repr

/-- The error kinds of `err` (R30, R160). -/
inductive ErrKind where
  | noError
  | deviceOpenError
  | mappingError
  | timeoutError
  | checksumError
  deriving DecidableEq, Repr

/-- The scheduling class the engine last requested (R29, R175). -/
inductive Prio where
  | default
  | realTime
  deriving DecidableEq, Repr

/-- The answer to a mapping request (R12, R90). -/
inductive MapResp where
  | ok
  | deviceOpenError
  | mappingError
  deriving DecidableEq, Repr

/-- What happens inside the mapper service at one mapping request (R91): whether each device opens
and whether the mapping call succeeds. -/
structure MapperAnswer where
  restrictedOpens : Bool
  privilegedOpens : Bool
  mappingSucceeds : Bool
  deriving DecidableEq, Repr

/-- The Reading (R27): two binary32 bit patterns. -/
structure Reading where
  humidity : F32
  temperature : F32
  deriving DecidableEq, Repr

/-- The events of R12. -/
inductive Event where
  | mapReq
  | mapResp (r : MapResp)
  | busRead (w : Nat) (v : Word)
  | busWrite (w : Nat) (v : Word)
  | sleep (ms : Nat)
  | busyWait (ms : Nat)
  | settle (n : Nat)
  | prioUp
  | prioDown
  | result (o : Option Reading)
  deriving DecidableEq, Repr

/-! ### The state (R20) -/

/-- The state: the tuple of R20, then the model's own fields (inputs, records, the configuration). -/
structure State where
  /-- `PIN` (R31): written at construction only. -/
  pin : PinNo
  /-- `pc`, the phase register (R22). -/
  pc : Phase
  /-- `upc`, the micro-sequence index 0 to 96 (R23). -/
  upc : Fin 97
  /-- `cnt[0..81]`, the PulseSample (R21). -/
  cnt : Vector Count 82
  /-- `wcnt`, the response-wait counter (R24). -/
  wcnt : Count
  /-- `thr`, the threshold register (R25). -/
  thr : Count
  /-- `dat[0..4]`, the SensorFrame (R26). -/
  dat : Vector Byte 5
  /-- `res`, the Reading (R27). -/
  res : Option Reading
  /-- `mapped` (R28). -/
  mapped : Bool
  /-- `prio` (R29). -/
  prio : Prio
  /-- `err` (R30). -/
  err : ErrKind
  /-- `err_phase` (R30): none except after a timeout. -/
  errPhase : Option PollPhase
  /-- `FSEL[0..5]`, word offsets 0 to 5 (R32). -/
  fsel : Vector Word 6
  /-- `out[0..31]`, the output latch, bit `p` for pin `p` (R36). -/
  out : Word
  /-- Model's own: the parameters of R9; no step writes them (log 7). -/
  params : Params
  /-- Model's own: an attempt is in progress, from the acceptance of `READDATA` to its `Result`
  (log 2). -/
  running : Bool
  /-- Model's own: the operation words invoked and not yet started, oldest first (log 3). -/
  calls : List OpWord
  /-- Model's own, input: the words the coming `LEV` reads return, first first (R56; log 4). -/
  line : List Word
  /-- Model's own: the number of `LEV` reads so far, the index of the free words used once `line` is
  empty (log 4). -/
  lineReads : Nat
  /-- Model's own, input: the answers of the mapper service to come (R91; log 5). -/
  mapper : List MapperAnswer
  /-- Model's own: the number of mapping requests so far, the index of the free answers used once
  `mapper` is empty (log 5). -/
  mapReqs : Nat
  /-- Model's own: the events so far, oldest first (R12, R38; log 15). -/
  trace : List Event
  /-- Model's own: the bit the last `READINPUT` invoked by itself returned (R105; log 14). -/
  readback : Option Bool
  deriving DecidableEq, Repr

/-! ### Why a step can stop -/

/-- The machine has no fault: the four error kinds are next states (R166) and nothing else is raised
(R160, R61). Raised by nobody; safe, since a missing stop lets no false claim of a stop be proved
(log 28). -/
inductive Fault where
  deriving DecidableEq, Repr

/-- Why the model gives a step no meaning. Every one is safe: the model stops where the spec tells a
model to refuse. -/
inductive Refusal where
  /-- Raised by `exec` for an instruction without a meaning: none in this model. Safe. -/
  | notModelled (mnemonic : String)
  /-- Raised by `step` for an invoked word that spells no operation (R80). Safe. -/
  | illegalWord (e : DecodeError)
  /-- Raised by the Pin Controller operations for a pin above 31 (R80 (c), R100; D7). Safe. -/
  | pinAbove31
  /-- Raised by `CNTLOW` and `CNTHIGH` for an index above 40 (R72, R80). Safe. -/
  | indexAbove40
  /-- Raised by a register access while `mapped = 0` (R66). Safe. -/
  | notMapped
  /-- Raised by a read of `SET` or `CLR` (R66). Safe. -/
  | readOfWriteOnly
  /-- Raised by a write of `LEV` (R66). Safe. -/
  | writeOfReadOnly
  /-- Raised by an access to an offset the source does not define (R60, R66). Safe. -/
  | undefinedOffset
  /-- Raised by an access beyond `MAP_SIZE` (R53, R66). Safe. -/
  | beyondWindow
  /-- Raised by `READDATA` while an attempt is running (R131; D21). Safe. -/
  | overlappingAttempt
  /-- Raised by construction with a configuration outside R10. Safe. -/
  | configurationRefused
  deriving DecidableEq, Repr

/-- The answer of a step. -/
abbrev StepResult := Host.Outcome State Fault Refusal

/-! ### Reset is construction (R39, R190) -/

/-- The contents R39 leaves unspecified at construction. -/
structure Unspecified where
  cnt : Vector Count 82
  wcnt : Count
  thr : Count
  dat : Vector Byte 5
  fsel : Vector Word 6
  out : Word
  deriving DecidableEq, Repr

/-- The state after construction with a configuration and a pin, for any unspecified contents (R39). -/
def State.fresh (c : Params) (pin : PinNo) (u : Unspecified) : State where
  pin := pin
  pc := .idle
  upc := 0
  cnt := u.cnt
  wcnt := u.wcnt
  thr := u.thr
  dat := u.dat
  res := none
  mapped := false
  prio := .default
  err := .noError
  errPhase := none
  fsel := u.fsel
  out := u.out
  params := c
  running := false
  calls := []
  line := []
  lineReads := 0
  mapper := []
  mapReqs := 0
  trace := []
  readback := none

/-- Construction (R190): the configuration is checked and refused when a constraint of R10 fails. -/
def State.construct (c : Params) (pin : Nat) (u : Unspecified) : StepResult :=
  if c.Admissible pin then .next (State.fresh c (BitVec.ofNat 6 pin) u)
  else .refused .configurationRefused

/-- The free reset contents (R39: "a free value it quantifies over, not as zero"; log 6). -/
def resetContents : Unspecified where
  cnt := Config.resetCnt
  wcnt := Config.resetWcnt
  thr := Config.resetThr
  dat := Config.resetDat
  fsel := Config.resetFsel
  out := Config.resetOut

/-- The machine right after reset (R39, R190). -/
def State.reset : State :=
  State.fresh Config.params (BitVec.ofNat 6 Config.pinArg.val) resetContents

end Sys2Proof.Machine
end

