-- ==== Sys2Proof/Machine/Operands.lean ====
section
/-! DEFINITION. Operand forms: pin arithmetic (spec 30_encoding.md R73 to R75), the counters of the
pulse sample (R76), the bytes of the frame (R26), the conversion to f32 (43_decode_checksum.md R147). -/

namespace Sys2Proof.Machine

/-! ### A pin (R73, R74, R75) -/

/-- `regIndex(p) = p / 10`: the word offset of the pin's function-select word (R73). -/
def regIndex (p : PinNo) : Nat := p.toNat / fselPerWord

/-- `bitOffset(p) = (p % 10) * 3` (R73). -/
def bitOffset (p : PinNo) : Nat := (p.toNat % fselPerWord) * fselW

/-- `fselMask(p) = 0b111 << bitOffset(p)` (R73). -/
def fselMask (p : PinNo) : Word := 0b111#32 <<< bitOffset p

/-- `fselOut(p) = 0b001 << bitOffset(p)` (R73). -/
def fselOut (p : PinNo) : Word := 0b001#32 <<< bitOffset p

/-- `pinBit(p) = 1 << p` (R73), for pins 0 to 31. -/
def pinBit (p : PinNo) : Word := 1#32 <<< p.toNat

/-- The function field of pin `p` in a function-select word (R32, R74). -/
def fieldOf (v : Word) (p : PinNo) : BitVec 3 := v.extractLsb' (bitOffset p) 3

/-- `FSEL[n]` (R32); only `n` below 6 exists. -/
def readFsel (s : State) (n : Nat) : Word := s.fsel[n]?.getD 0

/-- The function field of pin `p` (R32). -/
def pinFunction (s : State) (p : PinNo) : BitVec 3 := fieldOf (readFsel s (regIndex p)) p

/-- The output latch bit of pin `p` (R36). -/
def latch (s : State) (p : PinNo) : Bool := s.out.getLsbD p.toNat

/-- The level pin `p` drives, if it drives one: its latch bit while its function is "basic output"
(R36). The other codes drive nothing the spec describes (R32). -/
def drivenLevel (s : State) (p : PinNo) : Option Bool :=
  if pinFunction s p = fselOutput then some (latch s p) else none

/-! ### A pulse (R72, R76) -/

/-- The pulse a format I operand names: 0 to 40 (R72). -/
def pulseIndex (k : PulseNo) : Option (Fin 41) :=
  if h : k.toNat < 41 then some ⟨k.toNat, h⟩ else none

/-- Entry `k` of the PulseSample (R21); only `k` below 82 exists. -/
def readCnt (s : State) (k : Nat) : Count := s.cnt[k]?.getD 0

/-- `cnt[k] <- v` (R21). -/
def writeCnt (s : State) (k : Nat) (v : Count) : State := { s with cnt := s.cnt.setIfInBounds k v }

/-- The high-phase count of pulse `i`, `cnt[2i+1]` (R76). -/
def highCount (s : State) (i : Nat) : Count := readCnt s (2 * i + 1)

/-- The counter of a polling phase: `wcnt`, `cnt[2i]` or `cnt[2i+1]` (R125, R127, R128). -/
def readCounter (s : State) (ph : PollPhase) : Count :=
  match ph with
  | .waitResponse => s.wcnt
  | .sampleLow i => readCnt s (2 * i.val)
  | .sampleHigh i => readCnt s (2 * i.val + 1)

/-- Writes the counter of a polling phase (R125, R127, R128). -/
def writeCounter (s : State) (ph : PollPhase) (v : Count) : State :=
  match ph with
  | .waitResponse => { s with wcnt := v }
  | .sampleLow i => writeCnt s (2 * i.val) v
  | .sampleHigh i => writeCnt s (2 * i.val + 1) v

/-! ### A frame byte (R26) -/

/-- `dat[j]` (R26); only `j` below 5 exists. -/
def readDat (s : State) (j : Nat) : Byte := s.dat[j]?.getD 0

/-! ### f32 (R147) -/

/-- `f32(n)` of a byte: sign 0, exponent field `127 + e`, fraction `(n - 2^e) << (23 - e)` with
`e = floor(log2 n)`; `f32(0)` is the zero pattern (R147; log 20). -/
def f32OfByte (b : Byte) : F32 :=
  if b = 0 then 0
  else
    BitVec.ofNat 32
      ((127 + b.toNat.log2) * 2 ^ 23 + (b.toNat - 2 ^ b.toNat.log2) * 2 ^ (23 - b.toNat.log2))

end Sys2Proof.Machine
end

