-- ==== Sys2Proof/Machine/Flags.lean ====
section
/-! DEFINITION. The status items and the two comparisons of the block: cause codes (spec 60_exceptions.md
R161), whether an attempt runs (42_protocol_sequencer.md R131), the bit decision (30_encoding.md R78) and
the frame's validity (R77). The block has no arithmetic condition codes (10_state.md section 5). -/

namespace Sys2Proof.Machine

/-- The number of an error kind (R161). -/
def errCode (e : ErrKind) : Nat :=
  match e with
  | .noError => 0
  | .deviceOpenError => 1
  | .mappingError => 2
  | .timeoutError => 3
  | .checksumError => 4

/-- The number of a polling phase, 0 to 82 (R161). -/
def phaseCode (ph : PollPhase) : Nat :=
  match ph with
  | .waitResponse => 0
  | .sampleLow i => 1 + 2 * i.val
  | .sampleHigh i => 2 + 2 * i.val

/-- The phases in which no attempt is running (R131). -/
def restingPhase (pc : Phase) : Bool :=
  match pc with
  | .idle | .done | .failed => true
  | .handshake | .waitResponse | .sampleLow _ | .sampleHigh _ | .decode => false

/-- An attempt is running: a second `READDATA` is an overlapping call (R131). The flag `running` tells
the slot 0 of an attempt, whose phase is `Idle` (R79), from rest (log 2). -/
def attemptRunning (s : State) : Bool := s.running || !restingPhase s.pc

/-- The bit a high-phase count stands for: 1 iff the count is at least the threshold (R78, R142). -/
def bitOfCount (thr c : Count) : Bool := decide (thr ≤ c)

/-- The low 8 bits of the sum of the first four frame bytes, added exactly (R144). -/
def frameSum (s : State) : Byte :=
  BitVec.ofNat 8
    ((readDat s 0).toNat + (readDat s 1).toNat + (readDat s 2).toNat + (readDat s 3).toNat)

/-- The frame is valid: the checksum byte equals the sum (R26, R77). -/
def frameValid (s : State) : Bool := readDat s 4 == frameSum s

end Sys2Proof.Machine
end

