-- ==== Sys2Proof/Machine/Ops.lean ====
section
/-! DEFINITION. The named operations every meaning is built from: events, the two access primitives of
the RegisterMap (spec 20_memory.md R51, R52), the answers of the environment (R56, R91), the error entry
(60_exceptions.md R166), attempt start (42_protocol_sequencer.md R113) and end (R110, R112). -/

namespace Sys2Proof.Machine

/-- The answer of an operation: what it computes, or the refusal that stops it. -/
abbrev Access := Except Refusal

/-- An operation's answer as the answer of a step. -/
def answer (r : Access State) : StepResult :=
  match r with
  | .ok s => .next s
  | .error e => .refused e

/-- `emit e`: appends an event to the trace (00_scope.md section 6). -/
def emit (e : Event) (s : State) : State := { s with trace := s.trace ++ [e] }

/-! ### The line (R56) -/

/-- The word the next `LEV` read returns: the first listed answer, or a free word (R56; log 4). -/
def nextLev (s : State) : Word :=
  match s.line with
  | v :: _ => v
  | [] => Config.freeLev s.lineReads

/-- One line sample is consumed (R56). -/
def dropLev (s : State) : State := { s with line := s.line.tail, lineReads := s.lineReads + 1 }

/-! ### The RegisterMap (R50 to R60, R66) -/

/-- The ways an access to the register block is refused whatever its direction: no mapping, or an
offset outside the window (R53, R66). DESIGN CHOICE (log 29): the spec gives no order for an access that
meets several refusals; the missing map is named first, then the window, then the direction or the
undefined offset. -/
def accessRefusal (w : Nat) (s : State) : Option Refusal :=
  if s.mapped = false then some .notMapped
  else if s.params.mapSize < 4 * w + 4 then some .beyondWindow
  else none

/-- `RegRead(w)`, event `BusRead(w)` (R51): a function-select word returns the word last written (R57),
`LEV` the line's answer (R56), anything else is refused (R66). -/
def regRead (w : Nat) (s : State) : Access (Word × State) :=
  match accessRefusal w s with
  | some r => .error r
  | none =>
    if w < 6 then .ok (readFsel s w, emit (.busRead w (readFsel s w)) s)
    else if w = levOff then .ok (nextLev s, emit (.busRead w (nextLev s)) (dropLev s))
    else if w = setOff ∨ w = clrOff then .error .readOfWriteOnly
    else .error .undefinedOffset

/-- `RegWrite(w, v)`, event `BusWrite(w, v)` (R52): a function-select word takes the value; `SET` sets
and `CLR` clears the latch bits that are 1 in `v` (R33, R34); anything else is refused (R66). -/
def regWrite (w : Nat) (v : Word) (s : State) : Access State :=
  match accessRefusal w s with
  | some r => .error r
  | none =>
    if w < 6 then .ok (emit (.busWrite w v) { s with fsel := s.fsel.setIfInBounds w v })
    else if w = setOff then .ok (emit (.busWrite w v) { s with out := s.out ||| v })
    else if w = clrOff then .ok (emit (.busWrite w v) { s with out := s.out &&& ~~~v })
    else if w = levOff then .error .writeOfReadOnly
    else .error .undefinedOffset

/-! ### The mapper service (R91) -/

/-- What one mapping request answers: the restricted device first, then the privileged one; no device:
`DeviceOpenError`; then the mapping (R91). -/
def mapperResponse (a : MapperAnswer) : MapResp :=
  if a.restrictedOpens || a.privilegedOpens then
    if a.mappingSucceeds then .ok else .mappingError
  else .deviceOpenError

/-- What the mapper service meets at the next request: the first listed answer, or free ones (log 5). -/
def nextMapper (s : State) : MapperAnswer :=
  match s.mapper with
  | a :: _ => a
  | [] =>
    { restrictedOpens := Config.freeRestrictedOpens s.mapReqs
      privilegedOpens := Config.freePrivilegedOpens s.mapReqs
      mappingSucceeds := Config.freeMappingSucceeds s.mapReqs }

/-- One mapping request is answered: the events `MapReq` and `MapResp` (R12, R90). -/
def askMapper (s : State) : State :=
  emit (.mapResp (mapperResponse (nextMapper s)))
    (emit .mapReq { s with mapper := s.mapper.tail, mapReqs := s.mapReqs + 1 })

/-! ### Priority (R123, R124) -/

/-- `emit PrioUp ; prio <- RealTime` (R123). It always succeeds (D16; log 18). -/
def raisePrio (s : State) : State := { emit .prioUp s with prio := .realTime }

/-- `emit PrioDown ; prio <- Default` (R124). -/
def lowerPrio (s : State) : State := { emit .prioDown s with prio := .default }

/-! ### Errors (R166) -/

/-- `raise E(info)`, the error entry (R166), in its order: priority restored if it was raised, the kind
and place recorded, no reading, phase `Failed`, index 96. Everything else is kept. -/
def raiseError (e : ErrKind) (info : Option PollPhase) (s : State) : State :=
  let s1 := if s.prio = .realTime then lowerPrio s else s
  { s1 with err := e, errPhase := info, res := none, pc := .failed, upc := 96 }

/-! ### The attempt (R110, R112, R113) -/

/-- `attempt_start()` (R113): what is re-initialised; `mapped`, `FSEL`, `out` and `prio` are not
touched. From here an attempt is running (log 2). -/
def attemptStart (s : State) : State :=
  { s with
    pc := .idle
    upc := 0
    cnt := Vector.replicate 82 0
    wcnt := 0
    dat := Vector.replicate 5 0
    err := .noError
    errPhase := none
    res := none
    running := true }

/-- The end of an attempt: `emit Result(res)` (R110, R112). -/
def attemptEnd (s : State) : State := { emit (.result s.res) s with running := false }

end Sys2Proof.Machine
end

