-- ==== Sys2Proof/Machine/DecodeStage.lean ====
section
/-! DEFINITION. The decode stage: `THRESH`, `DECBITS`, `CHKSUM` (spec 43_decode_checksum.md R140 to R151). -/

namespace Sys2Proof.Machine

/-- The sum of the high-phase counts of pulses 2 to 40, exact (R141; log 11). -/
def thresholdSum (s : State) : Nat :=
  ((List.range' thrFirst thrN).map fun i => (highCount s i).toNat).sum

/-- `THRESH`: `thr <- s / 39`, floor division (R141). -/
def execThresh (s : State) : StepResult :=
  .next { s with thr := BitVec.ofNat 32 (thresholdSum s / thrN) }

/-- One pulse of `DECBITS`: shift the destination byte left, set its low bit iff the pulse's bit is 1
(R142). -/
def decodePulse (s : State) (dat : Vector Byte 5) (i : Nat) : Vector Byte 5 :=
  let j := (i - 1) / 8
  let b := dat[j]?.getD 0 <<< 1
  dat.setIfInBounds j (if bitOfCount s.thr (highCount s i) then b ||| 1 else b)

/-- `DECBITS`: pulses 1 to 40 in order (R142). -/
def execDecbits (s : State) : StepResult :=
  .next { s with dat := (List.range' decFirst nBits).foldl (decodePulse s) s.dat }

/-- The Reading of a frame: the first and third bytes (R145). -/
def readingOf (s : State) : Reading :=
  { humidity := f32OfByte (readDat s 0), temperature := f32OfByte (readDat s 2) }

/-- `CHKSUM` (R144): a valid frame gives the Reading and `Done`; otherwise `ChecksumError`. -/
def execChksum (s : State) : StepResult :=
  .next
    (if frameValid s then { s with res := some (readingOf s), pc := .done }
    else raiseError .checksumError none s)

end Sys2Proof.Machine
end

