-- ==== Sys2Proof/Machine/PinController.lean ====
section
/-! DEFINITION. The Pin Controller: `SETINPUT`, `SETOUTPUT`, `SETHIGH`, `SETLOW`, `READINPUT`
(spec 41_pin_controller.md R100 to R106). -/

namespace Sys2Proof.Machine

/-- The preconditions common to the five operations: the RegisterMap is present (R100 (b), R66) and the
pin is one of 0 to 31 (R80 (c), R100 (a)); otherwise refused. DESIGN CHOICE (log 29): where both fail the
missing map is named. -/
def pinOp {α : Type} (p : PinNo) (s : State) (r : Access α) : Access α :=
  if s.mapped = false then .error .notMapped
  else if pinLegal p then r
  else .error .pinAbove31

/-- Read-modify-write of the pin's function-select word: one `RegRead`, one `RegWrite` (R101, R102). -/
def modifyFsel (p : PinNo) (f : Word → Word) (s : State) : Access State :=
  match regRead (regIndex p) s with
  | .error r => .error r
  | .ok (v, s1) => regWrite (regIndex p) (f v) s1

/-- `SETINPUT p`: the field of pin `p` becomes `0b000` (R101). -/
def setInput (p : PinNo) (s : State) : Access State :=
  pinOp p s (modifyFsel p (fun v => v &&& ~~~fselMask p) s)

/-- `SETOUTPUT p`: `SETINPUT p`, then bit 0 of the field is set (R102). -/
def setOutput (p : PinNo) (s : State) : Access State :=
  match setInput p s with
  | .error r => .error r
  | .ok s1 => modifyFsel p (fun v => v ||| fselOut p) s1

/-- `READINPUT p`: one `LEV` read; the result is whether bit `p` is set (R105). -/
def readInput (p : PinNo) (s : State) : Access (Bool × State) :=
  pinOp p s
    (match regRead levOff s with
    | .error r => .error r
    | .ok (v, s1) => .ok (decide (v &&& pinBit p ≠ 0), s1))

/-- `SETINPUT p` (R101). -/
def execSetinput (p : PinNo) (s : State) : StepResult := answer (setInput p s)

/-- `SETOUTPUT p` (R102). -/
def execSetoutput (p : PinNo) (s : State) : StepResult := answer (setOutput p s)

/-- `SETHIGH p`: `RegWrite(SET_OFF, pinBit(p))` (R103). -/
def execSethigh (p : PinNo) (s : State) : StepResult :=
  answer (pinOp p s (regWrite setOff (pinBit p) s))

/-- `SETLOW p`: `RegWrite(CLR_OFF, pinBit(p))` (R104). -/
def execSetlow (p : PinNo) (s : State) : StepResult :=
  answer (pinOp p s (regWrite clrOff (pinBit p) s))

/-- `READINPUT p` (R105), invoked by itself: the bit it returns is recorded in `readback` (log 14). -/
def execReadinput (p : PinNo) (s : State) : StepResult :=
  match readInput p s with
  | .ok (b, s1) => .next { s1 with readback := some b }
  | .error r => .refused r

end Sys2Proof.Machine
end

