-- ==== Sys2Proof/Machine/ProtocolDecoder.lean ====
section
/-! DEFINITION. The Protocol Decoder's hardware half: `READDATA`, the delays, the priority operations
and the polling operations (spec 42_protocol_sequencer.md R110 to R133). -/

namespace Sys2Proof.Machine

/-- `READDATA` (R110): accepted only when no attempt is running (R131), it performs the attempt start
(R113); the steps that follow run the 96 slots and end with `Result` (Sequencer.lean; log 2). -/
def execReaddata (s : State) : StepResult :=
  if attemptRunning s then .refused .overlappingAttempt else .next (attemptStart s)

/-! ### Delays (R120 to R122): events, no state -/

/-- `SLEEPC ms`: `emit Sleep(ms)` (R120). -/
def execSleepc (ms : Millis) (s : State) : StepResult := .next (emit (.sleep ms.toNat) s)

/-- `WAITP ms`: `emit BusyWait(ms)` (R121). -/
def execWaitp (ms : Millis) (s : State) : StepResult := .next (emit (.busyWait ms.toNat) s)

/-- `SETTLE`: `emit Settle(SETTLE_ITER)` (R122). -/
def execSettle (s : State) : StepResult := .next (emit (.settle s.params.settleIter) s)

/-! ### Priority (R123, R124) -/

/-- `PRIOUP` (R123). -/
def execPrioup (s : State) : StepResult := .next (raisePrio s)

/-- `PRIODN` (R124). -/
def execPriodn (s : State) : StepResult := .next (lowerPrio s)

/-! ### Polling (R125 to R129) -/

/-- How a poll loop ended: by the transition or by the ceiling, with its count. -/
structure PollEnd where
  timedOut : Bool
  count : Nat
  state : State
  deriving DecidableEq, Repr

/-- The poll loop of R126: read; leave on the other level without counting; else count, and time out
when the count reaches the ceiling. `fuel` only bounds the recursion: `maxCount + 1` iterations are
never used up (Laws/Poll.lean, `pollLoop_fuel`). -/
def pollLoop (level : Bool) (maxCount : Nat) (p : PinNo) : Nat → Nat → State → Access PollEnd
  | 0, c, s => .ok { timedOut := true, count := c, state := s }
  | fuel + 1, c, s =>
    match readInput p s with
    | .error r => .error r
    | .ok (b, s1) =>
      if b ≠ level then .ok { timedOut := false, count := c, state := s1 }
      else if maxCount ≤ c + 1 then .ok { timedOut := true, count := c + 1, state := s1 }
      else pollLoop level maxCount p fuel (c + 1) s1

/-- A polling operation (R126): waits out `level` with the counter of the phase, on pin `PIN`; a
timeout raises `TimeoutError` with the phase (R129). -/
def pollPhase (level : Bool) (ph : PollPhase) (s : State) : Access State :=
  match pollLoop level s.params.maxCount s.pin (s.params.maxCount + 1)
      (readCounter s ph).toNat s with
  | .error r => .error r
  | .ok e =>
    let s1 := writeCounter e.state ph (BitVec.ofNat 32 e.count)
    .ok (if e.timedOut then raiseError .timeoutError (some ph) s1 else s1)

/-- `WAITRESP` (R125): waits out the high level with `wcnt`. -/
def execWaitresp (s : State) : StepResult := answer (pollPhase true .waitResponse s)

/-- `CNTLOW i` (R127): waits out the low level with `cnt[2i]`. DESIGN CHOICE (log 29): an index above 40 is
named before a missing map. -/
def execCntlow (k : PulseNo) (s : State) : StepResult :=
  match pulseIndex k with
  | some i => answer (pollPhase false (.sampleLow i) s)
  | none => .refused .indexAbove40

/-- `CNTHIGH i` (R128): waits out the high level with `cnt[2i+1]`. DESIGN CHOICE (log 29): an index above 40
is named before a missing map. -/
def execCnthigh (k : PulseNo) (s : State) : StepResult :=
  match pulseIndex k with
  | some i => answer (pollPhase true (.sampleHigh i) s)
  | none => .refused .indexAbove40

end Sys2Proof.Machine
end

