-- ==== Sys2Proof/Machine/RegisterMapper.lean ====
section
/-! DEFINITION. The Register Mapper: `ENSUREMAPPED` (spec 40_register_mapper.md R90 to R94). -/

namespace Sys2Proof.Machine

/-- `ENSUREMAPPED` (R90): nothing while `mapped = 1` (R93); otherwise one request, and either the
RegisterMap or the error entry with no handle retained (R92). -/
def ensureMapped (s : State) : State :=
  if s.mapped then s
  else
    match mapperResponse (nextMapper s) with
    | .ok => { askMapper s with mapped := true }
    | .deviceOpenError => raiseError .deviceOpenError none (askMapper s)
    | .mappingError => raiseError .mappingError none (askMapper s)

/-- `ENSUREMAPPED` (R90): no answer of the mapper service stops the machine. -/
def execEnsuremapped (s : State) : StepResult := .next (ensureMapped s)

end Sys2Proof.Machine
end

