-- ==== Sys2Proof/Machine/Dispatch.lean ====
section
/-! DEFINITION. The dispatch: one arm per operation of spec/opcode_table.json. -/

namespace Sys2Proof.Machine

def exec (i : Instr) (s : State) : Host.Outcome State Fault Refusal :=
  match i with
  | .ensuremapped => Sys2Proof.Machine.execEnsuremapped s
  | .setinput p => Sys2Proof.Machine.execSetinput p s
  | .setoutput p => Sys2Proof.Machine.execSetoutput p s
  | .sethigh p => Sys2Proof.Machine.execSethigh p s
  | .setlow p => Sys2Proof.Machine.execSetlow p s
  | .readinput p => Sys2Proof.Machine.execReadinput p s
  | .readdata => Sys2Proof.Machine.execReaddata s
  | .sleepc ms => Sys2Proof.Machine.execSleepc ms s
  | .waitp ms => Sys2Proof.Machine.execWaitp ms s
  | .settle => Sys2Proof.Machine.execSettle s
  | .prioup => Sys2Proof.Machine.execPrioup s
  | .priodn => Sys2Proof.Machine.execPriodn s
  | .waitresp => Sys2Proof.Machine.execWaitresp s
  | .cntlow k => Sys2Proof.Machine.execCntlow k s
  | .cnthigh k => Sys2Proof.Machine.execCnthigh k s
  | .thresh => Sys2Proof.Machine.execThresh s
  | .decbits => Sys2Proof.Machine.execDecbits s
  | .chksum => Sys2Proof.Machine.execChksum s

end Sys2Proof.Machine
end

