-- ==== Sys2Proof/Machine/Sequencer.lean ====
section
/-! DEFINITION. The sequencer: the fixed 96-slot sequence of an attempt (spec 30_encoding.md R79), how
`pc` and `upc` advance (42_protocol_sequencer.md R115), and how an invoked operation word starts. -/

namespace Sys2Proof.Machine

/-- The operation in slot `u` of the sequence for pin `pin` (R79); slot 96 is the end. -/
def slotInstr (pin : PinNo) (u : Nat) : Option Instr :=
  match u with
  | 0 => some .ensuremapped
  | 1 => some (.setoutput pin)
  | 2 => some (.sethigh pin)
  | 3 => some (.sleepc tHighMs)
  | 4 => some (.setlow pin)
  | 5 => some (.waitp tLowMs)
  | 6 => some (.setinput pin)
  | 7 => some .settle
  | 8 => some .prioup
  | 9 => some .waitresp
  | 92 => some .priodn
  | 93 => some .thresh
  | 94 => some .decbits
  | 95 => some .chksum
  | _ =>
    if u < 92 then
      if u % 2 = 0 then some (.cntlow (BitVec.ofNat 6 ((u - 10) / 2)))
      else some (.cnthigh (BitVec.ofNat 6 ((u - 11) / 2)))
    else none

/-- The phase in which slot `u` runs, the last column of R79 (R115); for `u` below 96. -/
def phaseOf (u : Nat) : Phase :=
  if u = 0 then .idle
  else if u ≤ 8 then .handshake
  else if u = 9 then .waitResponse
  else if u ≤ 91 then
    if u % 2 = 0 then .sampleLow (Fin.ofNat 41 ((u - 10) / 2))
    else .sampleHigh (Fin.ofNat 41 ((u - 11) / 2))
  else if u = 92 then .sampleHigh 40
  else .decode

/-- After the operation of a slot (R115): an error has put `upc` to 96 and ends the attempt; otherwise
`upc <- upc + 1` and `pc` follows, and slot 95 ends the attempt in the phase `CHKSUM` left (R110). -/
def afterSlot (s : State) : State :=
  if s.upc.val = 96 then attemptEnd s
  else if s.upc.val = 95 then attemptEnd { s with upc := 96 }
  else { s with upc := Fin.ofNat 97 (s.upc.val + 1), pc := phaseOf (s.upc.val + 1) }

/-- One step of a running attempt: the operation of slot `upc`, then the advance (R110, R115). -/
def runSlot (s : State) : StepResult :=
  match slotInstr s.pin s.upc.val with
  | none => .next (attemptEnd s)
  | some i =>
    match exec i s with
    | .next t => .next (afterSlot t)
    | .fault f => .fault f
    | .refused r => .refused r

/-- One step with no attempt running: the oldest invoked word is decoded and executed; with none the
engine waits for its caller (log 3). A word that spells no operation is refused (R80). -/
def runCall (s : State) : StepResult :=
  match s.calls with
  | [] => .next s
  | w :: rest =>
    match decode w with
    | .bad e => .refused (.illegalWord e)
    | .op i => exec i { s with calls := rest }

/-- The invocation of one operation word, placed before those waiting, at a moment when no attempt is
running (log 24). -/
def invokeWord (w : OpWord) (s : State) : State := { s with calls := w :: s.calls, running := false }

end Sys2Proof.Machine
end

