-- ==== Sys2Proof/Machine/Step.lean ====
section
/-! DEFINITION. One step of the machine: a slot of the running attempt, or the next invoked operation. -/

namespace Sys2Proof.Machine

/-- One step (R110, R115): while an attempt runs, its next slot; otherwise the next invocation. It runs a
whole operation; the engine's steps of one event each (R12, R13) are `eventStep` and `engineStep` in
EventStep.lean, which make up this one (log 1). -/
def step (s : State) : Host.Outcome State Fault Refusal :=
  if s.running then runSlot s else runCall s

/-- `s` with the word of a table row invoked next, so that `step` decodes and runs it (log 24). -/
def State.withFetchWord (s : State) (_nbits w : Nat) : State := invokeWord (BitVec.ofNat 16 w) s

end Sys2Proof.Machine
end

