-- ==== Sys2Proof/Machine/EventStep.lean ====
section
/-! DEFINITION. The engine one event at a time (spec 00_scope.md R12), with the answers of its environment
and the configuration as parameters of the step (R13). `step` runs a whole operation, which R115 of
42_protocol_sequencer.md gives as one advance of `upc`; here the same operation runs event by event, with a
sub-step as R115 describes it. -/

namespace Sys2Proof.Machine

/-! ### Between two events of one operation -/

/-- What an operation that has performed an event has yet to do. -/
inductive Pending where
  /-- The function-select word of pin `p` has been read as `v`; the word with the field cleared is to be
  written (R101). `output`: the operation is `SETOUTPUT` and goes on (R102). -/
  | clearField (p : PinNo) (v : Word) (output : Bool)
  /-- `SETOUTPUT p` has cleared the field; the word is to be read again (R102). -/
  | readAgain (p : PinNo)
  /-- `SETOUTPUT p` has read the word again as `v`; it is to be written with bit 0 of the field set (R102). -/
  | setField (p : PinNo) (v : Word)
  /-- The poll loop of a phase goes round again; its count is in the counter of the phase (R126). -/
  | poll (level : Bool) (ph : PollPhase)
  /-- An error has been met while the priority is raised: the error entry is to be performed, with its
  event `PrioDown` (R166). -/
  | errorEntry (e : ErrKind) (place : Option PollPhase)
  deriving DecidableEq, Repr

/-- What one event of an operation leaves: the state, and what is left to do, if anything. -/
abbrev Progress := State × Option Pending

/-- `raise E(info)` after an event: with the priority raised the error entry has an event of its own and
is the next step, otherwise it has none and belongs to this one (R166). -/
def raiseNext (e : ErrKind) (place : Option PollPhase) (s : State) : Progress :=
  if s.prio = .realTime then (s, some (.errorEntry e place)) else (raiseError e place s, none)

/-- The read of a read-modify-write: `RegRead` of the function-select word of pin `p` (R101, R102). -/
def readField (p : PinNo) (k : Word → Pending) (s : State) : Access Progress :=
  match regRead (regIndex p) s with
  | .error r => .error r
  | .ok (v, s1) => .ok (s1, some (k v))

/-- The write of a read-modify-write (R101, R102), and what is left after it. -/
def writeField (p : PinNo) (v : Word) (next : Option Pending) (s : State) : Access Progress :=
  match regWrite (regIndex p) v s with
  | .error r => .error r
  | .ok s1 => .ok (s1, next)

/-- One poll iteration (R126): one `READINPUT PIN` and one test. The counter is the register itself. -/
def pollEvent (level : Bool) (ph : PollPhase) (s : State) : Access Progress :=
  match readInput s.pin s with
  | .error r => .error r
  | .ok (b, s1) =>
    if b ≠ level then .ok (s1, none)
    else
      let c := (readCounter s ph).toNat + 1
      let s2 := writeCounter s1 ph (BitVec.ofNat 32 c)
      if s.params.maxCount ≤ c then .ok (raiseNext .timeoutError (some ph) s2)
      else .ok (s2, some (.poll level ph))

/-- `ENSUREMAPPED` by events (R90): nothing, or one request with its answer. -/
def mapEvent (s : State) : Progress :=
  if s.mapped then (s, none)
  else
    match mapperResponse (nextMapper s) with
    | .ok => ({ askMapper s with mapped := true }, none)
    | .deviceOpenError => raiseNext .deviceOpenError none (askMapper s)
    | .mappingError => raiseNext .mappingError none (askMapper s)

/-- An operation that is one event, or a computation without an event: it is done after this step. -/
def wholeOperation (i : Instr) (s : State) : Access Progress :=
  match exec i s with
  | .next t => .ok (t, none)
  | .refused r => .error r

/-- The first event of an operation. -/
def startOperation (i : Instr) (s : State) : Access Progress :=
  match i with
  | .ensuremapped => .ok (mapEvent s)
  | .setinput p => pinOp p s (readField p (fun v => .clearField p v false) s)
  | .setoutput p => pinOp p s (readField p (fun v => .clearField p v true) s)
  | .sethigh p => wholeOperation (.sethigh p) s
  | .setlow p => wholeOperation (.setlow p) s
  | .readinput p => wholeOperation (.readinput p) s
  | .readdata => wholeOperation .readdata s
  | .sleepc ms => wholeOperation (.sleepc ms) s
  | .waitp ms => wholeOperation (.waitp ms) s
  | .settle => wholeOperation .settle s
  | .prioup => wholeOperation .prioup s
  | .priodn => wholeOperation .priodn s
  | .waitresp => pollEvent true .waitResponse s
  | .cntlow k =>
    match pulseIndex k with
    | some n => pollEvent false (.sampleLow n) s
    | none => .error .indexAbove40
  | .cnthigh k =>
    match pulseIndex k with
    | some n => pollEvent true (.sampleHigh n) s
    | none => .error .indexAbove40
  | .thresh => wholeOperation .thresh s
  | .decbits => wholeOperation .decbits s
  | .chksum => wholeOperation .chksum s

/-- The next event of an operation under way. -/
def continueOperation (w : Pending) (s : State) : Access Progress :=
  match w with
  | .clearField p v output =>
    writeField p (v &&& ~~~fselMask p) (if output then some (.readAgain p) else none) s
  | .readAgain p => readField p (fun v => .setField p v) s
  | .setField p v => writeField p (v ||| fselOut p) none s
  | .poll level ph => pollEvent level ph s
  | .errorEntry e place => .ok (raiseError e place s, none)

/-! ### The step of one event -/

/-- A state between two events: the machine's state and what the operation under way has yet to do. -/
structure EventState where
  st : State
  pending : Option Pending
  deriving DecidableEq, Repr

/-- How an operation of an attempt that is over moves the index (R115): an error has put it to 96, slot
95 ends in the phase `CHKSUM` left, otherwise the phase follows. `Result` is an event of its own. -/
def nextSlot (s : State) : State :=
  if s.upc.val = 96 then s
  else if s.upc.val = 95 then { s with upc := 96 }
  else { s with upc := Fin.ofNat 97 (s.upc.val + 1), pc := phaseOf (s.upc.val + 1) }

/-- After an event: an operation that is not over keeps its place (R115: a sub-step leaves `pc` and
`upc`); one that is over moves the index if it is a slot of an attempt. -/
def closeEvent (inAttempt : Bool) (r : Access Progress) : Access EventState :=
  match r with
  | .error e => .error e
  | .ok (t, some w) => .ok { st := t, pending := some w }
  | .ok (t, none) => .ok { st := if inAttempt then nextSlot t else t, pending := none }

/-- One step of the engine in the sense of R12: exactly one event, or one computation without an event.
At rest the oldest invoked operation starts, and with none the engine waits (log 3). -/
def eventStep (f : EventState) : Access EventState :=
  match f.pending with
  | some w => closeEvent f.st.running (continueOperation w f.st)
  | none =>
    if f.st.running then
      match slotInstr f.st.pin f.st.upc.val with
      | none => .ok { st := attemptEnd f.st, pending := none }
      | some i => closeEvent true (startOperation i f.st)
    else
      match f.st.calls with
      | [] => .ok f
      | w :: rest =>
        match decode w with
        | .bad e => .error (.illegalWord e)
        | .op i => closeEvent false (startOperation i { f.st with calls := rest })

/-! ### The step with its parameters (R13) -/

/-- The parameters of the step relation, never state (R13): the configuration, and what the environment
answers should this step ask it: the mapper service, the line, the caller. -/
structure StepInput where
  params : Params
  answer : MapperAnswer
  lev : Word
  call : Option OpWord
  deriving DecidableEq, Repr

/-- The engine and the register block of 10_state.md and nothing of the environment (R13), with the place
inside an attempt (`running`, log 2) and inside an operation (`pending`), and the bit `READINPUT` returned
(log 14). -/
structure Engine where
  pin : PinNo
  pc : Phase
  upc : Fin 97
  cnt : Vector Count 82
  wcnt : Count
  thr : Count
  dat : Vector Byte 5
  res : Option Reading
  mapped : Bool
  prio : Prio
  err : ErrKind
  errPhase : Option PollPhase
  fsel : Vector Word 6
  out : Word
  running : Bool
  readback : Option Bool
  pending : Option Pending
  deriving DecidableEq, Repr

/-- The engine in a state of the machine. -/
def EventState.engine (f : EventState) : Engine where
  pin := f.st.pin
  pc := f.st.pc
  upc := f.st.upc
  cnt := f.st.cnt
  wcnt := f.st.wcnt
  thr := f.st.thr
  dat := f.st.dat
  res := f.st.res
  mapped := f.st.mapped
  prio := f.st.prio
  err := f.st.err
  errPhase := f.st.errPhase
  fsel := f.st.fsel
  out := f.st.out
  running := f.st.running
  readback := f.st.readback
  pending := f.pending

/-- An engine with one input: the line, the mapper service and the caller have this answer only, and no
event has been recorded. -/
def Engine.withInput (e : Engine) (x : StepInput) : EventState where
  st :=
    { pin := e.pin
      pc := e.pc
      upc := e.upc
      cnt := e.cnt
      wcnt := e.wcnt
      thr := e.thr
      dat := e.dat
      res := e.res
      mapped := e.mapped
      prio := e.prio
      err := e.err
      errPhase := e.errPhase
      fsel := e.fsel
      out := e.out
      params := x.params
      running := e.running
      calls := x.call.toList
      line := [x.lev]
      lineReads := 0
      mapper := [x.answer]
      mapReqs := 0
      trace := []
      readback := e.readback }
  pending := e.pending

/-- The step relation of R12 and R13: from an engine, under an input, the events of the step (none, or
one of the alphabet) and the engine after it. -/
def engineStep (x : StepInput) (e : Engine) : Access (List Event × Engine) :=
  match eventStep (e.withInput x) with
  | .error r => .error r
  | .ok f => .ok (f.st.trace, f.engine)

/-- The input a state of the machine has in store for the next step (log 3, log 4, log 5, log 7). -/
def nextInput (s : State) : StepInput where
  params := s.params
  answer := nextMapper s
  lev := nextLev s
  call := s.calls.head?

end Sys2Proof.Machine
end

