-- ==== Sys2Proof/Safety.lean ====
section
/-! DEFINITION. The terms claims are stated in: readiness of the register block, the answers the line
has in store, the polling operations as one family, two-valued samples, and the invariants of a driver
instance that is used through its public operation only. -/

namespace Sys2Proof.Safety

open Sys2Proof.Machine

/-! ### Register accesses -/

/-- The five Pin Controller operations execute normally: the RegisterMap is present (R100 (b)) and the
window covers the word offsets the block uses (R10). -/
def Ready (s : State) : Prop := s.mapped = true ∧ 4 * (levOff + 1) ≤ s.params.mapSize

/-- `k` steps of the machine, stopping at the first stop. -/
def runSteps : Nat → State → StepResult
  | 0, s => .next s
  | k + 1, s =>
    match step s with
    | .next t => runSteps k t
    | .fault f => .fault f
    | .refused r => .refused r

/-- `k` steps of the engine in the sense of R12, one event each, stopping at the first stop. -/
def runEvents : Nat → EventState → Access EventState
  | 0, f => .ok f
  | k + 1, f =>
    match eventStep f with
    | .ok g => runEvents k g
    | .error r => .error r

/-- The operations that have no event when they raise no error: `READDATA` until its first slot,
`ENSUREMAPPED` with a map present, and the computations of the decode stage. -/
def silentOperations : List Instr := [.readdata, .ensuremapped, .thresh, .decbits, .chksum]

/-! ### The line (R56) -/

/-- The word the `k`-th coming `LEV` read returns, counting from 0: a listed answer or a free word. -/
def levAt (s : State) (k : Nat) : Word :=
  match s.line[k]? with
  | some v => v
  | none => Config.freeLev (s.lineReads + k)

/-- The level of pin `PIN` in that word (R56). -/
def levelAt (s : State) (k : Nat) : Bool := (levAt s k).getLsbD s.pin.toNat

/-- The state after the next `n` reads of `LEV` and nothing else: `n` samples consumed, `n` events. -/
def afterReads (s : State) (n : Nat) : State :=
  { s with
    line := s.line.drop n
    lineReads := s.lineReads + n
    trace := s.trace ++ (List.range n).map fun k => Event.busRead levOff (levAt s k) }

/-- The level samples of the runs `H^a L^b0 H^c0 ... L^b40 H^c40 L^1` (R132). -/
def runLevels (a : Nat) (runs : List (Nat × Nat)) : List Bool :=
  List.replicate a true ++
    (runs.flatMap fun bc => List.replicate bc.1 false ++ List.replicate bc.2 true) ++ [false]

/-! ### The polling operations (R125, R127, R128) -/

/-- The operation whose loop a polling phase is. -/
def pollInstr (ph : PollPhase) : Instr :=
  match ph with
  | .waitResponse => .waitresp
  | .sampleLow i => .cntlow (BitVec.ofNat 6 i.val)
  | .sampleHigh i => .cnthigh (BitVec.ofNat 6 i.val)

/-- The level a polling phase waits out (R126). -/
def pollLevel (ph : PollPhase) : Bool :=
  match ph with
  | .waitResponse => true
  | .sampleLow _ => false
  | .sampleHigh _ => true

/-! ### Frames and two-valued samples (R77, R150) -/

/-- Bit `n` of a frame in order of arrival, 0 to 39: bit `7 - n % 8` of byte `n / 8` (R77). -/
def frameBit (d : Vector Byte 5) (n : Nat) : Bool := (d[n / 8]?.getD 0).getLsbD (7 - n % 8)

/-- How many of pulses 2 to 40 carry a 1. -/
def longPulses (d : Vector Byte 5) : Nat := (List.range' 2 39).countP fun i => frameBit d (i - 1)

/-- The sample holds count `long` for every 1 and `short` for every 0 of the frame `d` (pulses 1 to 40). -/
def TwoValued (s : State) (d : Vector Byte 5) (short long : Nat) : Prop :=
  ∀ i, 1 ≤ i → i ≤ 40 → (highCount s i).toNat = if frameBit d (i - 1) then long else short

/-- The checksum of a frame holds (R77). -/
def validFrame (d : Vector Byte 5) : Bool :=
  d[4]?.getD 0 ==
    BitVec.ofNat 8 ((d[0]?.getD 0).toNat + (d[1]?.getD 0).toNat + (d[2]?.getD 0).toNat +
      (d[3]?.getD 0).toNat)

/-! ### The invariant of a driver instance -/

/-- Only the public operation `READDATA` is invoked (R7). -/
def PublicOnly (s : State) : Prop := ∀ w ∈ s.calls, w = encode .readdata

/-- The phases of the latency-sensitive window (R29). -/
def samplingPhase (pc : Phase) : Bool :=
  match pc with
  | .waitResponse | .sampleLow _ | .sampleHigh _ => true
  | .idle | .handshake | .decode | .done | .failed => false

/-- What holds between the steps of a running attempt: the phase follows the index (R115), the map is
present after slot 0, nothing has failed and there is no reading yet; finished counts are below the
ceiling (R21, R126) and the counts to come are still zero (R113). -/
structure RunningInv (s : State) : Prop where
  upc_lt : s.upc.val < 96
  pc_follows : s.pc = phaseOf s.upc.val
  mapped_after_slot0 : 1 ≤ s.upc.val → s.mapped = true
  no_error : s.err = .noError
  no_reading : s.res = none
  counts : ∀ k, k < 82 →
    if 10 + k < s.upc.val then (readCnt s k).toNat + 1 ≤ s.params.maxCount else readCnt s k = 0
  response : if 9 < s.upc.val then s.wcnt.toNat + 1 ≤ s.params.maxCount else s.wcnt = 0

/-- What holds while no attempt runs (R22, R39, R131, R166): before the first attempt `Idle`, 0 and no
error; after a success `Done`, a reading and no error; after a failure `Failed`, no reading, an error;
after any attempt every count is at most the ceiling (R21, R24). -/
structure RestingInv (s : State) : Prop where
  phase : restingPhase s.pc = true
  idle : s.pc = .idle → s.upc.val = 0 ∧ s.err = .noError ∧ s.res = none
  done : s.pc = .done → s.upc.val = 96 ∧ s.err = .noError ∧ s.res ≠ none ∧ s.mapped = true
  failed : s.pc = .failed → s.upc.val = 96 ∧ s.err ≠ .noError ∧ s.res = none
  counts : s.pc ≠ .idle → ∀ k, k < 82 → (readCnt s k).toNat ≤ s.params.maxCount
  response : s.pc ≠ .idle → s.wcnt.toNat ≤ s.params.maxCount

/-- The invariant: an admissible configuration (R10), public use only (R7), priority raised exactly in
the sampling window (R29), a recorded place exactly for a timeout (R30), and the two clauses above. -/
structure Inv (s : State) : Prop where
  admissible : s.params.Admissible s.pin.toNat
  publicOnly : PublicOnly s
  priority : s.prio = .realTime ↔ samplingPhase s.pc = true
  place : s.errPhase ≠ none ↔ s.err = .timeoutError
  running : s.running = true → RunningInv s
  resting : s.running = false → RestingInv s

/-- The mapping history of a trace (R93): no `MapResp(Ok)` while unmapped, at most one ever, and no
`MapReq` after it. -/
structure MapHistory (s : State) : Prop where
  none_before : s.mapped = false → Event.mapResp .ok ∉ s.trace
  at_most_one : s.trace.count (Event.mapResp .ok) ≤ 1
  no_request_after : ∀ before after, s.trace = before ++ Event.mapResp .ok :: after →
    Event.mapReq ∉ after

/-- Every `PrioUp` but the one in force has been matched by a `PrioDown` (R130). -/
def PrioPaired (s : State) : Prop :=
  s.trace.count .prioUp = s.trace.count .prioDown + (if s.prio = .realTime then 1 else 0)

/-- The pin during and after an attempt (R210, R111): from slot 7 on it is an input, from slot 5 on its
latch is 0; after an attempt that passed slot 0 both hold. -/
structure PinInv (s : State) : Prop where
  driven : s.running = true → 2 ≤ s.upc.val → s.upc.val ≤ 6 → pinFunction s s.pin = fselOutput
  released : s.running = true → 7 ≤ s.upc.val → pinFunction s s.pin = fselInput
  latched_high : s.running = true → 3 ≤ s.upc.val → s.upc.val ≤ 4 → latch s s.pin = true
  latched_low : s.running = true → 5 ≤ s.upc.val → latch s s.pin = false
  after : s.running = false → (s.pc = .done ∨ s.err = .timeoutError ∨ s.err = .checksumError) →
    pinFunction s s.pin = fselInput ∧ latch s s.pin = false

/-! ### The events of one attempt (R111) -/

/-- The slot of a polling phase (R79): 9 for the response, `10 + 2i` and `11 + 2i` for pulse `i`. -/
def pollSlot (ph : PollPhase) : Nat :=
  match ph with
  | .waitResponse => 9
  | .sampleLow i => 10 + 2 * i.val
  | .sampleHigh i => 11 + 2 * i.val

/-- The events of the register block: reads and writes of a word. -/
def isBusEvent (e : Event) : Bool :=
  match e with
  | .busRead _ _ | .busWrite _ _ => true
  | .mapReq | .mapResp _ | .sleep _ | .busyWait _ | .settle _ | .prioUp | .prioDown | .result _ =>
    false

/-- The state an error leaves (R166), written out: `prio` at `Default`, with `PrioDown` only if it was
raised; kind and place recorded; no reading; `Failed`; index 96; everything else kept. -/
def errorState (e : ErrKind) (place : Option PollPhase) (s : State) : State :=
  { s with
    prio := .default
    trace := s.trace ++ (if s.prio = .realTime then [Event.prioDown] else [])
    err := e
    errPhase := place
    res := none
    pc := .failed
    upc := 96 }

/-- Lines 2 to 13 of R111 for pin `p` whose function-select word held `v0`: the handshake. -/
def handshakeEvents (p : PinNo) (v0 : Word) (settleIter : Nat) : List Event :=
  let r := regIndex p
  let v1 := v0 &&& ~~~fselMask p
  let v2 := v1 ||| fselOut p
  [.busRead r v0, .busWrite r v1, .busRead r v1, .busWrite r v2, .busWrite setOff (pinBit p),
   .sleep 500, .busWrite clrOff (pinBit p), .busyWait 20, .busRead r v2,
   .busWrite r (v2 &&& ~~~fselMask p), .settle settleIter, .prioUp]

end Sys2Proof.Safety
end

