-- ==== Sys2Proof/Certificates/Slice0/Obligations.lean ====
section
/-! DEFINITION. The statements for the provers, from the numbered rules of spec/. Each holds for every
state that meets its hypotheses, whatever the configuration and whatever the free values. -/

open Sys2Proof Sys2Proof.Machine Sys2Proof.Safety

/-! ### Encoding -/

/-- R72, R80: decoding the word of a well-formed operation gives the operation back, with every operand
at every value. -/
def Obligations.DecodeOfEncode : Prop :=
  ∀ i : Instr, i.wellFormed = true → decode (encode i) = .op i

/-- R72, R80: a word that decodes spells exactly one operation, a well-formed one, and is that
operation's word. -/
def Obligations.EncodeOfDecode : Prop :=
  ∀ (w : OpWord) (i : Instr), decode w = .op i → i.wellFormed = true ∧ encode i = w

/-- R72: words written out from the tables of R72 and R79, one or more of each format. -/
def Obligations.SpecWordsDecode : Prop :=
  decode 0x0000 = .op .ensuremapped ∧ decode 0x081F = .op (.setinput 31) ∧
  decode 0x1004 = .op (.setoutput 4) ∧ decode 0x1804 = .op (.sethigh 4) ∧
  decode 0x2004 = .op (.setlow 4) ∧ decode 0x2816 = .op (.readinput 22) ∧
  decode 0x3000 = .op .readdata ∧ decode 0x41F4 = .op (.sleepc 500) ∧
  decode 0x47FF = .op (.sleepc 2047) ∧ decode 0x4814 = .op (.waitp 20) ∧
  decode 0x5000 = .op .settle ∧ decode 0x5800 = .op .prioup ∧ decode 0x6000 = .op .priodn ∧
  decode 0x6800 = .op .waitresp ∧ decode 0x7014 = .op (.cntlow 20) ∧
  decode 0x7828 = .op (.cnthigh 40) ∧ decode 0x8000 = .op .thresh ∧
  decode 0x8800 = .op .decbits ∧ decode 0x9000 = .op .chksum

/-- R80 (a), (b): the reserved codes and the illegal operands spell no operation, each for its own
reason, and `step` refuses an invoked word that spells none. Which reason is given where two apply is the
model's choice (log 29). -/
def Obligations.IllegalWordsRefused : Prop :=
  (∀ w : OpWord, w.toNat / 2048 = 7 ∨ 19 ≤ w.toNat / 2048 → decode w = .bad .reservedOp) ∧
  (∀ w : OpWord, w.toNat / 2048 ∈ [0, 6, 10, 11, 12, 13, 16, 17, 18] → w.toNat % 2048 ≠ 0 →
    decode w = .bad .argumentNotZero) ∧
  (∀ w : OpWord, w.toNat / 2048 ∈ [1, 2, 3, 4, 5, 14, 15] → w.toNat / 64 % 32 ≠ 0 →
    decode w = .bad .middleNotZero) ∧
  (∀ w : OpWord, w.toNat / 2048 ∈ [1, 2, 3, 4, 5] → w.toNat / 64 % 32 = 0 → 31 < w.toNat % 64 →
    decode w = .bad .pinAbove31) ∧
  (∀ w : OpWord, w.toNat / 2048 ∈ [14, 15] → w.toNat / 64 % 32 = 0 → 40 < w.toNat % 64 →
    decode w = .bad .indexAbove40) ∧
  (∀ (s : State) (w : OpWord) (rest : List OpWord) (e : DecodeError), s.running = false →
    s.calls = w :: rest → decode w = .bad e → step s = .refused (.illegalWord e))

/-! ### The step -/

/-- A step outside an attempt runs the oldest invoked operation: it is `exec` of the decoded word, with
the word taken off the list (the model's own list, log 3); with nothing invoked nothing changes. -/
def Obligations.StepRunsInvokedWord : Prop :=
  (∀ (s : State) (w : OpWord) (rest : List OpWord) (i : Instr), s.running = false →
    s.calls = w :: rest → decode w = .op i → step s = exec i { s with calls := rest }) ∧
  (∀ s : State, s.running = false → s.calls = [] → step s = .next s)

/-- R115: a step of an attempt runs the operation of slot `upc`; without an error the index advances by
one and the phase follows; an error (index 96) or slot 95 ends the attempt with `Result`. -/
def Obligations.StepRunsSlot : Prop :=
  ∀ (s t : State) (i : Instr), s.running = true → slotInstr s.pin s.upc.val = some i →
    exec i s = .next t →
    (t.upc.val = 96 → step s = .next
      { t with trace := t.trace ++ [.result t.res], running := false }) ∧
    (t.upc.val = 95 → step s = .next
      { t with upc := 96, trace := t.trace ++ [.result t.res], running := false }) ∧
    (t.upc.val < 95 → ∃ u : Fin 97, u.val = t.upc.val + 1 ∧
      step s = .next { t with upc := u, pc := phaseOf (t.upc.val + 1) })

/-- R79: the fixed sequence, slot by slot: the operation for every pin, the operation word for pin 4,
and the phase in which the slot runs. -/
def Obligations.SlotSequence : Prop :=
  (∀ p : PinNo,
    slotInstr p 0 = some .ensuremapped ∧ slotInstr p 1 = some (.setoutput p) ∧
    slotInstr p 2 = some (.sethigh p) ∧ slotInstr p 3 = some (.sleepc 500) ∧
    slotInstr p 4 = some (.setlow p) ∧ slotInstr p 5 = some (.waitp 20) ∧
    slotInstr p 6 = some (.setinput p) ∧ slotInstr p 7 = some .settle ∧
    slotInstr p 8 = some .prioup ∧ slotInstr p 9 = some .waitresp ∧
    (∀ i : Nat, i ≤ 40 → slotInstr p (10 + 2 * i) = some (.cntlow (BitVec.ofNat 6 i)) ∧
      slotInstr p (11 + 2 * i) = some (.cnthigh (BitVec.ofNat 6 i))) ∧
    slotInstr p 92 = some .priodn ∧ slotInstr p 93 = some .thresh ∧
    slotInstr p 94 = some .decbits ∧ slotInstr p 95 = some .chksum ∧ slotInstr p 96 = none) ∧
  ([0, 1, 2, 3, 4, 5, 6, 7, 8, 9, 92, 93, 94, 95].map fun u => (slotInstr 4 u).map encode) =
    [some 0x0000, some 0x1004, some 0x1804, some 0x41F4, some 0x2004, some 0x4814, some 0x0804,
     some 0x5000, some 0x5800, some 0x6800, some 0x6000, some 0x8000, some 0x8800, some 0x9000] ∧
  (∀ i : Nat, i ≤ 40 →
    (slotInstr 4 (10 + 2 * i)).map encode = some (BitVec.ofNat 16 (0x7000 + i)) ∧
    (slotInstr 4 (11 + 2 * i)).map encode = some (BitVec.ofNat 16 (0x7800 + i))) ∧
  phaseOf 0 = .idle ∧ (∀ u : Nat, 1 ≤ u → u ≤ 8 → phaseOf u = .handshake) ∧
  phaseOf 9 = .waitResponse ∧
  (∀ i : Fin 41, phaseOf (10 + 2 * i.val) = .sampleLow i ∧
    phaseOf (11 + 2 * i.val) = .sampleHigh i) ∧
  phaseOf 92 = .sampleHigh 40 ∧ (∀ u : Nat, 93 ≤ u → u ≤ 95 → phaseOf u = .decode)

/-! ### Construction -/

/-- R39: the state after construction, for every admissible configuration and pin and every unspecified
content; construction performs no event. `cnt` and `wcnt` are unspecified until the first attempt starts,
then 0. -/
def Obligations.ConstructionLeavesResetState : Prop :=
  ∀ (c : Params) (pin : Nat) (u : Unspecified), c.Admissible pin →
    ∃ s : State, State.construct c pin u = .next s ∧
      s.pin.toNat = pin ∧ s.pc = .idle ∧ s.upc.val = 0 ∧ s.mapped = false ∧ s.prio = .default ∧
      s.res = none ∧ s.err = .noError ∧ s.errPhase = none ∧ s.cnt = u.cnt ∧ s.wcnt = u.wcnt ∧
      s.thr = u.thr ∧ s.dat = u.dat ∧ s.fsel = u.fsel ∧ s.out = u.out ∧ s.params = c ∧
      s.running = false ∧ s.trace = [] ∧
      (∀ t : State, exec .readdata s = .next t → t.cnt = Vector.replicate 82 0 ∧ t.wcnt = 0)

/-- R10: a configuration that fails a constraint is refused; any other is admitted. -/
def Obligations.ConstructionChecksConfiguration : Prop :=
  ∀ (c : Params) (pin : Nat) (u : Unspecified),
    (31 < pin ∨ c.maxCount = 0 ∨ 2 ^ 32 - 1 < c.maxCount ∨ 2 ^ 32 - 1 < 39 * (c.maxCount - 1) ∨
      c.mapSize < 56 → State.construct c pin u = .refused .configurationRefused) ∧
    (pin ≤ 31 → 1 ≤ c.maxCount → c.maxCount ≤ 2 ^ 32 - 1 → 39 * (c.maxCount - 1) ≤ 2 ^ 32 - 1 →
      56 ≤ c.mapSize → ∃ s : State, State.construct c pin u = .next s)

/-- The invariants of this file hold right after construction, hence at `State.reset`, whose free
configuration lies inside R10 (log 7). -/
def Obligations.InvariantsHoldAtReset : Prop :=
  (∀ (c : Params) (pin : Nat) (u : Unspecified) (s : State), State.construct c pin u = .next s →
    Inv s ∧ MapHistory s ∧ PrioPaired s ∧ PinInv s) ∧
  Inv State.reset ∧ MapHistory State.reset ∧ PrioPaired State.reset ∧ PinInv State.reset

/-! ### The Register Mapper -/

/-- R90: `ENSUREMAPPED` with a map present does nothing; without one it sends one request, and either
the map is present or the error of the answer is raised and no map is kept. -/
def Obligations.EnsureMappedAsksOnce : Prop :=
  encode .ensuremapped = 0x0000 ∧
  ∀ s : State,
    (s.mapped = true → exec .ensuremapped s = .next s) ∧
    (s.mapped = false → ∀ asked : State,
      asked = { s with
        mapper := s.mapper.tail
        mapReqs := s.mapReqs + 1
        trace := s.trace ++ [.mapReq, .mapResp (mapperResponse (nextMapper s))] } →
      (mapperResponse (nextMapper s) = .ok →
        exec .ensuremapped s = .next { asked with mapped := true }) ∧
      (mapperResponse (nextMapper s) = .deviceOpenError →
        exec .ensuremapped s = .next (errorState .deviceOpenError none asked)) ∧
      (mapperResponse (nextMapper s) = .mappingError →
        exec .ensuremapped s = .next (errorState .mappingError none asked)))

/-- R91: the order in which the mapper service decides: the restricted device, the privileged device,
then the mapping. -/
def Obligations.MapperDecidesInOrder : Prop :=
  ∀ a : MapperAnswer,
    (a.restrictedOpens = false → a.privilegedOpens = false →
      mapperResponse a = .deviceOpenError) ∧
    ((a.restrictedOpens = true ∨ a.privilegedOpens = true) → a.mappingSucceeds = false →
      mapperResponse a = .mappingError) ∧
    ((a.restrictedOpens = true ∨ a.privilegedOpens = true) → a.mappingSucceeds = true →
      mapperResponse a = .ok)

/-- R93: once mapped, `ENSUREMAPPED` changes nothing; "at most one `MapResp(Ok)`, and no `MapReq` after
it" holds of a new instance, and no step from any state, whatever is invoked, breaks it. -/
def Obligations.MappingHappensOnce : Prop :=
  (∀ s : State, s.mapped = true → exec .ensuremapped s = .next s) ∧
  (∀ (c : Params) (pin : Nat) (u : Unspecified) (s : State), State.construct c pin u = .next s →
    MapHistory s) ∧
  (∀ s t : State, MapHistory s → step s = .next t → MapHistory t)

/-! ### The Pin Controller -/

/-- R73: the quantities derived from a pin, by the source's formulas; `pinBit` has exactly bit `p`, and no
bit at all for a number of 32 and up; the two examples of the rule. -/
def Obligations.PinArithmetic : Prop :=
  (∀ p : PinNo, pinLegal p →
    regIndex p = p.toNat / 10 ∧ bitOffset p = (p.toNat % 10) * 3 ∧
    fselMask p = 0b111#32 <<< ((p.toNat % 10) * 3) ∧
    fselOut p = 0b001#32 <<< ((p.toNat % 10) * 3) ∧ pinBit p = 1#32 <<< p.toNat ∧
    (∀ n : Nat, (pinBit p).getLsbD n = decide (n = p.toNat)) ∧ regIndex p ≤ 3 ∧ bitOffset p ≤ 27) ∧
  (∀ p : PinNo, 31 < p.toNat → pinBit p = 0) ∧
  (regIndex 4 = 0 ∧ bitOffset 4 = 12 ∧ fselMask 4 = 0x00007000 ∧ fselOut 4 = 0x00001000 ∧
    pinBit 4 = 0x00000010) ∧
  (regIndex 17 = 1 ∧ bitOffset 17 = 21 ∧ fselMask 17 = 0x00E00000 ∧ fselOut 17 = 0x00200000 ∧
    pinBit 17 = 0x00020000)

/-- R101: `SETINPUT p` reads and writes `FSEL[p/10]`; the field of pin `p` becomes `0b000` and the other
29 bits keep the value that was read. Nothing else changes. -/
def Obligations.SetInputClearsField : Prop :=
  ∀ (s : State) (p : PinNo), Ready s → pinLegal p →
    (encode (.setinput p)).toNat = 0x0800 + p.toNat ∧
    ∃ (t : State) (v : Word), v = readFsel s (p.toNat / 10) &&& ~~~fselMask p ∧
      exec (.setinput p) s = .next t ∧
      t = { s with
        fsel := s.fsel.setIfInBounds (p.toNat / 10) v
        trace := s.trace ++ [.busRead (p.toNat / 10) (readFsel s (p.toNat / 10)),
          .busWrite (p.toNat / 10) v] } ∧
      pinFunction t p = 0b000 ∧
      (∀ n : Nat, n < bitOffset p ∨ bitOffset p + 3 ≤ n →
        v.getLsbD n = (readFsel s (p.toNat / 10)).getLsbD n) ∧
      (∀ n : Nat, n < 6 → readFsel t n = if n = p.toNat / 10 then v else readFsel s n)

/-- R102: `SETOUTPUT p` makes four accesses, read, write, read, write; the field of pin `p` becomes
`0b001` whatever it held and the other 29 bits keep their value. Nothing else changes. -/
def Obligations.SetOutputSetsField : Prop :=
  ∀ (s : State) (p : PinNo), Ready s → pinLegal p →
    (encode (.setoutput p)).toNat = 0x1000 + p.toNat ∧
    ∃ (t : State) (v1 v2 : Word), v1 = readFsel s (p.toNat / 10) &&& ~~~fselMask p ∧
      v2 = v1 ||| fselOut p ∧
      exec (.setoutput p) s = .next t ∧
      t = { s with
        fsel := s.fsel.setIfInBounds (p.toNat / 10) v2
        trace := s.trace ++ [.busRead (p.toNat / 10) (readFsel s (p.toNat / 10)),
          .busWrite (p.toNat / 10) v1, .busRead (p.toNat / 10) v1,
          .busWrite (p.toNat / 10) v2] } ∧
      pinFunction t p = 0b001 ∧
      (∀ n : Nat, n < bitOffset p ∨ bitOffset p + 3 ≤ n →
        v2.getLsbD n = (readFsel s (p.toNat / 10)).getLsbD n) ∧
      (∀ n : Nat, n < 6 → readFsel t n = if n = p.toNat / 10 then v2 else readFsel s n)

/-- R103: `SETHIGH p` writes the word with bit `p` to offset 7; the latch of pin `p` is 1 and no other
latch bit changes. Nothing else changes. -/
def Obligations.SetHighSetsLatch : Prop :=
  ∀ (s : State) (p : PinNo), Ready s → pinLegal p →
    (encode (.sethigh p)).toNat = 0x1800 + p.toNat ∧
    ∃ t : State, exec (.sethigh p) s = .next t ∧
      t = { s with
        out := s.out ||| (1#32 <<< p.toNat)
        trace := s.trace ++ [.busWrite 7 (1#32 <<< p.toNat)] } ∧
      latch t p = true ∧ (∀ q : PinNo, q ≠ p → latch t q = latch s q)

/-- R104: `SETLOW p` writes the word with bit `p` to offset 10; the latch of pin `p` is 0 and no other
latch bit changes. Nothing else changes. -/
def Obligations.SetLowClearsLatch : Prop :=
  ∀ (s : State) (p : PinNo), Ready s → pinLegal p →
    (encode (.setlow p)).toNat = 0x2000 + p.toNat ∧
    ∃ t : State, exec (.setlow p) s = .next t ∧
      t = { s with
        out := s.out &&& ~~~(1#32 <<< p.toNat)
        trace := s.trace ++ [.busWrite 10 (1#32 <<< p.toNat)] } ∧
      latch t p = false ∧ (∀ q : PinNo, q ≠ p → latch t q = latch s q)

/-- R105: `READINPUT p` makes one read of offset 13, consumes one line sample and returns whether bit
`p` of the word is set (recorded in `readback`, log 14); the word is the first listed answer, if there is
one. Nothing else changes. -/
def Obligations.ReadInputSamplesPin : Prop :=
  ∀ (s : State) (p : PinNo), Ready s → pinLegal p →
    (encode (.readinput p)).toNat = 0x2800 + p.toNat ∧
    exec (.readinput p) s = .next { s with
      line := s.line.tail
      lineReads := s.lineReads + 1
      trace := s.trace ++ [.busRead 13 (nextLev s)]
      readback := some ((nextLev s).getLsbD p.toNat) } ∧
    (∀ (v : Word) (rest : List Word), s.line = v :: rest → nextLev s = v)

/-- R106: whenever one of the five Pin Controller operations completes, it has produced register
accesses only, and no engine register, no input but the line and no record but the trace and `readback`
has changed. -/
def Obligations.PinControllerFrame : Prop :=
  ∀ (s t : State) (p : PinNo) (i : Instr),
    i ∈ [Instr.setinput p, .setoutput p, .sethigh p, .setlow p, .readinput p] →
    exec i s = .next t →
    t.pin = s.pin ∧ t.pc = s.pc ∧ t.upc = s.upc ∧ t.cnt = s.cnt ∧ t.wcnt = s.wcnt ∧
    t.thr = s.thr ∧ t.dat = s.dat ∧ t.res = s.res ∧ t.mapped = s.mapped ∧ t.prio = s.prio ∧
    t.err = s.err ∧ t.errPhase = s.errPhase ∧ t.params = s.params ∧ t.running = s.running ∧
    t.calls = s.calls ∧ t.mapper = s.mapper ∧ t.mapReqs = s.mapReqs ∧
    ∃ es : List Event, t.trace = s.trace ++ es ∧ ∀ e ∈ es, isBusEvent e = true

/-- R36, R32: the level a pin drives. After `SETOUTPUT p` it is the latch bit, which `SETHIGH p` makes
high and `SETLOW p` low; after `SETINPUT p` the pin drives nothing and its latch is kept. -/
def Obligations.PinDrivesLatchWhileOutput : Prop :=
  ∀ (s : State) (p : PinNo), Ready s → pinLegal p →
    (∃ t, exec (.setoutput p) s = .next t ∧ drivenLevel t p = some (latch s p)) ∧
    (∃ t, exec (.setinput p) s = .next t ∧ drivenLevel t p = none ∧ latch t p = latch s p) ∧
    (drivenLevel s p ≠ none →
      (∃ t, exec (.sethigh p) s = .next t ∧ drivenLevel t p = some true) ∧
      (∃ t, exec (.setlow p) s = .next t ∧ drivenLevel t p = some false))

/-- R66, R80 (D19; log 10, log 16): the operations on the register block are refused by name while no map
is present, and a Pin Controller operation with a pin above 31, a `CNTLOW` or `CNTHIGH` with an index above 40, is
refused by name. That an index above 40 is named before a missing map is the model's choice (log 29). -/
def Obligations.OperationsRefused : Prop :=
  (∀ (s : State) (p : PinNo) (i : Instr), s.mapped = false →
    i ∈ [Instr.setinput p, .setoutput p, .sethigh p, .setlow p, .readinput p, .waitresp] →
    exec i s = .refused .notMapped) ∧
  (∀ (s : State) (k : PulseNo) (i : Instr), s.mapped = false → pulseLegal k →
    i ∈ [Instr.cntlow k, .cnthigh k] → exec i s = .refused .notMapped) ∧
  (∀ (s : State) (p : PinNo) (i : Instr), s.mapped = true → 31 < p.toNat →
    i ∈ [Instr.setinput p, .setoutput p, .sethigh p, .setlow p, .readinput p] →
    exec i s = .refused .pinAbove31) ∧
  (∀ (s : State) (k : PulseNo) (i : Instr), 40 < k.toNat → i ∈ [Instr.cntlow k, .cnthigh k] →
    exec i s = .refused .indexAbove40)

/-- R66 (decision D19): the refused accesses of the two primitives: no map; beyond the window; a read of
`SET` or `CLR`; a write of `LEV`; an offset R60 does not define. Which name is given where several apply is
the model's choice (log 29). -/
def Obligations.RegisterAccessRefused : Prop :=
  ∀ (s : State) (w : Nat) (v : Word),
    (s.mapped = false → regRead w s = .error .notMapped ∧ regWrite w v s = .error .notMapped) ∧
    (s.mapped = true → s.params.mapSize < 4 * w + 4 →
      regRead w s = .error .beyondWindow ∧ regWrite w v s = .error .beyondWindow) ∧
    (s.mapped = true → 4 * w + 4 ≤ s.params.mapSize →
      (w = 7 ∨ w = 10 → regRead w s = .error .readOfWriteOnly) ∧
      (w = 13 → regWrite w v s = .error .writeOfReadOnly) ∧
      (w ∈ [6, 8, 9, 11, 12] ∨ 14 ≤ w →
        regRead w s = .error .undefinedOffset ∧ regWrite w v s = .error .undefinedOffset))

/-- R51, R52, R57: a write of a function-select word completes, and a read of any function-select word
after it returns the value written, or the word as it was for another offset. -/
def Obligations.FselReadAfterWrite : Prop :=
  ∀ (s : State) (m n : Nat) (v : Word), Ready s → m < 6 → n < 6 →
    ∃ t : State, regWrite m v s = .ok t ∧
      ∃ u : State, regRead n t = .ok ((if n = m then v else readFsel s n), u) ∧
        u.fsel = t.fsel ∧ u.out = s.out

/-! ### READDATA, the delays, the priority -/

/-- R113, R131: `READDATA` is accepted exactly when no attempt is running, and performs the attempt
start: what it re-initialises, and nothing else (`mapped`, `FSEL`, `out` and `prio` are not touched). In
public use it is the only way out of `Done` and `Failed`: until it is invoked a step changes nothing. -/
def Obligations.ReadDataStartsAttempt : Prop :=
  (∀ s : State,
    (s.running = false → (s.pc = .idle ∨ s.pc = .done ∨ s.pc = .failed) →
      exec .readdata s = .next { s with
        pc := .idle
        upc := 0
        cnt := Vector.replicate 82 0
        wcnt := 0
        dat := Vector.replicate 5 0
        err := .noError
        errPhase := none
        res := none
        running := true }) ∧
    (s.running = true ∨ ¬(s.pc = .idle ∨ s.pc = .done ∨ s.pc = .failed) →
      exec .readdata s = .refused .overlappingAttempt)) ∧
  (∀ s t : State, Inv s → s.running = false → (s.pc = .done ∨ s.pc = .failed) →
    step s = .next t →
    (s.calls = [] ∧ t = s) ∨
    (∃ rest, s.calls = encode .readdata :: rest ∧ t.pc = .idle ∧ t.running = true))

/-- R120, R121, R122: the three delays emit their event with its argument and change no state. -/
def Obligations.DelaysEmitTheirEvent : Prop :=
  encode .settle = 0x5000 ∧
  ∀ (s : State) (ms : Millis),
    (encode (.sleepc ms)).toNat = 0x4000 + ms.toNat ∧
    (encode (.waitp ms)).toNat = 0x4800 + ms.toNat ∧
    exec (.sleepc ms) s = .next { s with trace := s.trace ++ [.sleep ms.toNat] } ∧
    exec (.waitp ms) s = .next { s with trace := s.trace ++ [.busyWait ms.toNat] } ∧
    exec .settle s = .next { s with trace := s.trace ++ [.settle s.params.settleIter] }

/-- R123, R124: `PRIOUP` and `PRIODN` emit their event and set the class; nothing else changes. That they
always succeed is decision D16 (log 18). -/
def Obligations.PriorityOperations : Prop :=
  encode .prioup = 0x5800 ∧ encode .priodn = 0x6000 ∧
  ∀ s : State,
    exec .prioup s = .next { s with prio := .realTime, trace := s.trace ++ [.prioUp] } ∧
    exec .priodn s = .next { s with prio := .default, trace := s.trace ++ [.prioDown] }

/-! ### Polling -/

/-- R125 to R128: the operation, the level and the counter of each polling phase; and the loop, from a
counter that holds `c`. If the next `n` samples are at the level, the one after is not, and the ceiling is
not reached, it makes `n + 1` reads and leaves `c + n` in the counter. If the sample after the `n` is at
the level too and brings the count to the ceiling, it stops at that read, with the count in the counter,
and raises `TimeoutError` with its phase. Nothing else changes, no other counter either. -/
def Obligations.PollingOperation : Prop :=
  (pollInstr .waitResponse = .waitresp ∧ pollLevel .waitResponse = true ∧
    encode .waitresp = 0x6800) ∧
  (∀ i : Fin 41, (encode (pollInstr (.sampleLow i))).toNat = 0x7000 + i.val ∧
    (encode (pollInstr (.sampleHigh i))).toNat = 0x7800 + i.val ∧
    pollInstr (.sampleLow i) = .cntlow (BitVec.ofNat 6 i.val) ∧
    pollLevel (.sampleLow i) = false ∧
    pollInstr (.sampleHigh i) = .cnthigh (BitVec.ofNat 6 i.val) ∧
    pollLevel (.sampleHigh i) = true) ∧
  (∀ (s : State) (v : Count), readCounter s .waitResponse = s.wcnt ∧
    writeCounter s .waitResponse v = { s with wcnt := v }) ∧
  (∀ (s : State) (v : Count) (i : Fin 41) (k : Nat),
    readCounter s (.sampleLow i) = readCnt s (2 * i.val) ∧
    readCounter s (.sampleHigh i) = readCnt s (2 * i.val + 1) ∧
    readCnt (writeCounter s (.sampleLow i) v) k = (if k = 2 * i.val then v else readCnt s k) ∧
    readCnt (writeCounter s (.sampleHigh i) v) k =
      (if k = 2 * i.val + 1 then v else readCnt s k) ∧
    writeCounter s (.sampleLow i) v =
      { s with cnt := (writeCounter s (.sampleLow i) v).cnt } ∧
    writeCounter s (.sampleHigh i) v =
      { s with cnt := (writeCounter s (.sampleHigh i) v).cnt }) ∧
  (∀ (s : State) (ph : PollPhase) (c n : Nat), Ready s → pinLegal s.pin →
    c = (readCounter s ph).toNat → (∀ k, k < n → levelAt s k = pollLevel ph) →
    (n = 0 ∨ c + n < s.params.maxCount) →
    (levelAt s n ≠ pollLevel ph →
      exec (pollInstr ph) s =
        .next (writeCounter (afterReads s (n + 1)) ph (BitVec.ofNat 32 (c + n)))) ∧
    (levelAt s n = pollLevel ph → s.params.maxCount ≤ c + n + 1 →
      exec (pollInstr ph) s = .next (errorState .timeoutError (some ph)
        (writeCounter (afterReads s (n + 1)) ph (BitVec.ofNat 32 (c + n + 1))))))

/-- R125, R126, R127, R128: when the run the operation waits out ends below the ceiling, the operation
counts it: `n` samples at its level, then one that is not, make `n + 1` reads and add `n` to its counter
(`wcnt`, `cnt[2i]` or `cnt[2i+1]`). Nothing else changes. -/
def Obligations.PollsCountTheRun : Prop :=
  ∀ (s : State) (n : Nat), Ready s → pinLegal s.pin →
    ((∀ k, k < n → levelAt s k = true) → levelAt s n = false →
      s.wcnt.toNat + n < s.params.maxCount →
      exec .waitresp s = .next
        { afterReads s (n + 1) with wcnt := BitVec.ofNat 32 (s.wcnt.toNat + n) }) ∧
    (∀ i : Nat, i ≤ 40 → (∀ k, k < n → levelAt s k = false) → levelAt s n = true →
      (readCnt s (2 * i)).toNat + n < s.params.maxCount →
      exec (.cntlow (BitVec.ofNat 6 i)) s = .next
        { afterReads s (n + 1) with
          cnt := s.cnt.setIfInBounds (2 * i)
            (BitVec.ofNat 32 ((readCnt s (2 * i)).toNat + n)) }) ∧
    (∀ i : Nat, i ≤ 40 → (∀ k, k < n → levelAt s k = true) → levelAt s n = false →
      (readCnt s (2 * i + 1)).toNat + n < s.params.maxCount →
      exec (.cnthigh (BitVec.ofNat 6 i)) s = .next
        { afterReads s (n + 1) with
          cnt := s.cnt.setIfInBounds (2 * i + 1)
            (BitVec.ofNat 32 ((readCnt s (2 * i + 1)).toNat + n)) })

/-- R129: in an attempt, a polling slot whose next `MAXCOUNT` samples are all at its level ends the
attempt at that read: `PrioDown`, `Result(None)`, class `Default`, `TimeoutError` with the phase, no
reading, `Failed`; the map and the pin are kept, and the counter holds the ceiling. That the ceiling is
reached at the `MAXCOUNT`-th read is the loop form of R126, decision D6 (log 23). -/
def Obligations.TimeoutAbortsAttempt : Prop :=
  ∀ (s : State) (ph : PollPhase), Inv s → s.running = true → s.upc.val = pollSlot ph →
    (∀ k, k < s.params.maxCount → levelAt s k = pollLevel ph) →
    ∃ t : State, step s = .next t ∧ t.running = false ∧ t.prio = .default ∧
      t.err = .timeoutError ∧ t.errPhase = some ph ∧ t.res = none ∧ t.pc = .failed ∧
      t.upc.val = 96 ∧ t.mapped = true ∧ t.fsel = s.fsel ∧ t.out = s.out ∧
      t.lineReads = s.lineReads + s.params.maxCount ∧
      (readCounter t ph).toNat = s.params.maxCount ∧
      (∀ k, k < 82 → 10 + k ≠ pollSlot ph → readCnt t k = readCnt s k) ∧
      (ph ≠ .waitResponse → t.wcnt = s.wcnt) ∧
      t.trace = s.trace ++
        ((List.range s.params.maxCount).map fun k => Event.busRead 13 (levAt s k)) ++
        [.prioDown, .result none]

/-! ### The decode stage -/

/-- R141: `THRESH` puts the floor of the mean of `cnt[5], cnt[7], ..., cnt[81]` into `thr`, with no
wrap for any counts; nothing else changes. The threshold lies between any bounds of the 39 counts, and
bounds them from above only when all are equal to it: an inference of R141 itself ("floor of a mean").
That the sum is exact for every count, also outside R10, is log 11. -/
def Obligations.ThresholdIsFloorMean : Prop :=
  encode .thresh = 0x8000 ∧
  ∀ s : State, ∃ (t : State) (sum : Nat),
    sum = ((List.range 39).map fun k => (readCnt s (2 * (k + 2) + 1)).toNat).sum ∧
    exec .thresh s = .next t ∧ t = { s with thr := t.thr } ∧ t.thr.toNat = sum / 39 ∧
    39 * t.thr.toNat ≤ sum ∧ sum < 39 * (t.thr.toNat + 1) ∧
    (∀ lo hi : Nat, (∀ k, k < 39 → lo ≤ (readCnt s (2 * (k + 2) + 1)).toNat ∧
      (readCnt s (2 * (k + 2) + 1)).toNat ≤ hi) → lo ≤ t.thr.toNat ∧ t.thr.toNat ≤ hi) ∧
    ((∀ k, k < 39 → (readCnt s (2 * (k + 2) + 1)).toNat ≤ t.thr.toNat) →
      ∀ k, k < 39 → readCnt s (2 * (k + 2) + 1) = t.thr)

/-- R142, R143: `DECBITS` puts the bit of pulse `i` (1 to 40), 1 iff its high-phase count is at least the
threshold, into bit `7 - (i - 1) % 8` of `dat[(i - 1) / 8]`, whatever `dat` held; nothing else changes. The
place (R143) and the independence from `dat` are inferences of the spec from the loop of R142. -/
def Obligations.DecodedBitsLand : Prop :=
  encode .decbits = 0x8800 ∧
  ∀ s : State, ∃ t : State, exec .decbits s = .next t ∧ t = { s with dat := t.dat } ∧
    ∀ i : Nat, 1 ≤ i → i ≤ 40 →
      (readDat t ((i - 1) / 8)).getLsbD (7 - (i - 1) % 8) =
        decide (s.thr.toNat ≤ (readCnt s (2 * i + 1)).toNat)

/-- R144: `CHKSUM` with a valid frame gives the Reading of its first and third bytes and `Done`; with any
other frame it raises `ChecksumError`. Nothing else changes. -/
def Obligations.ChecksumDecides : Prop :=
  encode .chksum = 0x9000 ∧
  ∀ (s : State) (sum : Nat),
    sum = (readDat s 0).toNat + (readDat s 1).toNat + (readDat s 2).toNat + (readDat s 3).toNat →
    ((readDat s 4).toNat = sum % 256 →
      exec .chksum s = .next { s with
        res := some { humidity := f32OfByte (readDat s 0), temperature := f32OfByte (readDat s 2) }
        pc := .done }) ∧
    ((readDat s 4).toNat ≠ sum % 256 →
      exec .chksum s = .next (errorState .checksumError none s))

/-- R147: `f32(n)` is exactly `n` in binary32: the zero pattern for 0; otherwise sign 0, exponent field
`127 + e`, fraction field `(n - 2^e) << (23 - e)` with `2^e <= n < 2^(e+1)`, and
`(2^23 + fraction) * 2^exponent = n * 2^150` (bias 127, 23 fraction bits); the rule's examples. That
the format is binary32 is decision D18, from general knowledge (log 20). -/
def Obligations.ByteToFloatIsExact : Prop :=
  f32OfByte 0 = 0x00000000 ∧
  (∀ b : Byte, b ≠ 0 →
    (f32OfByte b).toNat / 2 ^ 31 = 0 ∧
    (2 ^ 23 + (f32OfByte b).toNat % 2 ^ 23) * 2 ^ ((f32OfByte b).toNat / 2 ^ 23) =
      b.toNat * 2 ^ 150) ∧
  (∀ (b : Byte) (e : Nat), 2 ^ e ≤ b.toNat → b.toNat < 2 ^ (e + 1) →
    (f32OfByte b).toNat / 2 ^ 23 = 127 + e ∧
    (f32OfByte b).toNat % 2 ^ 23 = (b.toNat - 2 ^ e) * 2 ^ (23 - e)) ∧
  f32OfByte 1 = 0x3F800000 ∧ f32OfByte 25 = 0x41C80000 ∧ f32OfByte 44 = 0x42300000 ∧
  f32OfByte 80 = 0x42A00000 ∧ f32OfByte 255 = 0x437F0000

/-- R140: the decode stage of an attempt, slots 93 to 95, as one function of the sample: the threshold,
the 40 bits, the validity of the frame and the result. -/
def Obligations.DecodeStageIsOneFunction : Prop :=
  ∀ s : State, s.running = true → s.upc.val = 93 → s.prio = .default → s.err = .noError →
    ∃ t : State, runSteps 3 s = .next t ∧ t.running = false ∧ t.upc.val = 96 ∧
      t.thr.toNat = ((List.range 39).map fun k => (readCnt s (2 * (k + 2) + 1)).toNat).sum / 39 ∧
      (∀ i : Nat, 1 ≤ i → i ≤ 40 → (readDat t ((i - 1) / 8)).getLsbD (7 - (i - 1) % 8) =
        decide (t.thr.toNat ≤ (readCnt s (2 * i + 1)).toNat)) ∧
      (if (readDat t 4).toNat = ((readDat t 0).toNat + (readDat t 1).toNat + (readDat t 2).toNat +
          (readDat t 3).toNat) % 256
        then t.res = some
            { humidity := f32OfByte (readDat t 0), temperature := f32OfByte (readDat t 2) } ∧
          t.pc = .done ∧ t.err = .noError
        else t.res = none ∧ t.pc = .failed ∧ t.err = .checksumError) ∧
      t.trace = s.trace ++ [.result t.res] ∧ t.lineReads = s.lineReads

/-- R148: the decode stage reads only `cnt[3], cnt[5], ..., cnt[81]`: two attempts at slot 93 that agree
on these end alike, whatever `cnt[0]`, `cnt[1]`, the even entries, `wcnt`, `dat` and `thr` hold. -/
def Obligations.UnusedCountsDoNotMatter : Prop :=
  ∀ s1 s2 t1 t2 : State,
    (s1.running = true ∧ s1.upc.val = 93) → (s2.running = true ∧ s2.upc.val = 93) →
    (∀ i : Nat, 1 ≤ i → i ≤ 40 → readCnt s1 (2 * i + 1) = readCnt s2 (2 * i + 1)) →
    s1.err = s2.err → runSteps 3 s1 = .next t1 → runSteps 3 s2 = .next t2 →
    t1.res = t2.res ∧ t1.err = t2.err ∧ t1.pc = t2.pc ∧ t1.thr = t2.thr ∧
      ∀ j : Nat, j < 5 → readDat t1 j = readDat t2 j

/-- R150 (b): for a two-valued sample with short count `S`, long count `L > S` and `n` long pulses among
pulses 2 to 40, every short pulse decodes as 1 exactly when `n * (L - S) < 39`; otherwise the frame is
decoded as it was sent. -/
def Obligations.TwoValuedSampleDecodes : Prop :=
  ∀ (s t u : State) (d : Vector Byte 5) (short long : Nat), short < long →
    TwoValued s d short long → exec .thresh s = .next t → exec .decbits t = .next u →
    (t.thr.toNat ≤ short ↔ longPulses d * (long - short) < 39) ∧
    (39 ≤ longPulses d * (long - short) → ∀ j : Nat, j < 5 → readDat u j = d[j]?.getD 0) ∧
    (longPulses d * (long - short) < 39 → ∀ j : Nat, j < 5 → readDat u j = 255)

/-- R150 (a): if the 39 counts of pulses 2 to 40 are equal, the threshold equals them, pulses 2 to 40
decode as 1 and the frame fails the checksum, whatever pulse 1 is. -/
def Obligations.EqualCountsFailChecksum : Prop :=
  ∀ (s t u : State) (c : Count), (∀ i : Nat, 2 ≤ i → i ≤ 40 → readCnt s (2 * i + 1) = c) →
    exec .thresh s = .next t → exec .decbits t = .next u →
    t.thr = c ∧ (readDat u 0 = 255 ∨ readDat u 0 = 127) ∧
      (∀ j : Nat, 1 ≤ j → j < 5 → readDat u j = 255) ∧
      exec .chksum u = .next (errorState .checksumError none u)

/-! ### Errors -/

/-- R166: the error entry, written out: the class restored with `PrioDown` only if it was raised, kind
and place recorded, no reading, `Failed`, 96, everything else kept; the attempt then ends with
`Result(None)`. -/
def Obligations.ErrorEntry : Prop :=
  ∀ (e : ErrKind) (place : Option PollPhase) (s : State),
    raiseError e place s = errorState e place s ∧
    afterSlot (raiseError e place s) =
      { errorState e place s with
        trace := s.trace ++ (if s.prio = .realTime then [Event.prioDown] else []) ++ [.result none]
        running := false }

/-- R161: the cause codes; the phase of a timeout is numbered 0 to 82 without repetition. -/
def Obligations.CauseCodes : Prop :=
  errCode .noError = 0 ∧ errCode .deviceOpenError = 1 ∧ errCode .mappingError = 2 ∧
  errCode .timeoutError = 3 ∧ errCode .checksumError = 4 ∧ phaseCode .waitResponse = 0 ∧
  (∀ i : Fin 41, phaseCode (.sampleLow i) = 1 + 2 * i.val ∧
    phaseCode (.sampleHigh i) = 2 + 2 * i.val) ∧
  (∀ a : PollPhase, phaseCode a ≤ 82) ∧
  (∀ a b : PollPhase, phaseCode a = phaseCode b → a = b)

/-! ### Who writes what -/

/-- R21, R24, R25, R26: outside the attempt start, only `CNTLOW i` writes `cnt[2i]`, only `CNTHIGH i`
writes `cnt[2i+1]`, only `WAITRESP` writes `wcnt`, only `THRESH` writes `thr`, only `DECBITS` writes
`dat`. -/
def Obligations.WritersOfEngineRegisters : Prop :=
  ∀ (s t : State) (i : Instr), exec i s = .next t →
    (∀ k : Nat, k < 82 → readCnt t k ≠ readCnt s k →
      i = .readdata ∨ (k % 2 = 0 ∧ i = .cntlow (BitVec.ofNat 6 (k / 2))) ∨
        (k % 2 = 1 ∧ i = .cnthigh (BitVec.ofNat 6 (k / 2)))) ∧
    (t.wcnt ≠ s.wcnt → i = .readdata ∨ i = .waitresp) ∧
    (t.thr ≠ s.thr → i = .thresh) ∧
    (t.dat ≠ s.dat → i = .readdata ∨ i = .decbits)

/-- R67: which operation reaches which word. A function-select word changes only by `SETINPUT` or
`SETOUTPUT` of one of its pins, a latch bit only by `SETHIGH` or `SETLOW` of its pin, and only
`READINPUT` and the polling operations read `LEV`. -/
def Obligations.WritersOfRegisterBlock : Prop :=
  ∀ (s t : State) (i : Instr), exec i s = .next t →
    (∀ n : Nat, readFsel t n ≠ readFsel s n →
      ∃ p : PinNo, p.toNat / 10 = n ∧ (i = .setinput p ∨ i = .setoutput p)) ∧
    (∀ q : PinNo, latch t q ≠ latch s q → i = .sethigh q ∨ i = .setlow q) ∧
    (t.lineReads ≠ s.lineReads →
      (∃ p, i = .readinput p) ∨ i = .waitresp ∨ (∃ k, i = .cntlow k) ∨ (∃ k, i = .cnthigh k))

/-- R101, R102, R103, R104: a step of an attempt leaves the function and the latch of every other pin
alone. -/
def Obligations.AttemptLeavesOtherPinsAlone : Prop :=
  ∀ (s t : State) (q : PinNo), s.running = true → step s = .next t → q ≠ s.pin → pinLegal q →
    pinFunction t q = pinFunction s q ∧ latch t q = latch s q

/-- R31, R28, R13: no step writes `PIN` or the parameters, no step clears `mapped`, and the trace only
grows. -/
def Obligations.ConfigurationAndMapPersist : Prop :=
  ∀ s t : State, step s = .next t →
    t.pin = s.pin ∧ t.params = s.params ∧ (s.mapped = true → t.mapped = true) ∧
      ∃ es : List Event, t.trace = s.trace ++ es

/-! ### The whole machine -/

/-- R21, R22, R24, R29, R30, R115: every step from a state that meets the invariant of a driver instance
in public use gives a state that meets it. -/
def Obligations.StepKeepsInvariant : Prop :=
  ∀ s t : State, Inv s → step s = .next t → Inv t

/-- R66, R61, R160: from a state that meets the invariant every step gives a next state: none of the
refused accesses is ever made, and no illegal or overlapping operation runs. -/
def Obligations.PublicUseNeverStops : Prop :=
  ∀ s : State, Inv s → ∃ t : State, step s = .next t

/-- R130: in public use every `PrioUp` is matched by a `PrioDown`, but for the one in force during the
sampling window. -/
def Obligations.PriorityIsAlwaysRestored : Prop :=
  (∀ s t : State, Inv s → PrioPaired s → step s = .next t → PrioPaired t) ∧
  (∀ s : State, Inv s → s.running = false → s.prio = .default) ∧
  (∀ s : State, PrioPaired s → s.prio = .default →
    s.trace.count .prioUp = s.trace.count .prioDown)

/-- R210: from slot 7 on the pin is an input and from slot 5 on its latch is 0, so after any attempt
that passed slot 0 (success, timeout, checksum failure) the pin is an input with latch 0. -/
def Obligations.PinIsReleasedAfterAttempt : Prop :=
  ∀ s t : State, Inv s → PinInv s → step s = .next t → PinInv t

/-- R110, R112, R133: every attempt ends. From any state of a running attempt at most 96 steps lead to
`Done` or `Failed`, the class restored, the last event the one `Result` of the attempt, which carries a
reading if and only if the phase is `Done`. -/
def Obligations.EveryAttemptEnds : Prop :=
  ∀ s : State, Inv s → s.running = true →
    ∃ (k : Nat) (t : State), k ≤ 96 - s.upc.val ∧ runSteps k s = .next t ∧ t.running = false ∧
      t.upc.val = 96 ∧ (t.pc = .done ∨ t.pc = .failed) ∧ t.prio = .default ∧
      (t.res ≠ none ↔ t.pc = .done) ∧ (t.err = .noError ↔ t.pc = .done) ∧
      ∃ es : List Event, t.trace = s.trace ++ es ++ [.result t.res] ∧
        ∀ o : Option Reading, Event.result o ∉ es

/-- R111, R133: the events of one attempt, in their order: the mapping request if no map was present;
then, if a map is present, the handshake, at most `83 * MAXCOUNT` reads of `LEV` and nothing else, and
`PrioDown`; then `Result`. -/
def Obligations.EventsOfOneAttempt : Prop :=
  ∀ (s : State) (rest : List OpWord), Inv s → s.running = false →
    s.calls = encode .readdata :: rest →
    ∃ (k : Nat) (t : State) (reads : List Word), k ≤ 97 ∧ runSteps k s = .next t ∧
      t.running = false ∧ t.upc.val = 96 ∧ t.calls = rest ∧
      t.trace = s.trace ++
        (if s.mapped = true then []
         else [Event.mapReq, .mapResp (mapperResponse (nextMapper s))]) ++
        (if s.mapped = true ∨ mapperResponse (nextMapper s) = .ok then
          handshakeEvents s.pin (readFsel s (regIndex s.pin)) s.params.settleIter ++
            (reads.map fun v => Event.busRead 13 v) ++ [.prioDown]
         else []) ++ [.result t.res] ∧
      t.lineReads = s.lineReads + reads.length ∧ reads.length ≤ 83 * s.params.maxCount

/-- R132: from the line to the counts. In an attempt at slot 9, a line that shows the runs
`H^a L^b0 H^c0 ... L^b40 H^c40 L^1`, none too long for the ceiling, is sampled without a timeout:
`wcnt = a`, `cnt[2i] = b_i - 1`, `cnt[2i+1] = c_i - 1`, after `a + 1 + sum(b_i + c_i)` reads. The loop form is
decision D6 (log 23), and one step for each of the 83 operations is log 1. -/
def Obligations.RunsBecomeCounts : Prop :=
  ∀ (s : State) (a : Nat) (runs : List (Nat × Nat)), Inv s → s.running = true → s.upc.val = 9 →
    runs.length = 41 → a + 1 ≤ s.params.maxCount →
    (∀ bc ∈ runs, 1 ≤ bc.1 ∧ bc.1 ≤ s.params.maxCount ∧ 1 ≤ bc.2 ∧ bc.2 ≤ s.params.maxCount) →
    (∀ (k : Nat) (l : Bool), (runLevels a runs)[k]? = some l → levelAt s k = l) →
    ∃ t : State, runSteps 83 s = .next t ∧ t.running = true ∧ t.upc.val = 92 ∧
      t.wcnt.toNat = a ∧
      (∀ (i : Nat) (bc : Nat × Nat), runs[i]? = some bc →
        (readCnt t (2 * i)).toNat = bc.1 - 1 ∧ (readCnt t (2 * i + 1)).toNat = bc.2 - 1) ∧
      t.lineReads = s.lineReads + a + 1 + (runs.map fun bc => bc.1 + bc.2).sum

/-- R110, R132, R150: a whole successful read. A caller invokes `READDATA` at rest; the map is present or
is granted; the line shows a preamble pulse and then, for a frame with a valid checksum, high runs of
`long + 1` for a 1 and `short + 1` for a 0, far enough apart for the threshold. After 97 steps the attempt
is `Done`, and its `Result` is the Reading of the frame's first and third bytes. The loop form is decision
D6 (log 23); the 97 steps, one for the acceptance and one for each slot, are log 1 and log 2. -/
def Obligations.ValidFrameIsRead : Prop :=
  ∀ (s : State) (rest : List OpWord) (d : Vector Byte 5) (short long a : Nat)
    (runs : List (Nat × Nat)),
    Inv s → s.running = false → s.calls = encode .readdata :: rest →
    (s.mapped = true ∨ mapperResponse (nextMapper s) = .ok) →
    validFrame d = true → short < long → 39 ≤ longPulses d * (long - short) →
    long + 1 ≤ s.params.maxCount → a + 1 ≤ s.params.maxCount → runs.length = 41 →
    (∀ bc ∈ runs, 1 ≤ bc.1 ∧ bc.1 ≤ s.params.maxCount ∧ 1 ≤ bc.2 ∧ bc.2 ≤ s.params.maxCount) →
    (∀ (i : Nat) (bc : Nat × Nat), 1 ≤ i → runs[i]? = some bc →
      bc.2 = (if frameBit d (i - 1) then long else short) + 1) →
    (∀ (k : Nat) (l : Bool), (runLevels a runs)[k]? = some l → levelAt s k = l) →
    ∃ t : State, runSteps 97 s = .next t ∧ t.running = false ∧ t.pc = .done ∧
      t.prio = .default ∧ (∀ j : Nat, j < 5 → readDat t j = d[j]?.getD 0) ∧
      t.res = some { humidity := f32OfByte (d[0]?.getD 0),
                     temperature := f32OfByte (d[2]?.getD 0) } ∧
      t.trace.getLast? = some (.result t.res)

/-! ### One event at a time -/

/-- R12, R115: the engine's steps of one event make up the step of one operation. Whenever `step` gives a
next state, finitely many event steps from the same state lead to it, events included; whenever `step`
refuses, the first event step refuses for the same reason. The bound on the ceiling is R10's. -/
def Obligations.EventStepsMakeAStep : Prop :=
  (∀ s t : State, s.params.maxCount ≤ 2 ^ 32 - 1 → step s = .next t →
    ∃ k : Nat, 1 ≤ k ∧
      runEvents k { st := s, pending := none } = .ok { st := t, pending := none }) ∧
  (∀ (s : State) (r : Refusal), step s = .refused r →
    eventStep { st := s, pending := none } = .error r)

/-- R12: one step of the engine performs one event of the alphabet (a mapping request and its answer
are one), or none; and a step that begins an operation and performs none is the start of `READDATA`,
`ENSUREMAPPED`, `THRESH`, `DECBITS` or `CHKSUM`, or the engine waits for its caller. -/
def Obligations.OneEventPerStep : Prop :=
  ∀ (x : StepInput) (e e' : Engine) (es : List Event), engineStep x e = .ok (es, e') →
    (es = [] ∨ (∃ ev : Event, es = [ev]) ∨ (∃ r : MapResp, es = [.mapReq, .mapResp r])) ∧
    (es = [] → e.pending = none →
      (∃ i ∈ silentOperations,
        (e.running = true ∧ slotInstr e.pin e.upc.val = some i) ∨
        (e.running = false ∧ ∃ w : OpWord, x.call = some w ∧ decode w = .op i)) ∨
      (e.running = false ∧ x.call = none ∧ e' = e))

/-- R13: the configuration, the mapper service's answer, the line's answer and the caller's word enter a
step as its parameters only. A step of one event from any state of the machine is `engineStep` from the
engine of that state, which holds nothing of the environment, under the input the state has in store. -/
def Obligations.AnswersAreParameters : Prop :=
  (∀ f g : EventState, eventStep f = .ok g →
    ∃ es : List Event, g.st.trace = f.st.trace ++ es ∧
      engineStep (nextInput f.st) f.engine = .ok (es, g.engine)) ∧
  (∀ (f : EventState) (r : Refusal), eventStep f = .error r →
    engineStep (nextInput f.st) f.engine = .error r)

/-- R115: a sub-step of an operation leaves `pc` and `upc` unchanged, and the slot is not left before the
operation is over. -/
def Obligations.SubStepKeepsIndex : Prop :=
  ∀ f g : EventState, eventStep f = .ok g → g.pending ≠ none →
    g.st.pc = f.st.pc ∧ g.st.upc = f.st.upc ∧ g.st.running = f.st.running

/-- R102, R59: between the first and the second write of `SETOUTPUT p` the field of pin `p` is `0b000`:
after two of its four events the pin drives nothing, whatever its function was, and every other bit of the
word is as it was. -/
def Obligations.SetOutputPassesThroughInput : Prop :=
  ∀ (s : State) (p : PinNo) (rest : List OpWord), Ready s → pinLegal p → s.running = false →
    s.calls = encode (.setoutput p) :: rest →
    ∃ t : State, runEvents 2 { st := s, pending := none } =
        .ok { st := t, pending := some (.readAgain p) } ∧
      pinFunction t p = 0b000 ∧ drivenLevel t p = none ∧ t.out = s.out ∧
      (∀ n : Nat, n < bitOffset p ∨ bitOffset p + 3 ≤ n →
        (readFsel t (p.toNat / 10)).getLsbD n = (readFsel s (p.toNat / 10)).getLsbD n) ∧
      t.trace = s.trace ++ [.busRead (p.toNat / 10) (readFsel s (p.toNat / 10)),
        .busWrite (p.toNat / 10) (readFsel t (p.toNat / 10))] ∧
      (runEvents 4 { st := s, pending := none }).map (·.pending) = .ok none

/-- R126: one poll iteration is one read of `LEV` and one test. The other level ends the loop and the read
is not counted; otherwise the count in the counter grows by one and the loop goes on below the ceiling; at
the ceiling, with the priority raised, the error entry is the next step. -/
def Obligations.PollIteration : Prop :=
  ∀ (s : State) (ph : PollPhase), Ready s → pinLegal s.pin →
    (levelAt s 0 ≠ pollLevel ph →
      eventStep { st := s, pending := some (.poll (pollLevel ph) ph) } =
        .ok { st := if s.running then nextSlot (afterReads s 1) else afterReads s 1,
              pending := none }) ∧
    (levelAt s 0 = pollLevel ph → (readCounter s ph).toNat + 1 < s.params.maxCount →
      eventStep { st := s, pending := some (.poll (pollLevel ph) ph) } =
        .ok { st := writeCounter (afterReads s 1) ph
                (BitVec.ofNat 32 ((readCounter s ph).toNat + 1)),
              pending := some (.poll (pollLevel ph) ph) }) ∧
    (levelAt s 0 = pollLevel ph → s.params.maxCount ≤ (readCounter s ph).toNat + 1 →
      s.prio = .realTime →
      eventStep { st := s, pending := some (.poll (pollLevel ph) ph) } =
        .ok { st := writeCounter (afterReads s 1) ph
                (BitVec.ofNat 32 ((readCounter s ph).toNat + 1)),
              pending := some (.errorEntry .timeoutError (some ph)) })
end

