-- ==== Sys2Proof/Laws/State.lean ====
section
/-! SUPPORT. One lemma per field per named state update, for simp: no later proof unfolds an update. -/

namespace Sys2Proof.Machine

/-! ### `emit` -/

@[simp] theorem emit_pin (e : Event) (s : State) : (emit e s).pin = s.pin := rfl
@[simp] theorem emit_pc (e : Event) (s : State) : (emit e s).pc = s.pc := rfl
@[simp] theorem emit_upc (e : Event) (s : State) : (emit e s).upc = s.upc := rfl
@[simp] theorem emit_cnt (e : Event) (s : State) : (emit e s).cnt = s.cnt := rfl
@[simp] theorem emit_wcnt (e : Event) (s : State) : (emit e s).wcnt = s.wcnt := rfl
@[simp] theorem emit_thr (e : Event) (s : State) : (emit e s).thr = s.thr := rfl
@[simp] theorem emit_dat (e : Event) (s : State) : (emit e s).dat = s.dat := rfl
@[simp] theorem emit_res (e : Event) (s : State) : (emit e s).res = s.res := rfl
@[simp] theorem emit_mapped (e : Event) (s : State) : (emit e s).mapped = s.mapped := rfl
@[simp] theorem emit_prio (e : Event) (s : State) : (emit e s).prio = s.prio := rfl
@[simp] theorem emit_err (e : Event) (s : State) : (emit e s).err = s.err := rfl
@[simp] theorem emit_errPhase (e : Event) (s : State) : (emit e s).errPhase = s.errPhase := rfl
@[simp] theorem emit_fsel (e : Event) (s : State) : (emit e s).fsel = s.fsel := rfl
@[simp] theorem emit_out (e : Event) (s : State) : (emit e s).out = s.out := rfl
@[simp] theorem emit_params (e : Event) (s : State) : (emit e s).params = s.params := rfl
@[simp] theorem emit_running (e : Event) (s : State) : (emit e s).running = s.running := rfl
@[simp] theorem emit_calls (e : Event) (s : State) : (emit e s).calls = s.calls := rfl
@[simp] theorem emit_line (e : Event) (s : State) : (emit e s).line = s.line := rfl
@[simp] theorem emit_lineReads (e : Event) (s : State) : (emit e s).lineReads = s.lineReads := rfl
@[simp] theorem emit_mapper (e : Event) (s : State) : (emit e s).mapper = s.mapper := rfl
@[simp] theorem emit_mapReqs (e : Event) (s : State) : (emit e s).mapReqs = s.mapReqs := rfl
@[simp] theorem emit_trace (e : Event) (s : State) : (emit e s).trace = s.trace ++ [e] := rfl
@[simp] theorem emit_readback (e : Event) (s : State) : (emit e s).readback = s.readback := rfl

/-! ### `dropLev` -/

@[simp] theorem dropLev_pin (s : State) : (dropLev s).pin = s.pin := rfl
@[simp] theorem dropLev_pc (s : State) : (dropLev s).pc = s.pc := rfl
@[simp] theorem dropLev_upc (s : State) : (dropLev s).upc = s.upc := rfl
@[simp] theorem dropLev_cnt (s : State) : (dropLev s).cnt = s.cnt := rfl
@[simp] theorem dropLev_wcnt (s : State) : (dropLev s).wcnt = s.wcnt := rfl
@[simp] theorem dropLev_thr (s : State) : (dropLev s).thr = s.thr := rfl
@[simp] theorem dropLev_dat (s : State) : (dropLev s).dat = s.dat := rfl
@[simp] theorem dropLev_res (s : State) : (dropLev s).res = s.res := rfl
@[simp] theorem dropLev_mapped (s : State) : (dropLev s).mapped = s.mapped := rfl
@[simp] theorem dropLev_prio (s : State) : (dropLev s).prio = s.prio := rfl
@[simp] theorem dropLev_err (s : State) : (dropLev s).err = s.err := rfl
@[simp] theorem dropLev_errPhase (s : State) : (dropLev s).errPhase = s.errPhase := rfl
@[simp] theorem dropLev_fsel (s : State) : (dropLev s).fsel = s.fsel := rfl
@[simp] theorem dropLev_out (s : State) : (dropLev s).out = s.out := rfl
@[simp] theorem dropLev_params (s : State) : (dropLev s).params = s.params := rfl
@[simp] theorem dropLev_running (s : State) : (dropLev s).running = s.running := rfl
@[simp] theorem dropLev_calls (s : State) : (dropLev s).calls = s.calls := rfl
@[simp] theorem dropLev_line (s : State) : (dropLev s).line = s.line.tail := rfl
@[simp] theorem dropLev_lineReads (s : State) : (dropLev s).lineReads = s.lineReads + 1 := rfl
@[simp] theorem dropLev_mapper (s : State) : (dropLev s).mapper = s.mapper := rfl
@[simp] theorem dropLev_mapReqs (s : State) : (dropLev s).mapReqs = s.mapReqs := rfl
@[simp] theorem dropLev_trace (s : State) : (dropLev s).trace = s.trace := rfl
@[simp] theorem dropLev_readback (s : State) : (dropLev s).readback = s.readback := rfl

/-! ### `askMapper` -/

@[simp] theorem askMapper_pin (s : State) : (askMapper s).pin = s.pin := rfl
@[simp] theorem askMapper_pc (s : State) : (askMapper s).pc = s.pc := rfl
@[simp] theorem askMapper_upc (s : State) : (askMapper s).upc = s.upc := rfl
@[simp] theorem askMapper_cnt (s : State) : (askMapper s).cnt = s.cnt := rfl
@[simp] theorem askMapper_wcnt (s : State) : (askMapper s).wcnt = s.wcnt := rfl
@[simp] theorem askMapper_thr (s : State) : (askMapper s).thr = s.thr := rfl
@[simp] theorem askMapper_dat (s : State) : (askMapper s).dat = s.dat := rfl
@[simp] theorem askMapper_res (s : State) : (askMapper s).res = s.res := rfl
@[simp] theorem askMapper_mapped (s : State) : (askMapper s).mapped = s.mapped := rfl
@[simp] theorem askMapper_prio (s : State) : (askMapper s).prio = s.prio := rfl
@[simp] theorem askMapper_err (s : State) : (askMapper s).err = s.err := rfl
@[simp] theorem askMapper_errPhase (s : State) : (askMapper s).errPhase = s.errPhase := rfl
@[simp] theorem askMapper_fsel (s : State) : (askMapper s).fsel = s.fsel := rfl
@[simp] theorem askMapper_out (s : State) : (askMapper s).out = s.out := rfl
@[simp] theorem askMapper_params (s : State) : (askMapper s).params = s.params := rfl
@[simp] theorem askMapper_running (s : State) : (askMapper s).running = s.running := rfl
@[simp] theorem askMapper_calls (s : State) : (askMapper s).calls = s.calls := rfl
@[simp] theorem askMapper_line (s : State) : (askMapper s).line = s.line := rfl
@[simp] theorem askMapper_lineReads (s : State) : (askMapper s).lineReads = s.lineReads := rfl
@[simp] theorem askMapper_mapper (s : State) : (askMapper s).mapper = s.mapper.tail := rfl
@[simp] theorem askMapper_mapReqs (s : State) : (askMapper s).mapReqs = s.mapReqs + 1 := rfl
@[simp] theorem askMapper_trace (s : State) : (askMapper s).trace = s.trace ++ [.mapReq] ++ [.mapResp (mapperResponse (nextMapper s))] := rfl
@[simp] theorem askMapper_readback (s : State) : (askMapper s).readback = s.readback := rfl

/-! ### `raisePrio` -/

@[simp] theorem raisePrio_pin (s : State) : (raisePrio s).pin = s.pin := rfl
@[simp] theorem raisePrio_pc (s : State) : (raisePrio s).pc = s.pc := rfl
@[simp] theorem raisePrio_upc (s : State) : (raisePrio s).upc = s.upc := rfl
@[simp] theorem raisePrio_cnt (s : State) : (raisePrio s).cnt = s.cnt := rfl
@[simp] theorem raisePrio_wcnt (s : State) : (raisePrio s).wcnt = s.wcnt := rfl
@[simp] theorem raisePrio_thr (s : State) : (raisePrio s).thr = s.thr := rfl
@[simp] theorem raisePrio_dat (s : State) : (raisePrio s).dat = s.dat := rfl
@[simp] theorem raisePrio_res (s : State) : (raisePrio s).res = s.res := rfl
@[simp] theorem raisePrio_mapped (s : State) : (raisePrio s).mapped = s.mapped := rfl
@[simp] theorem raisePrio_prio (s : State) : (raisePrio s).prio = .realTime := rfl
@[simp] theorem raisePrio_err (s : State) : (raisePrio s).err = s.err := rfl
@[simp] theorem raisePrio_errPhase (s : State) : (raisePrio s).errPhase = s.errPhase := rfl
@[simp] theorem raisePrio_fsel (s : State) : (raisePrio s).fsel = s.fsel := rfl
@[simp] theorem raisePrio_out (s : State) : (raisePrio s).out = s.out := rfl
@[simp] theorem raisePrio_params (s : State) : (raisePrio s).params = s.params := rfl
@[simp] theorem raisePrio_running (s : State) : (raisePrio s).running = s.running := rfl
@[simp] theorem raisePrio_calls (s : State) : (raisePrio s).calls = s.calls := rfl
@[simp] theorem raisePrio_line (s : State) : (raisePrio s).line = s.line := rfl
@[simp] theorem raisePrio_lineReads (s : State) : (raisePrio s).lineReads = s.lineReads := rfl
@[simp] theorem raisePrio_mapper (s : State) : (raisePrio s).mapper = s.mapper := rfl
@[simp] theorem raisePrio_mapReqs (s : State) : (raisePrio s).mapReqs = s.mapReqs := rfl
@[simp] theorem raisePrio_trace (s : State) : (raisePrio s).trace = s.trace ++ [.prioUp] := rfl
@[simp] theorem raisePrio_readback (s : State) : (raisePrio s).readback = s.readback := rfl

/-! ### `lowerPrio` -/

@[simp] theorem lowerPrio_pin (s : State) : (lowerPrio s).pin = s.pin := rfl
@[simp] theorem lowerPrio_pc (s : State) : (lowerPrio s).pc = s.pc := rfl
@[simp] theorem lowerPrio_upc (s : State) : (lowerPrio s).upc = s.upc := rfl
@[simp] theorem lowerPrio_cnt (s : State) : (lowerPrio s).cnt = s.cnt := rfl
@[simp] theorem lowerPrio_wcnt (s : State) : (lowerPrio s).wcnt = s.wcnt := rfl
@[simp] theorem lowerPrio_thr (s : State) : (lowerPrio s).thr = s.thr := rfl
@[simp] theorem lowerPrio_dat (s : State) : (lowerPrio s).dat = s.dat := rfl
@[simp] theorem lowerPrio_res (s : State) : (lowerPrio s).res = s.res := rfl
@[simp] theorem lowerPrio_mapped (s : State) : (lowerPrio s).mapped = s.mapped := rfl
@[simp] theorem lowerPrio_prio (s : State) : (lowerPrio s).prio = .default := rfl
@[simp] theorem lowerPrio_err (s : State) : (lowerPrio s).err = s.err := rfl
@[simp] theorem lowerPrio_errPhase (s : State) : (lowerPrio s).errPhase = s.errPhase := rfl
@[simp] theorem lowerPrio_fsel (s : State) : (lowerPrio s).fsel = s.fsel := rfl
@[simp] theorem lowerPrio_out (s : State) : (lowerPrio s).out = s.out := rfl
@[simp] theorem lowerPrio_params (s : State) : (lowerPrio s).params = s.params := rfl
@[simp] theorem lowerPrio_running (s : State) : (lowerPrio s).running = s.running := rfl
@[simp] theorem lowerPrio_calls (s : State) : (lowerPrio s).calls = s.calls := rfl
@[simp] theorem lowerPrio_line (s : State) : (lowerPrio s).line = s.line := rfl
@[simp] theorem lowerPrio_lineReads (s : State) : (lowerPrio s).lineReads = s.lineReads := rfl
@[simp] theorem lowerPrio_mapper (s : State) : (lowerPrio s).mapper = s.mapper := rfl
@[simp] theorem lowerPrio_mapReqs (s : State) : (lowerPrio s).mapReqs = s.mapReqs := rfl
@[simp] theorem lowerPrio_trace (s : State) : (lowerPrio s).trace = s.trace ++ [.prioDown] := rfl
@[simp] theorem lowerPrio_readback (s : State) : (lowerPrio s).readback = s.readback := rfl

/-! ### `writeCnt` -/

@[simp] theorem writeCnt_pin (s : State) (k : Nat) (v : Count) : (writeCnt s k v).pin = s.pin := rfl
@[simp] theorem writeCnt_pc (s : State) (k : Nat) (v : Count) : (writeCnt s k v).pc = s.pc := rfl
@[simp] theorem writeCnt_upc (s : State) (k : Nat) (v : Count) : (writeCnt s k v).upc = s.upc := rfl
@[simp] theorem writeCnt_cnt (s : State) (k : Nat) (v : Count) : (writeCnt s k v).cnt = s.cnt.setIfInBounds k v := rfl
@[simp] theorem writeCnt_wcnt (s : State) (k : Nat) (v : Count) : (writeCnt s k v).wcnt = s.wcnt := rfl
@[simp] theorem writeCnt_thr (s : State) (k : Nat) (v : Count) : (writeCnt s k v).thr = s.thr := rfl
@[simp] theorem writeCnt_dat (s : State) (k : Nat) (v : Count) : (writeCnt s k v).dat = s.dat := rfl
@[simp] theorem writeCnt_res (s : State) (k : Nat) (v : Count) : (writeCnt s k v).res = s.res := rfl
@[simp] theorem writeCnt_mapped (s : State) (k : Nat) (v : Count) : (writeCnt s k v).mapped = s.mapped := rfl
@[simp] theorem writeCnt_prio (s : State) (k : Nat) (v : Count) : (writeCnt s k v).prio = s.prio := rfl
@[simp] theorem writeCnt_err (s : State) (k : Nat) (v : Count) : (writeCnt s k v).err = s.err := rfl
@[simp] theorem writeCnt_errPhase (s : State) (k : Nat) (v : Count) : (writeCnt s k v).errPhase = s.errPhase := rfl
@[simp] theorem writeCnt_fsel (s : State) (k : Nat) (v : Count) : (writeCnt s k v).fsel = s.fsel := rfl
@[simp] theorem writeCnt_out (s : State) (k : Nat) (v : Count) : (writeCnt s k v).out = s.out := rfl
@[simp] theorem writeCnt_params (s : State) (k : Nat) (v : Count) : (writeCnt s k v).params = s.params := rfl
@[simp] theorem writeCnt_running (s : State) (k : Nat) (v : Count) : (writeCnt s k v).running = s.running := rfl
@[simp] theorem writeCnt_calls (s : State) (k : Nat) (v : Count) : (writeCnt s k v).calls = s.calls := rfl
@[simp] theorem writeCnt_line (s : State) (k : Nat) (v : Count) : (writeCnt s k v).line = s.line := rfl
@[simp] theorem writeCnt_lineReads (s : State) (k : Nat) (v : Count) : (writeCnt s k v).lineReads = s.lineReads := rfl
@[simp] theorem writeCnt_mapper (s : State) (k : Nat) (v : Count) : (writeCnt s k v).mapper = s.mapper := rfl
@[simp] theorem writeCnt_mapReqs (s : State) (k : Nat) (v : Count) : (writeCnt s k v).mapReqs = s.mapReqs := rfl
@[simp] theorem writeCnt_trace (s : State) (k : Nat) (v : Count) : (writeCnt s k v).trace = s.trace := rfl
@[simp] theorem writeCnt_readback (s : State) (k : Nat) (v : Count) : (writeCnt s k v).readback = s.readback := rfl

/-! ### `attemptStart` -/

@[simp] theorem attemptStart_pin (s : State) : (attemptStart s).pin = s.pin := rfl
@[simp] theorem attemptStart_pc (s : State) : (attemptStart s).pc = .idle := rfl
@[simp] theorem attemptStart_upc (s : State) : (attemptStart s).upc = 0 := rfl
@[simp] theorem attemptStart_cnt (s : State) : (attemptStart s).cnt = Vector.replicate 82 0 := rfl
@[simp] theorem attemptStart_wcnt (s : State) : (attemptStart s).wcnt = 0 := rfl
@[simp] theorem attemptStart_thr (s : State) : (attemptStart s).thr = s.thr := rfl
@[simp] theorem attemptStart_dat (s : State) : (attemptStart s).dat = Vector.replicate 5 0 := rfl
@[simp] theorem attemptStart_res (s : State) : (attemptStart s).res = none := rfl
@[simp] theorem attemptStart_mapped (s : State) : (attemptStart s).mapped = s.mapped := rfl
@[simp] theorem attemptStart_prio (s : State) : (attemptStart s).prio = s.prio := rfl
@[simp] theorem attemptStart_err (s : State) : (attemptStart s).err = .noError := rfl
@[simp] theorem attemptStart_errPhase (s : State) : (attemptStart s).errPhase = none := rfl
@[simp] theorem attemptStart_fsel (s : State) : (attemptStart s).fsel = s.fsel := rfl
@[simp] theorem attemptStart_out (s : State) : (attemptStart s).out = s.out := rfl
@[simp] theorem attemptStart_params (s : State) : (attemptStart s).params = s.params := rfl
@[simp] theorem attemptStart_running (s : State) : (attemptStart s).running = true := rfl
@[simp] theorem attemptStart_calls (s : State) : (attemptStart s).calls = s.calls := rfl
@[simp] theorem attemptStart_line (s : State) : (attemptStart s).line = s.line := rfl
@[simp] theorem attemptStart_lineReads (s : State) : (attemptStart s).lineReads = s.lineReads := rfl
@[simp] theorem attemptStart_mapper (s : State) : (attemptStart s).mapper = s.mapper := rfl
@[simp] theorem attemptStart_mapReqs (s : State) : (attemptStart s).mapReqs = s.mapReqs := rfl
@[simp] theorem attemptStart_trace (s : State) : (attemptStart s).trace = s.trace := rfl
@[simp] theorem attemptStart_readback (s : State) : (attemptStart s).readback = s.readback := rfl

/-! ### `attemptEnd` -/

@[simp] theorem attemptEnd_pin (s : State) : (attemptEnd s).pin = s.pin := rfl
@[simp] theorem attemptEnd_pc (s : State) : (attemptEnd s).pc = s.pc := rfl
@[simp] theorem attemptEnd_upc (s : State) : (attemptEnd s).upc = s.upc := rfl
@[simp] theorem attemptEnd_cnt (s : State) : (attemptEnd s).cnt = s.cnt := rfl
@[simp] theorem attemptEnd_wcnt (s : State) : (attemptEnd s).wcnt = s.wcnt := rfl
@[simp] theorem attemptEnd_thr (s : State) : (attemptEnd s).thr = s.thr := rfl
@[simp] theorem attemptEnd_dat (s : State) : (attemptEnd s).dat = s.dat := rfl
@[simp] theorem attemptEnd_res (s : State) : (attemptEnd s).res = s.res := rfl
@[simp] theorem attemptEnd_mapped (s : State) : (attemptEnd s).mapped = s.mapped := rfl
@[simp] theorem attemptEnd_prio (s : State) : (attemptEnd s).prio = s.prio := rfl
@[simp] theorem attemptEnd_err (s : State) : (attemptEnd s).err = s.err := rfl
@[simp] theorem attemptEnd_errPhase (s : State) : (attemptEnd s).errPhase = s.errPhase := rfl
@[simp] theorem attemptEnd_fsel (s : State) : (attemptEnd s).fsel = s.fsel := rfl
@[simp] theorem attemptEnd_out (s : State) : (attemptEnd s).out = s.out := rfl
@[simp] theorem attemptEnd_params (s : State) : (attemptEnd s).params = s.params := rfl
@[simp] theorem attemptEnd_running (s : State) : (attemptEnd s).running = false := rfl
@[simp] theorem attemptEnd_calls (s : State) : (attemptEnd s).calls = s.calls := rfl
@[simp] theorem attemptEnd_line (s : State) : (attemptEnd s).line = s.line := rfl
@[simp] theorem attemptEnd_lineReads (s : State) : (attemptEnd s).lineReads = s.lineReads := rfl
@[simp] theorem attemptEnd_mapper (s : State) : (attemptEnd s).mapper = s.mapper := rfl
@[simp] theorem attemptEnd_mapReqs (s : State) : (attemptEnd s).mapReqs = s.mapReqs := rfl
@[simp] theorem attemptEnd_trace (s : State) : (attemptEnd s).trace = s.trace ++ [.result s.res] := rfl
@[simp] theorem attemptEnd_readback (s : State) : (attemptEnd s).readback = s.readback := rfl

/-! ### `raiseError` (R166) -/

@[simp] theorem raiseError_pin (e : ErrKind) (i : Option PollPhase) (s : State) :
    (raiseError e i s).pin = s.pin := by
  unfold raiseError; cases h : s.prio <;> simp_all
@[simp] theorem raiseError_pc (e : ErrKind) (i : Option PollPhase) (s : State) :
    (raiseError e i s).pc = .failed := rfl
@[simp] theorem raiseError_upc (e : ErrKind) (i : Option PollPhase) (s : State) :
    (raiseError e i s).upc = 96 := rfl
@[simp] theorem raiseError_cnt (e : ErrKind) (i : Option PollPhase) (s : State) :
    (raiseError e i s).cnt = s.cnt := by
  unfold raiseError; cases h : s.prio <;> simp_all
@[simp] theorem raiseError_wcnt (e : ErrKind) (i : Option PollPhase) (s : State) :
    (raiseError e i s).wcnt = s.wcnt := by
  unfold raiseError; cases h : s.prio <;> simp_all
@[simp] theorem raiseError_thr (e : ErrKind) (i : Option PollPhase) (s : State) :
    (raiseError e i s).thr = s.thr := by
  unfold raiseError; cases h : s.prio <;> simp_all
@[simp] theorem raiseError_dat (e : ErrKind) (i : Option PollPhase) (s : State) :
    (raiseError e i s).dat = s.dat := by
  unfold raiseError; cases h : s.prio <;> simp_all
@[simp] theorem raiseError_res (e : ErrKind) (i : Option PollPhase) (s : State) :
    (raiseError e i s).res = none := rfl
@[simp] theorem raiseError_mapped (e : ErrKind) (i : Option PollPhase) (s : State) :
    (raiseError e i s).mapped = s.mapped := by
  unfold raiseError; cases h : s.prio <;> simp_all
@[simp] theorem raiseError_prio (e : ErrKind) (i : Option PollPhase) (s : State) :
    (raiseError e i s).prio = .default := by
  unfold raiseError; cases h : s.prio <;> simp_all
@[simp] theorem raiseError_err (e : ErrKind) (i : Option PollPhase) (s : State) :
    (raiseError e i s).err = e := rfl
@[simp] theorem raiseError_errPhase (e : ErrKind) (i : Option PollPhase) (s : State) :
    (raiseError e i s).errPhase = i := rfl
@[simp] theorem raiseError_fsel (e : ErrKind) (i : Option PollPhase) (s : State) :
    (raiseError e i s).fsel = s.fsel := by
  unfold raiseError; cases h : s.prio <;> simp_all
@[simp] theorem raiseError_out (e : ErrKind) (i : Option PollPhase) (s : State) :
    (raiseError e i s).out = s.out := by
  unfold raiseError; cases h : s.prio <;> simp_all
@[simp] theorem raiseError_params (e : ErrKind) (i : Option PollPhase) (s : State) :
    (raiseError e i s).params = s.params := by
  unfold raiseError; cases h : s.prio <;> simp_all
@[simp] theorem raiseError_running (e : ErrKind) (i : Option PollPhase) (s : State) :
    (raiseError e i s).running = s.running := by
  unfold raiseError; cases h : s.prio <;> simp_all
@[simp] theorem raiseError_calls (e : ErrKind) (i : Option PollPhase) (s : State) :
    (raiseError e i s).calls = s.calls := by
  unfold raiseError; cases h : s.prio <;> simp_all
@[simp] theorem raiseError_line (e : ErrKind) (i : Option PollPhase) (s : State) :
    (raiseError e i s).line = s.line := by
  unfold raiseError; cases h : s.prio <;> simp_all
@[simp] theorem raiseError_lineReads (e : ErrKind) (i : Option PollPhase) (s : State) :
    (raiseError e i s).lineReads = s.lineReads := by
  unfold raiseError; cases h : s.prio <;> simp_all
@[simp] theorem raiseError_mapper (e : ErrKind) (i : Option PollPhase) (s : State) :
    (raiseError e i s).mapper = s.mapper := by
  unfold raiseError; cases h : s.prio <;> simp_all
@[simp] theorem raiseError_mapReqs (e : ErrKind) (i : Option PollPhase) (s : State) :
    (raiseError e i s).mapReqs = s.mapReqs := by
  unfold raiseError; cases h : s.prio <;> simp_all
@[simp] theorem raiseError_trace (e : ErrKind) (i : Option PollPhase) (s : State) :
    (raiseError e i s).trace = if s.prio = .realTime then s.trace ++ [.prioDown] else s.trace := by
  unfold raiseError; cases h : s.prio <;> simp_all
@[simp] theorem raiseError_readback (e : ErrKind) (i : Option PollPhase) (s : State) :
    (raiseError e i s).readback = s.readback := by
  unfold raiseError; cases h : s.prio <;> simp_all

/-! ### `writeCounter` (R125, R127, R128): only the counter of the phase -/

@[simp] theorem writeCounter_pin (s : State) (ph : PollPhase) (v : Count) :
    (writeCounter s ph v).pin = s.pin := by cases ph <;> rfl
@[simp] theorem writeCounter_pc (s : State) (ph : PollPhase) (v : Count) :
    (writeCounter s ph v).pc = s.pc := by cases ph <;> rfl
@[simp] theorem writeCounter_upc (s : State) (ph : PollPhase) (v : Count) :
    (writeCounter s ph v).upc = s.upc := by cases ph <;> rfl
@[simp] theorem writeCounter_thr (s : State) (ph : PollPhase) (v : Count) :
    (writeCounter s ph v).thr = s.thr := by cases ph <;> rfl
@[simp] theorem writeCounter_dat (s : State) (ph : PollPhase) (v : Count) :
    (writeCounter s ph v).dat = s.dat := by cases ph <;> rfl
@[simp] theorem writeCounter_res (s : State) (ph : PollPhase) (v : Count) :
    (writeCounter s ph v).res = s.res := by cases ph <;> rfl
@[simp] theorem writeCounter_mapped (s : State) (ph : PollPhase) (v : Count) :
    (writeCounter s ph v).mapped = s.mapped := by cases ph <;> rfl
@[simp] theorem writeCounter_prio (s : State) (ph : PollPhase) (v : Count) :
    (writeCounter s ph v).prio = s.prio := by cases ph <;> rfl
@[simp] theorem writeCounter_err (s : State) (ph : PollPhase) (v : Count) :
    (writeCounter s ph v).err = s.err := by cases ph <;> rfl
@[simp] theorem writeCounter_errPhase (s : State) (ph : PollPhase) (v : Count) :
    (writeCounter s ph v).errPhase = s.errPhase := by cases ph <;> rfl
@[simp] theorem writeCounter_fsel (s : State) (ph : PollPhase) (v : Count) :
    (writeCounter s ph v).fsel = s.fsel := by cases ph <;> rfl
@[simp] theorem writeCounter_out (s : State) (ph : PollPhase) (v : Count) :
    (writeCounter s ph v).out = s.out := by cases ph <;> rfl
@[simp] theorem writeCounter_params (s : State) (ph : PollPhase) (v : Count) :
    (writeCounter s ph v).params = s.params := by cases ph <;> rfl
@[simp] theorem writeCounter_running (s : State) (ph : PollPhase) (v : Count) :
    (writeCounter s ph v).running = s.running := by cases ph <;> rfl
@[simp] theorem writeCounter_calls (s : State) (ph : PollPhase) (v : Count) :
    (writeCounter s ph v).calls = s.calls := by cases ph <;> rfl
@[simp] theorem writeCounter_line (s : State) (ph : PollPhase) (v : Count) :
    (writeCounter s ph v).line = s.line := by cases ph <;> rfl
@[simp] theorem writeCounter_lineReads (s : State) (ph : PollPhase) (v : Count) :
    (writeCounter s ph v).lineReads = s.lineReads := by cases ph <;> rfl
@[simp] theorem writeCounter_mapper (s : State) (ph : PollPhase) (v : Count) :
    (writeCounter s ph v).mapper = s.mapper := by cases ph <;> rfl
@[simp] theorem writeCounter_mapReqs (s : State) (ph : PollPhase) (v : Count) :
    (writeCounter s ph v).mapReqs = s.mapReqs := by cases ph <;> rfl
@[simp] theorem writeCounter_trace (s : State) (ph : PollPhase) (v : Count) :
    (writeCounter s ph v).trace = s.trace := by cases ph <;> rfl
@[simp] theorem writeCounter_readback (s : State) (ph : PollPhase) (v : Count) :
    (writeCounter s ph v).readback = s.readback := by cases ph <;> rfl

end Sys2Proof.Machine
end

