-- ==== Sys2Proof/Laws/Memory.lean ====
section
/-! SUPPORT. What the register accesses and the Pin Controller operations can do (spec 20_memory.md R51,
R52, R66; 41_pin_controller.md). One lemma for what an access answers when it may happen, one for
everything it can have done when it answered. -/

namespace Sys2Proof.Machine

open Sys2Proof.Safety

/-! ### Pins -/

theorem regIndex_lt_six {p : PinNo} (h : pinLegal p) : regIndex p < 6 := by
  unfold regIndex fselPerWord
  omega

theorem test_pinBit {p : PinNo} (h : pinLegal p) (v : Word) :
    decide (v &&& pinBit p ≠ 0) = v.getLsbD p.toNat := by
  have hp : p.toNat < 32 := by unfold pinLegal at h; omega
  have hb : pinBit p = BitVec.twoPow 32 p.toNat := rfl
  have hne : BitVec.twoPow 32 p.toNat ≠ 0 := by
    intro h0
    have h1 := congrArg (fun x : Word => x.getLsbD p.toNat) h0
    simp [hp] at h1
  rw [hb, BitVec.and_twoPow]
  cases hv : v.getLsbD p.toNat
  · simp
  · simpa using hne

/-! ### Accesses that may happen -/

theorem accessRefusal_of_ready {s : State} (h : Ready s) {w : Nat} (hw : w ≤ levOff) :
    accessRefusal w s = none := by
  obtain ⟨hm, hs⟩ := h
  unfold accessRefusal
  rw [if_neg (by simp [hm]), if_neg (by simp only [levOff] at *; omega)]

theorem regRead_fsel {s : State} (h : Ready s) {w : Nat} (hw : w < 6) :
    regRead w s = .ok (readFsel s w, emit (.busRead w (readFsel s w)) s) := by
  unfold regRead
  rw [accessRefusal_of_ready h (by simp only [levOff]; omega)]
  simp [hw]

theorem regRead_lev {s : State} (h : Ready s) :
    regRead levOff s = .ok (nextLev s, emit (.busRead levOff (nextLev s)) (dropLev s)) := by
  unfold regRead
  rw [accessRefusal_of_ready h (by simp [levOff])]
  simp [levOff]

theorem regWrite_fsel {s : State} (h : Ready s) {w : Nat} (hw : w < 6) (v : Word) :
    regWrite w v s = .ok (emit (.busWrite w v) { s with fsel := s.fsel.setIfInBounds w v }) := by
  unfold regWrite
  rw [accessRefusal_of_ready h (by simp only [levOff]; omega)]
  simp [hw]

theorem regWrite_set {s : State} (h : Ready s) (v : Word) :
    regWrite setOff v s = .ok (emit (.busWrite setOff v) { s with out := s.out ||| v }) := by
  unfold regWrite
  rw [accessRefusal_of_ready h (by simp [levOff, setOff])]
  simp [setOff]

theorem regWrite_clr {s : State} (h : Ready s) (v : Word) :
    regWrite clrOff v s = .ok (emit (.busWrite clrOff v) { s with out := s.out &&& ~~~v }) := by
  unfold regWrite
  rw [accessRefusal_of_ready h (by simp [levOff, clrOff])]
  simp [setOff, clrOff]

/-! ### What an access can have done -/

theorem accessRefusal_none {w : Nat} {s : State} (h : accessRefusal w s = none) :
    s.mapped = true ∧ 4 * w + 4 ≤ s.params.mapSize := by
  unfold accessRefusal at h
  split at h
  · cases h
  · split at h
    · cases h
    · constructor
      · simp_all
      · omega

theorem regRead_cases {w : Nat} {s t : State} {v : Word} (h : regRead w s = .ok (v, t)) :
    s.mapped = true ∧
    ((w < 6 ∧ v = readFsel s w ∧ t = emit (.busRead w v) s) ∨
     (w = levOff ∧ v = nextLev s ∧ t = emit (.busRead w v) (dropLev s))) := by
  unfold regRead at h
  split at h
  · cases h
  · rename_i hn
    refine ⟨(accessRefusal_none hn).1, ?_⟩
    split at h
    · rename_i hw
      cases h
      exact .inl ⟨hw, rfl, rfl⟩
    · split at h
      · rename_i hw
        cases h
        exact .inr ⟨hw, rfl, rfl⟩
      · split at h <;> cases h

theorem regWrite_cases {w : Nat} {v : Word} {s t : State} (h : regWrite w v s = .ok t) :
    s.mapped = true ∧
    ((w < 6 ∧ t = emit (.busWrite w v) { s with fsel := s.fsel.setIfInBounds w v }) ∨
     (w = setOff ∧ t = emit (.busWrite w v) { s with out := s.out ||| v }) ∨
     (w = clrOff ∧ t = emit (.busWrite w v) { s with out := s.out &&& ~~~v })) := by
  unfold regWrite at h
  split at h
  · cases h
  · rename_i hn
    refine ⟨(accessRefusal_none hn).1, ?_⟩
    split at h
    · rename_i hw
      cases h
      exact .inl ⟨hw, rfl⟩
    · split at h
      · rename_i hw
        cases h
        exact .inr (.inl ⟨hw, rfl⟩)
      · split at h
        · rename_i hw
          cases h
          exact .inr (.inr ⟨hw, rfl⟩)
        · split at h <;> cases h

/-! ### Function-select words -/

theorem readFsel_set {s : State} {n m : Nat} (hm : m < 6) (v : Word) :
    readFsel { s with fsel := s.fsel.setIfInBounds m v } n = if n = m then v else readFsel s n := by
  unfold readFsel
  by_cases h : n = m
  · subst h
    simp [hm]
  · have h' : m ≠ n := fun e => h e.symm
    simp [h, h']

/-! ### The Pin Controller -/

/-- The state after a read-modify-write of the function-select word of pin `p` (R101, R102). -/
def afterModify (s : State) (p : PinNo) (f : Word → Word) : State :=
  { s with
    fsel := s.fsel.setIfInBounds (regIndex p) (f (readFsel s (regIndex p)))
    trace := s.trace ++ [.busRead (regIndex p) (readFsel s (regIndex p))] ++
      [.busWrite (regIndex p) (f (readFsel s (regIndex p)))] }

theorem modifyFsel_ready {s : State} (h : Ready s) {p : PinNo} (hp : pinLegal p) (f : Word → Word) :
    modifyFsel p f s = .ok (afterModify s p f) := by
  unfold modifyFsel
  rw [regRead_fsel h (regIndex_lt_six hp)]
  have h' : Ready (emit (.busRead (regIndex p) (readFsel s (regIndex p))) s) := h
  exact regWrite_fsel h' (regIndex_lt_six hp) _

theorem pinOp_ready {α : Type} {s : State} (h : Ready s) {p : PinNo} (hp : pinLegal p) (r : Access α) :
    pinOp p s r = r := by
  unfold pinOp
  rw [if_neg (by simp [h.1]), if_pos hp]

theorem pinOp_ok {α : Type} {s : State} {p : PinNo} {r : Access α} {x : α}
    (h : pinOp p s r = .ok x) : s.mapped = true ∧ pinLegal p ∧ r = .ok x := by
  unfold pinOp at h
  split at h
  · cases h
  · split at h
    · rename_i h1 h2
      exact ⟨by simpa using h1, h2, h⟩
    · cases h

theorem setInput_ready {s : State} (h : Ready s) {p : PinNo} (hp : pinLegal p) :
    setInput p s = .ok (afterModify s p fun v => v &&& ~~~fselMask p) := by
  unfold setInput
  rw [pinOp_ready h hp, modifyFsel_ready h hp]

theorem setOutput_ready {s : State} (h : Ready s) {p : PinNo} (hp : pinLegal p) :
    setOutput p s = .ok (afterModify (afterModify s p fun v => v &&& ~~~fselMask p) p
      fun v => v ||| fselOut p) := by
  unfold setOutput
  rw [setInput_ready h hp]
  exact modifyFsel_ready (s := afterModify s p _) h hp _

theorem readInput_ready {s : State} (h : Ready s) {p : PinNo} (hp : pinLegal p) :
    readInput p s = .ok ((nextLev s).getLsbD p.toNat,
      emit (.busRead levOff (nextLev s)) (dropLev s)) := by
  unfold readInput
  rw [pinOp_ready h hp, regRead_lev h]
  simp only [test_pinBit hp]

theorem modifyFsel_cases {s t : State} {p : PinNo} (hp : pinLegal p) {f : Word → Word}
    (h : modifyFsel p f s = .ok t) : s.mapped = true ∧ t = afterModify s p f := by
  have h6 := regIndex_lt_six hp
  unfold modifyFsel at h
  split at h
  · cases h
  · rename_i v s1 hr
    obtain ⟨hm, ⟨-, rfl, rfl⟩ | ⟨hw, -, -⟩⟩ := regRead_cases hr
    · obtain ⟨-, ⟨-, rfl⟩ | ⟨hw, -⟩ | ⟨hw, -⟩⟩ := regWrite_cases h
      · exact ⟨hm, rfl⟩
      · simp only [setOff] at hw; omega
      · simp only [clrOff] at hw; omega
    · simp only [levOff] at hw; omega

theorem setInput_cases {s t : State} {p : PinNo} (h : setInput p s = .ok t) :
    s.mapped = true ∧ pinLegal p ∧ t = afterModify s p fun v => v &&& ~~~fselMask p := by
  obtain ⟨hm, hp, h⟩ := pinOp_ok h
  exact ⟨hm, hp, (modifyFsel_cases hp h).2⟩

theorem setOutput_cases {s t : State} {p : PinNo} (h : setOutput p s = .ok t) :
    s.mapped = true ∧ pinLegal p ∧
      t = afterModify (afterModify s p fun v => v &&& ~~~fselMask p) p fun v => v ||| fselOut p := by
  unfold setOutput at h
  split at h
  · cases h
  · rename_i s1 hs
    obtain ⟨hm, hp, rfl⟩ := setInput_cases hs
    exact ⟨hm, hp, (modifyFsel_cases hp h).2⟩

theorem readInput_cases {s t : State} {p : PinNo} {b : Bool} (h : readInput p s = .ok (b, t)) :
    s.mapped = true ∧ pinLegal p ∧ b = (nextLev s).getLsbD p.toNat ∧
      t = emit (.busRead levOff (nextLev s)) (dropLev s) := by
  obtain ⟨hm, hp, h⟩ := pinOp_ok h
  split at h
  · cases h
  · rename_i v s1 hr
    obtain ⟨-, ⟨hw, -, -⟩ | ⟨-, rfl, rfl⟩⟩ := regRead_cases hr
    · simp only [levOff] at hw; omega
    · cases h
      exact ⟨hm, hp, test_pinBit hp _, rfl⟩

/-! ### `afterModify`: the function-select words and the trace only -/

@[simp] theorem afterModify_pin (s : State) (p : PinNo) (f : Word → Word) :
    (afterModify s p f).pin = s.pin := rfl
@[simp] theorem afterModify_pc (s : State) (p : PinNo) (f : Word → Word) :
    (afterModify s p f).pc = s.pc := rfl
@[simp] theorem afterModify_upc (s : State) (p : PinNo) (f : Word → Word) :
    (afterModify s p f).upc = s.upc := rfl
@[simp] theorem afterModify_cnt (s : State) (p : PinNo) (f : Word → Word) :
    (afterModify s p f).cnt = s.cnt := rfl
@[simp] theorem afterModify_wcnt (s : State) (p : PinNo) (f : Word → Word) :
    (afterModify s p f).wcnt = s.wcnt := rfl
@[simp] theorem afterModify_thr (s : State) (p : PinNo) (f : Word → Word) :
    (afterModify s p f).thr = s.thr := rfl
@[simp] theorem afterModify_dat (s : State) (p : PinNo) (f : Word → Word) :
    (afterModify s p f).dat = s.dat := rfl
@[simp] theorem afterModify_res (s : State) (p : PinNo) (f : Word → Word) :
    (afterModify s p f).res = s.res := rfl
@[simp] theorem afterModify_mapped (s : State) (p : PinNo) (f : Word → Word) :
    (afterModify s p f).mapped = s.mapped := rfl
@[simp] theorem afterModify_prio (s : State) (p : PinNo) (f : Word → Word) :
    (afterModify s p f).prio = s.prio := rfl
@[simp] theorem afterModify_err (s : State) (p : PinNo) (f : Word → Word) :
    (afterModify s p f).err = s.err := rfl
@[simp] theorem afterModify_errPhase (s : State) (p : PinNo) (f : Word → Word) :
    (afterModify s p f).errPhase = s.errPhase := rfl
@[simp] theorem afterModify_out (s : State) (p : PinNo) (f : Word → Word) :
    (afterModify s p f).out = s.out := rfl
@[simp] theorem afterModify_params (s : State) (p : PinNo) (f : Word → Word) :
    (afterModify s p f).params = s.params := rfl
@[simp] theorem afterModify_running (s : State) (p : PinNo) (f : Word → Word) :
    (afterModify s p f).running = s.running := rfl
@[simp] theorem afterModify_calls (s : State) (p : PinNo) (f : Word → Word) :
    (afterModify s p f).calls = s.calls := rfl
@[simp] theorem afterModify_line (s : State) (p : PinNo) (f : Word → Word) :
    (afterModify s p f).line = s.line := rfl
@[simp] theorem afterModify_lineReads (s : State) (p : PinNo) (f : Word → Word) :
    (afterModify s p f).lineReads = s.lineReads := rfl
@[simp] theorem afterModify_mapper (s : State) (p : PinNo) (f : Word → Word) :
    (afterModify s p f).mapper = s.mapper := rfl
@[simp] theorem afterModify_mapReqs (s : State) (p : PinNo) (f : Word → Word) :
    (afterModify s p f).mapReqs = s.mapReqs := rfl
@[simp] theorem afterModify_readback (s : State) (p : PinNo) (f : Word → Word) :
    (afterModify s p f).readback = s.readback := rfl

/-! ### Counters -/

theorem readCnt_writeCnt (s : State) {k : Nat} (hk : k < 82) (v : Count) (j : Nat) :
    readCnt (writeCnt s k v) j = if j = k then v else readCnt s j := by
  unfold readCnt writeCnt
  by_cases h : j = k
  · subst h
    simp [hk]
  · have h' : k ≠ j := fun e => h e.symm
    simp [h, h']

end Sys2Proof.Machine
end

