-- ==== Sys2Proof/Laws/Poll.lean ====
section
/-! SUPPORT. What the poll loop can do (spec 42_protocol_sequencer.md R126): it consumes the coming level
samples one by one, and its end is decided by the first sample at the other level and the ceiling. -/

namespace Sys2Proof.Machine

open Sys2Proof.Safety

/-! ### The coming samples -/

theorem nextLev_eq (s : State) : nextLev s = levAt s 0 := by
  unfold nextLev levAt
  cases s.line <;> rfl

theorem afterReads_zero (s : State) : afterReads s 0 = s := by
  simp [afterReads]

theorem afterReads_one (s : State) :
    afterReads s 1 = emit (.busRead levOff (nextLev s)) (dropLev s) := by
  rw [nextLev_eq]
  simp [afterReads, emit, dropLev]

theorem levAt_afterReads (s : State) (m k : Nat) : levAt (afterReads s m) k = levAt s (m + k) := by
  simp [levAt, afterReads, List.getElem?_drop, Nat.add_assoc]

theorem afterReads_add (s : State) (m n : Nat) :
    afterReads (afterReads s m) n = afterReads s (m + n) := by
  have h : ∀ k, levAt (afterReads s m) k = levAt s (m + k) := levAt_afterReads s m
  unfold afterReads at h ⊢
  simp only [h, List.drop_drop, Nat.add_assoc, List.range_add, List.map_append, List.map_map,
    List.append_assoc]
  rfl

theorem levelAt_afterReads (s : State) (m k : Nat) :
    levelAt (afterReads s m) k = levelAt s (m + k) := by
  unfold levelAt
  rw [levAt_afterReads]
  rfl

theorem readInput_eq {s : State} (h : Ready s) {p : PinNo} (hp : pinLegal p) :
    readInput p s = .ok ((levAt s 0).getLsbD p.toNat, afterReads s 1) := by
  rw [readInput_ready h hp, afterReads_one, nextLev_eq]

/-! ### `afterReads`: the line and the trace only -/

@[simp] theorem afterReads_pin (s : State) (n : Nat) : (afterReads s n).pin = s.pin := rfl
@[simp] theorem afterReads_pc (s : State) (n : Nat) : (afterReads s n).pc = s.pc := rfl
@[simp] theorem afterReads_upc (s : State) (n : Nat) : (afterReads s n).upc = s.upc := rfl
@[simp] theorem afterReads_cnt (s : State) (n : Nat) : (afterReads s n).cnt = s.cnt := rfl
@[simp] theorem afterReads_wcnt (s : State) (n : Nat) : (afterReads s n).wcnt = s.wcnt := rfl
@[simp] theorem afterReads_thr (s : State) (n : Nat) : (afterReads s n).thr = s.thr := rfl
@[simp] theorem afterReads_dat (s : State) (n : Nat) : (afterReads s n).dat = s.dat := rfl
@[simp] theorem afterReads_res (s : State) (n : Nat) : (afterReads s n).res = s.res := rfl
@[simp] theorem afterReads_mapped (s : State) (n : Nat) : (afterReads s n).mapped = s.mapped := rfl
@[simp] theorem afterReads_prio (s : State) (n : Nat) : (afterReads s n).prio = s.prio := rfl
@[simp] theorem afterReads_err (s : State) (n : Nat) : (afterReads s n).err = s.err := rfl
@[simp] theorem afterReads_errPhase (s : State) (n : Nat) :
    (afterReads s n).errPhase = s.errPhase := rfl
@[simp] theorem afterReads_fsel (s : State) (n : Nat) : (afterReads s n).fsel = s.fsel := rfl
@[simp] theorem afterReads_out (s : State) (n : Nat) : (afterReads s n).out = s.out := rfl
@[simp] theorem afterReads_params (s : State) (n : Nat) : (afterReads s n).params = s.params := rfl
@[simp] theorem afterReads_running (s : State) (n : Nat) :
    (afterReads s n).running = s.running := rfl
@[simp] theorem afterReads_calls (s : State) (n : Nat) : (afterReads s n).calls = s.calls := rfl
@[simp] theorem afterReads_line (s : State) (n : Nat) : (afterReads s n).line = s.line.drop n := rfl
@[simp] theorem afterReads_lineReads (s : State) (n : Nat) :
    (afterReads s n).lineReads = s.lineReads + n := rfl
@[simp] theorem afterReads_mapper (s : State) (n : Nat) : (afterReads s n).mapper = s.mapper := rfl
@[simp] theorem afterReads_mapReqs (s : State) (n : Nat) :
    (afterReads s n).mapReqs = s.mapReqs := rfl
@[simp] theorem afterReads_readback (s : State) (n : Nat) :
    (afterReads s n).readback = s.readback := rfl

/-! ### The loop -/

/-- How the loop ends from count `c` after `n + 1` reads: on a transition the last read is not counted,
on a timeout it is. -/
theorem pollLoop_spec {level : Bool} {m : Nat} {p : PinNo} (hp : pinLegal p) :
    ∀ (fuel c : Nat) (s : State), Ready s → m - c < fuel →
    ∃ n e, pollLoop level m p fuel c s = .ok e ∧ e.state = afterReads s (n + 1) ∧
      (∀ k, k < n → (levAt s k).getLsbD p.toNat = level) ∧ (n = 0 ∨ c + n < m) ∧
      ((e.timedOut = false ∧ e.count = c + n ∧ (levAt s n).getLsbD p.toNat ≠ level) ∨
       (e.timedOut = true ∧ e.count = c + n + 1 ∧ (levAt s n).getLsbD p.toNat = level ∧
         m ≤ c + n + 1)) := by
  intro fuel
  induction fuel with
  | zero => intro c s _ hf; omega
  | succ fuel ih =>
    intro c s hr hf
    unfold pollLoop
    rw [readInput_eq hr hp]
    by_cases hl : (levAt s 0).getLsbD p.toNat = level
    · by_cases hm : m ≤ c + 1
      · refine ⟨0, ⟨true, c + 1, afterReads s 1⟩, ?_, rfl, by simp, .inl rfl,
          .inr ⟨rfl, rfl, hl, hm⟩⟩
        simp [hl, hm]
      · obtain ⟨n, e, he, hs, hk, hn, hend⟩ := ih (c + 1) (afterReads s 1) hr (by omega)
        refine ⟨n + 1, e, ?_, ?_, ?_, ?_, ?_⟩
        · simpa [hl, hm] using he
        · rw [hs, afterReads_add, Nat.add_comm 1]
        · intro k hk'
          cases k with
          | zero => exact hl
          | succ k =>
            have := hk k (by omega)
            rwa [levAt_afterReads, Nat.add_comm] at this
        · omega
        · rw [levAt_afterReads, Nat.add_comm 1] at hend
          obtain ⟨h1, h2, h3⟩ | ⟨h1, h2, h3, h4⟩ := hend
          · exact .inl ⟨h1, by omega, h3⟩
          · exact .inr ⟨h1, by omega, h3, by omega⟩
    · refine ⟨0, ⟨false, c, afterReads s 1⟩, ?_, rfl, by simp, .inl rfl, .inl ⟨rfl, rfl, hl⟩⟩
      simp [hl]

/-- `maxCount + 1` units of fuel are never used up: more give the same end. -/
theorem pollLoop_fuel {level : Bool} {m : Nat} {p : PinNo} (f g : Nat) (c : Nat) (s : State)
    (hf : m - c < f) (hg : m - c < g) : pollLoop level m p f c s = pollLoop level m p g c s := by
  induction f generalizing g c s with
  | zero => omega
  | succ f ih =>
    cases g with
    | zero => omega
    | succ g =>
      unfold pollLoop
      split
      · rfl
      · split
        · rfl
        · split
          · rfl
          · exact ih g (c + 1) _ (by omega) (by omega)

/-- The loop stops by refusal only at its first read. -/
theorem pollLoop_ok {level : Bool} {m : Nat} {p : PinNo} {f c : Nat} {s : State} {e : PollEnd}
    (hf : 0 < f) (h : pollLoop level m p f c s = .ok e) :
    s.mapped = true ∧ pinLegal p ∧ ∃ n, e.state = afterReads s (n + 1) := by
  induction f generalizing c s with
  | zero => omega
  | succ f ih =>
    unfold pollLoop at h
    split at h
    · cases h
    · rename_i b s1 hr
      obtain ⟨hm, hp, -, rfl⟩ := readInput_cases hr
      rw [← afterReads_one] at h
      refine ⟨hm, hp, ?_⟩
      split at h
      · cases h
        exact ⟨0, rfl⟩
      · split at h
        · cases h
          exact ⟨0, rfl⟩
        · cases f with
          | zero =>
            unfold pollLoop at h
            cases h
            exact ⟨0, rfl⟩
          | succ f =>
            obtain ⟨-, -, n, hn⟩ := ih (by omega) h
            exact ⟨1 + n, by rw [hn, afterReads_add, Nat.add_assoc]⟩

/-! ### The polling operations -/

theorem pulseIndex_ofNat (i : Fin 41) : pulseIndex (BitVec.ofNat 6 i.val) = some i := by
  have h : (BitVec.ofNat 6 i.val).toNat = i.val := by
    rw [BitVec.toNat_ofNat]; omega
  unfold pulseIndex
  rw [dif_pos (by rw [h]; exact i.isLt)]
  simp [h]

theorem readCounter_writeCounter (s : State) (ph : PollPhase) (v : Count) :
    readCounter (writeCounter s ph v) ph = v := by
  cases ph with
  | waitResponse => rfl
  | sampleLow i => simp [readCounter, writeCounter, readCnt_writeCnt s (show 2 * i.val < 82 by omega)]
  | sampleHigh i =>
    simp [readCounter, writeCounter, readCnt_writeCnt s (show 2 * i.val + 1 < 82 by omega)]

/-- Everything a polling operation can do when the register block may be read: it leaves on the
transition after `n + 1` reads with `c + n`, or raises `TimeoutError` at the ceiling (R126, R129). -/
theorem pollPhase_spec {level : Bool} {ph : PollPhase} {s : State} (hr : Ready s)
    (hp : pinLegal s.pin) :
    ∃ n, (∀ k, k < n → levelAt s k = level) ∧
      (n = 0 ∨ (readCounter s ph).toNat + n < s.params.maxCount) ∧
      ((levelAt s n ≠ level ∧ pollPhase level ph s = .ok (writeCounter (afterReads s (n + 1)) ph
          (BitVec.ofNat 32 ((readCounter s ph).toNat + n)))) ∨
       (levelAt s n = level ∧ s.params.maxCount ≤ (readCounter s ph).toNat + n + 1 ∧
        pollPhase level ph s = .ok (raiseError .timeoutError (some ph)
          (writeCounter (afterReads s (n + 1)) ph
            (BitVec.ofNat 32 ((readCounter s ph).toNat + n + 1)))))) := by
  obtain ⟨n, e, he, hs, hk, hn, hend⟩ := pollLoop_spec (level := level) (m := s.params.maxCount) hp
    (s.params.maxCount + 1) (readCounter s ph).toNat s hr (by omega)
  refine ⟨n, hk, hn, ?_⟩
  unfold pollPhase
  rw [he]
  obtain ⟨h1, h2, h3⟩ | ⟨h1, h2, h3, h4⟩ := hend
  · exact .inl ⟨h3, by simp [h1, h2, hs]⟩
  · exact .inr ⟨h3, h4, by simp [h1, h2, hs]⟩

/-- What a polling operation can have done, in any state: reads, its own counter, perhaps the error
entry. -/
theorem pollPhase_cases {level : Bool} {ph : PollPhase} {s t : State}
    (h : pollPhase level ph s = .ok t) :
    s.mapped = true ∧ pinLegal s.pin ∧
    ∃ n v, t = writeCounter (afterReads s (n + 1)) ph v ∨
      t = raiseError .timeoutError (some ph) (writeCounter (afterReads s (n + 1)) ph v) := by
  unfold pollPhase at h
  split at h
  · cases h
  · rename_i e he
    obtain ⟨hm, hp, n, hn⟩ := pollLoop_ok (by omega) he
    refine ⟨hm, hp, n, BitVec.ofNat 32 e.count, ?_⟩
    simp only [Except.ok.injEq] at h
    rw [← h, hn]
    cases e.timedOut
    · exact .inl rfl
    · exact .inr rfl

theorem exec_pollInstr (ph : PollPhase) (s : State) :
    exec (pollInstr ph) s = answer (pollPhase (pollLevel ph) ph s) := by
  cases ph with
  | waitResponse => rfl
  | sampleLow i =>
    show execCntlow _ s = _
    unfold execCntlow
    rw [pulseIndex_ofNat]
    rfl
  | sampleHigh i =>
    show execCnthigh _ s = _
    unfold execCnthigh
    rw [pulseIndex_ofNat]
    rfl

end Sys2Proof.Machine
end

