-- ==== Sys2Proof/Laws/Attempt.lean ====
section
/-! SUPPORT. What a step can do (spec 42_protocol_sequencer.md R110, R115): once outside an attempt, once,
slot by slot, inside one. Invariants are derived from these instead of unfolding the step. -/

namespace Sys2Proof.Machine

open Sys2Proof.Safety

/-! ### Slots and phases (R79) -/

theorem slotInstr_poll (p : PinNo) (ph : PollPhase) :
    slotInstr p (pollSlot ph) = some (pollInstr ph) := by
  cases ph with
  | waitResponse => rfl
  | sampleLow i => fin_cases i <;> rfl
  | sampleHigh i => fin_cases i <;> rfl

theorem exists_pollSlot {u : Nat} (h9 : 9 ≤ u) (h91 : u ≤ 91) : ∃ ph, pollSlot ph = u := by
  by_cases h : u = 9
  · exact ⟨.waitResponse, h.symm⟩
  · by_cases h2 : u % 2 = 0
    · exact ⟨.sampleLow ⟨(u - 10) / 2, by omega⟩, by simp only [pollSlot]; omega⟩
    · exact ⟨.sampleHigh ⟨(u - 11) / 2, by omega⟩, by simp only [pollSlot]; omega⟩

theorem pollSlot_bounds (ph : PollPhase) : 9 ≤ pollSlot ph ∧ pollSlot ph ≤ 91 := by
  cases ph <;> simp only [pollSlot] <;> omega

theorem phaseOf_sampling {u : Nat} (h : u < 96) :
    samplingPhase (phaseOf u) = true ↔ 9 ≤ u ∧ u ≤ 92 := by
  unfold phaseOf
  split
  · simp [samplingPhase]; omega
  · split
    · simp [samplingPhase]; omega
    · split
      · simp [samplingPhase]; omega
      · split
        · split <;> simp [samplingPhase] <;> omega
        · split
          · simp [samplingPhase]; omega
          · simp [samplingPhase]; omega

theorem phaseOf_resting {u : Nat} : restingPhase (phaseOf u) = true ↔ u = 0 := by
  unfold phaseOf
  split
  · simp [restingPhase, *]
  · split
    · simp [restingPhase]; omega
    · split
      · simp [restingPhase]; omega
      · split
        · split <;> simp [restingPhase] <;> omega
        · split <;> simp [restingPhase] <;> omega

/-! ### The step (R115) -/

theorem step_of_slot {s t : State} {i : Instr} (hr : s.running = true)
    (hi : slotInstr s.pin s.upc.val = some i) (he : exec i s = .next t) :
    step s = .next (afterSlot t) := by
  unfold step runSlot
  rw [if_pos hr, hi]
  simp only [he]

/-- Everything a step that answers a next state can have done. -/
theorem step_cases {s t : State} (h : step s = .next t) :
    (s.running = true ∧ slotInstr s.pin s.upc.val = none ∧ t = attemptEnd s) ∨
    (s.running = true ∧ ∃ i u, slotInstr s.pin s.upc.val = some i ∧ exec i s = .next u ∧
      t = afterSlot u) ∨
    (s.running = false ∧ s.calls = [] ∧ t = s) ∨
    (s.running = false ∧ ∃ w rest i, s.calls = w :: rest ∧ decode w = .op i ∧
      exec i { s with calls := rest } = .next t) := by
  unfold step at h
  split at h
  · rename_i hr
    unfold runSlot at h
    split at h
    · rename_i hn
      cases h
      exact .inl ⟨hr, hn, rfl⟩
    · rename_i i hi
      split at h
      · rename_i u hu
        cases h
        exact .inr (.inl ⟨hr, i, u, hi, hu, rfl⟩)
      · cases h
      · cases h
  · rename_i hr
    have hr' : s.running = false := by simpa using hr
    unfold runCall at h
    split at h
    · rename_i hc
      cases h
      exact .inr (.inr (.inl ⟨hr', hc, rfl⟩))
    · rename_i w rest hc
      split at h
      · cases h
      · rename_i i hi
        exact .inr (.inr (.inr ⟨hr', w, rest, i, hc, hi, h⟩))

/-! ### After a slot -/

theorem afterSlot_error {s : State} (h : s.upc.val = 96) : afterSlot s = attemptEnd s := by
  unfold afterSlot
  rw [if_pos h]

theorem afterSlot_last {s : State} (h : s.upc.val = 95) :
    afterSlot s = attemptEnd { s with upc := 96 } := by
  unfold afterSlot
  rw [if_neg (by omega), if_pos h]

theorem afterSlot_next {s : State} (h : s.upc.val < 95) :
    afterSlot s = { s with upc := Fin.ofNat 97 (s.upc.val + 1), pc := phaseOf (s.upc.val + 1) } := by
  unfold afterSlot
  rw [if_neg (by omega), if_neg (by omega)]

theorem upc_succ {u : Nat} (h : u < 96) : (Fin.ofNat 97 (u + 1)).val = u + 1 := by
  show (u + 1) % 97 = u + 1
  omega

/-! ### A slot of an attempt in public use -/

theorem ready_of_inv {s : State} (hI : Inv s) (hr : s.running = true) (hu : 1 ≤ s.upc.val) :
    Ready s :=
  ⟨(hI.running hr).mapped_after_slot0 hu, hI.admissible.2.2.2.2⟩

/-- The state the operation of a slot leaves, before the advance, for every slot of the sequence. -/
inductive SlotEffect (s : State) : State → Prop where
  | ensuremapped (h : s.upc.val = 0) : SlotEffect s (ensureMapped s)
  | setoutput (h : s.upc.val = 1) : SlotEffect s
      (afterModify (afterModify s s.pin fun v => v &&& ~~~fselMask s.pin) s.pin
        fun v => v ||| fselOut s.pin)
  | sethigh (h : s.upc.val = 2) :
      SlotEffect s (emit (.busWrite setOff (pinBit s.pin)) { s with out := s.out ||| pinBit s.pin })
  | sleepc (h : s.upc.val = 3) : SlotEffect s (emit (.sleep 500) s)
  | setlow (h : s.upc.val = 4) :
      SlotEffect s
        (emit (.busWrite clrOff (pinBit s.pin)) { s with out := s.out &&& ~~~pinBit s.pin })
  | waitp (h : s.upc.val = 5) : SlotEffect s (emit (.busyWait 20) s)
  | setinput (h : s.upc.val = 6) :
      SlotEffect s (afterModify s s.pin fun v => v &&& ~~~fselMask s.pin)
  | settle (h : s.upc.val = 7) : SlotEffect s (emit (.settle s.params.settleIter) s)
  | prioup (h : s.upc.val = 8) : SlotEffect s (raisePrio s)
  | pollEnds (ph : PollPhase) (n : Nat) (h : s.upc.val = pollSlot ph)
      (hk : ∀ k, k < n → levelAt s k = pollLevel ph) (hn : levelAt s n ≠ pollLevel ph)
      (hc : n < s.params.maxCount) :
      SlotEffect s (writeCounter (afterReads s (n + 1)) ph (BitVec.ofNat 32 n))
  | pollTimesOut (ph : PollPhase) (n : Nat) (h : s.upc.val = pollSlot ph)
      (hk : ∀ k, k < n + 1 → levelAt s k = pollLevel ph) (hc : n + 1 = s.params.maxCount) :
      SlotEffect s (raiseError .timeoutError (some ph)
        (writeCounter (afterReads s (n + 1)) ph (BitVec.ofNat 32 (n + 1))))
  | priodn (h : s.upc.val = 92) : SlotEffect s (lowerPrio s)
  | thresh (h : s.upc.val = 93) :
      SlotEffect s { s with thr := BitVec.ofNat 32 (thresholdSum s / thrN) }
  | decbits (h : s.upc.val = 94) :
      SlotEffect s { s with dat := (List.range' decFirst nBits).foldl (decodePulse s) s.dat }
  | chksumValid (h : s.upc.val = 95) (hv : frameValid s = true) :
      SlotEffect s { s with res := some (readingOf s), pc := .done }
  | chksumInvalid (h : s.upc.val = 95) (hv : frameValid s = false) :
      SlotEffect s (raiseError .checksumError none s)

/-- The counter of the slot to run is still zero (R113). -/
theorem counter_zero {s : State} (hI : Inv s) (hr : s.running = true) {ph : PollPhase}
    (h : s.upc.val = pollSlot ph) : (readCounter s ph).toNat = 0 := by
  have hR := hI.running hr
  cases ph with
  | waitResponse =>
    have := hR.response
    simp only [pollSlot] at h
    rw [if_neg (by omega)] at this
    simp [readCounter, this]
  | sampleLow i =>
    have := hR.counts (2 * i.val) (by omega)
    simp only [pollSlot] at h
    rw [if_neg (by omega)] at this
    simp [readCounter, this]
  | sampleHigh i =>
    have := hR.counts (2 * i.val + 1) (by omega)
    simp only [pollSlot] at h
    rw [if_neg (by omega)] at this
    simp [readCounter, this]

/-- In public use every slot of an attempt runs, and does what `SlotEffect` says. -/
theorem slot_runs {s : State} (hI : Inv s) (hr : s.running = true) :
    ∃ u, SlotEffect s u ∧ step s = .next (afterSlot u) := by
  have hR := hI.running hr
  have hp : pinLegal s.pin := hI.admissible.1
  have hu := hR.upc_lt
  by_cases h0 : s.upc.val = 0
  · exact ⟨_, .ensuremapped h0, step_of_slot hr (i := .ensuremapped) (by rw [h0]; rfl) rfl⟩
  have hrd : Ready s := ready_of_inv hI hr (by omega)
  by_cases h9 : 9 ≤ s.upc.val ∧ s.upc.val ≤ 91
  · obtain ⟨ph, hph⟩ := exists_pollSlot h9.1 h9.2
    have hi : slotInstr s.pin s.upc.val = some (pollInstr ph) := by
      rw [← hph]; exact slotInstr_poll _ _
    have hz := counter_zero hI hr hph.symm
    obtain ⟨n, hk, hn, hend⟩ := pollPhase_spec (level := pollLevel ph) (ph := ph) hrd hp
    rw [hz] at hn hend
    simp only [Nat.zero_add] at hn hend
    have hm := hI.admissible.2.1
    obtain ⟨hl, he⟩ | ⟨hl, hc, he⟩ := hend
    · exact ⟨_, .pollEnds ph n hph.symm hk hl (by omega),
        step_of_slot hr hi (by rw [exec_pollInstr, he]; rfl)⟩
    · refine ⟨_, .pollTimesOut ph n hph.symm ?_ (by omega),
        step_of_slot hr hi (by rw [exec_pollInstr, he]; rfl)⟩
      intro k hk'
      by_cases hkn : k = n
      · rw [hkn]; exact hl
      · exact hk k (by omega)
  by_cases h1 : s.upc.val = 1
  · refine ⟨_, .setoutput h1, step_of_slot hr (i := .setoutput s.pin) (by rw [h1]; rfl) ?_⟩
    show answer (setOutput s.pin s) = _
    rw [setOutput_ready hrd hp]; rfl
  by_cases h2 : s.upc.val = 2
  · refine ⟨_, .sethigh h2, step_of_slot hr (i := .sethigh s.pin) (by rw [h2]; rfl) ?_⟩
    show answer (pinOp s.pin s (regWrite setOff (pinBit s.pin) s)) = _
    rw [pinOp_ready hrd hp, regWrite_set hrd]; rfl
  by_cases h3 : s.upc.val = 3
  · exact ⟨_, .sleepc h3, step_of_slot hr (i := .sleepc tHighMs) (by rw [h3]; rfl) rfl⟩
  by_cases h4 : s.upc.val = 4
  · refine ⟨_, .setlow h4, step_of_slot hr (i := .setlow s.pin) (by rw [h4]; rfl) ?_⟩
    show answer (pinOp s.pin s (regWrite clrOff (pinBit s.pin) s)) = _
    rw [pinOp_ready hrd hp, regWrite_clr hrd]; rfl
  by_cases h5 : s.upc.val = 5
  · exact ⟨_, .waitp h5, step_of_slot hr (i := .waitp tLowMs) (by rw [h5]; rfl) rfl⟩
  by_cases h6 : s.upc.val = 6
  · refine ⟨_, .setinput h6, step_of_slot hr (i := .setinput s.pin) (by rw [h6]; rfl) ?_⟩
    show answer (setInput s.pin s) = _
    rw [setInput_ready hrd hp]; rfl
  by_cases h7 : s.upc.val = 7
  · exact ⟨_, .settle h7, step_of_slot hr (i := .settle) (by rw [h7]; rfl) rfl⟩
  by_cases h8 : s.upc.val = 8
  · exact ⟨_, .prioup h8, step_of_slot hr (i := .prioup) (by rw [h8]; rfl) rfl⟩
  by_cases h92 : s.upc.val = 92
  · exact ⟨_, .priodn h92, step_of_slot hr (i := .priodn) (by rw [h92]; rfl) rfl⟩
  by_cases h93 : s.upc.val = 93
  · exact ⟨_, .thresh h93, step_of_slot hr (i := .thresh) (by rw [h93]; rfl) rfl⟩
  by_cases h94 : s.upc.val = 94
  · exact ⟨_, .decbits h94, step_of_slot hr (i := .decbits) (by rw [h94]; rfl) rfl⟩
  have h95 : s.upc.val = 95 := by omega
  cases hv : frameValid s
  · refine ⟨_, .chksumInvalid h95 hv, step_of_slot hr (i := .chksum) (by rw [h95]; rfl) ?_⟩
    show execChksum s = _
    unfold execChksum
    rw [hv]; rfl
  · refine ⟨_, .chksumValid h95 hv, step_of_slot hr (i := .chksum) (by rw [h95]; rfl) ?_⟩
    show execChksum s = _
    unfold execChksum
    rw [hv]; rfl

/-- So every step of a running attempt in public use is one of those. -/
theorem slot_effect_of_step {s t : State} (hI : Inv s) (hr : s.running = true)
    (h : step s = .next t) : ∃ u, SlotEffect s u ∧ t = afterSlot u := by
  obtain ⟨u, hu, hs⟩ := slot_runs hI hr
  rw [hs] at h
  cases h
  exact ⟨u, hu, rfl⟩

/-! ### A step at rest in public use -/

theorem decode_readdata_word : decode (encode .readdata) = .op .readdata := by decide

theorem not_attemptRunning {s : State} (hI : Inv s) (hr : s.running = false) :
    attemptRunning s = false := by
  simp [attemptRunning, hr, (hI.resting hr).phase]

theorem rest_step {s : State} (hI : Inv s) (hr : s.running = false) :
    (s.calls = [] ∧ step s = .next s) ∨
    (∃ rest, s.calls = encode .readdata :: rest ∧
      step s = .next (attemptStart { s with calls := rest })) := by
  cases hc : s.calls with
  | nil =>
    refine .inl ⟨rfl, ?_⟩
    simp [step, runCall, hr, hc]
  | cons w rest =>
    have hw : w = encode .readdata := hI.publicOnly w (by simp [hc])
    subst hw
    refine .inr ⟨rest, rfl, ?_⟩
    have hn : attemptRunning { s with calls := rest } = false :=
      (not_attemptRunning hI hr : attemptRunning s = false)
    unfold step runCall
    rw [if_neg (by simp [hr]), hc]
    simp only [decode_readdata_word]
    show execReaddata _ = _
    unfold execReaddata
    rw [hn]
    rfl

end Sys2Proof.Machine
end

