-- ==== Sys2Proof/Laws/Encoding.lean ====
section
/-! SUPPORT. The fields and the words of spec 30_encoding.md R72 as numbers. -/

namespace Sys2Proof

theorem opField_toNat (w : OpWord) : (opField w).toNat = w.toNat / 2048 := by
  unfold opField
  rw [BitVec.extractLsb'_toNat, Nat.shiftRight_eq_div_pow]
  have := w.isLt
  omega

theorem midField_toNat (w : OpWord) : (midField w).toNat = w.toNat / 64 % 32 := by
  unfold midField
  rw [BitVec.extractLsb'_toNat, Nat.shiftRight_eq_div_pow]

theorem lowField_toNat (w : OpWord) : (lowField w).toNat = w.toNat % 64 := by
  unfold lowField
  rw [BitVec.extractLsb'_toNat, Nat.shiftRight_eq_div_pow]
  simp

theorem argField_toNat (w : OpWord) : (argField w).toNat = w.toNat % 2048 := by
  unfold argField
  rw [BitVec.extractLsb'_toNat, Nat.shiftRight_eq_div_pow]
  simp

/-- Concatenation puts the left part in the high bits (00_scope.md section 6). -/
theorem append_toNat {m n : Nat} (a : BitVec m) (b : BitVec n) :
    (a ++ b).toNat = a.toNat * 2 ^ n + b.toNat := by
  have hb := b.isLt
  rw [BitVec.toNat_append, Nat.shiftLeft_eq, Nat.mul_comm, Nat.two_pow_add_eq_or_of_lt hb]

theorem encodeZ_toNat (op : BitVec 5) : (encodeZ op).toNat = op.toNat * 2048 := by
  show (op ++ 0#11).toNat = _
  rw [append_toNat]
  simp

theorem encodeLow_toNat (op : BitVec 5) (x : BitVec 6) :
    (encodeLow op x).toNat = op.toNat * 2048 + x.toNat := by
  show (op ++ 0#5 ++ x).toNat = _
  rw [append_toNat, append_toNat]
  simp
  omega

theorem encodeT_toNat (op : BitVec 5) (ms : Millis) :
    (encodeT op ms).toNat = op.toNat * 2048 + ms.toNat := by
  show (op ++ ms).toNat = _
  rw [append_toNat]
  norm_num

end Sys2Proof
end

