-- ==== Sys2Proof/Laws/Exec.lean ====
section
/-! SUPPORT. What `exec` can do in any state (spec 30_encoding.md R70, R71): one inversion lemma over the 18
operations. Frames and invariants are derived from it instead of unfolding the meanings. -/

namespace Sys2Proof.Machine

open Sys2Proof.Safety

/-! ### `ensureMapped` (R90): what no answer of the mapper service touches -/

@[simp] theorem ensureMapped_pin (s : State) : (ensureMapped s).pin = s.pin := by
  unfold ensureMapped
  split
  · rfl
  · split <;> simp
@[simp] theorem ensureMapped_cnt (s : State) : (ensureMapped s).cnt = s.cnt := by
  unfold ensureMapped
  split
  · rfl
  · split <;> simp
@[simp] theorem ensureMapped_wcnt (s : State) : (ensureMapped s).wcnt = s.wcnt := by
  unfold ensureMapped
  split
  · rfl
  · split <;> simp
@[simp] theorem ensureMapped_thr (s : State) : (ensureMapped s).thr = s.thr := by
  unfold ensureMapped
  split
  · rfl
  · split <;> simp
@[simp] theorem ensureMapped_dat (s : State) : (ensureMapped s).dat = s.dat := by
  unfold ensureMapped
  split
  · rfl
  · split <;> simp
@[simp] theorem ensureMapped_fsel (s : State) : (ensureMapped s).fsel = s.fsel := by
  unfold ensureMapped
  split
  · rfl
  · split <;> simp
@[simp] theorem ensureMapped_out (s : State) : (ensureMapped s).out = s.out := by
  unfold ensureMapped
  split
  · rfl
  · split <;> simp
@[simp] theorem ensureMapped_params (s : State) : (ensureMapped s).params = s.params := by
  unfold ensureMapped
  split
  · rfl
  · split <;> simp
@[simp] theorem ensureMapped_running (s : State) : (ensureMapped s).running = s.running := by
  unfold ensureMapped
  split
  · rfl
  · split <;> simp
@[simp] theorem ensureMapped_calls (s : State) : (ensureMapped s).calls = s.calls := by
  unfold ensureMapped
  split
  · rfl
  · split <;> simp
@[simp] theorem ensureMapped_lineReads (s : State) : (ensureMapped s).lineReads = s.lineReads := by
  unfold ensureMapped
  split
  · rfl
  · split <;> simp
@[simp] theorem ensureMapped_line (s : State) : (ensureMapped s).line = s.line := by
  unfold ensureMapped
  split
  · rfl
  · split <;> simp
@[simp] theorem ensureMapped_readback (s : State) : (ensureMapped s).readback = s.readback := by
  unfold ensureMapped
  split
  · rfl
  · split <;> simp

/-- A map that is present stays. -/
theorem ensureMapped_keeps_map {s : State} (h : s.mapped = true) : ensureMapped s = s := by
  unfold ensureMapped
  rw [if_pos h]

/-! ### The counters of the other phases -/

theorem readCnt_writeCounter (s : State) (ph : PollPhase) (v : Count) (k : Nat) :
    readCnt (writeCounter s ph v) k =
      match ph with
      | .waitResponse => readCnt s k
      | .sampleLow i => if k = 2 * i.val then v else readCnt s k
      | .sampleHigh i => if k = 2 * i.val + 1 then v else readCnt s k := by
  cases ph with
  | waitResponse => rfl
  | sampleLow i => exact readCnt_writeCnt s (by omega) v k
  | sampleHigh i => exact readCnt_writeCnt s (by omega) v k

/-! ### The inversion lemma -/

/-- The next states an operation can give, with what must have held for it to give one. -/
inductive ExecEffect (s : State) : Instr → State → Prop where
  | ensuremapped : ExecEffect s .ensuremapped (ensureMapped s)
  | setinput (p : PinNo) (hm : s.mapped = true) (hp : pinLegal p) :
      ExecEffect s (.setinput p) (afterModify s p fun v => v &&& ~~~fselMask p)
  | setoutput (p : PinNo) (hm : s.mapped = true) (hp : pinLegal p) :
      ExecEffect s (.setoutput p)
        (afterModify (afterModify s p fun v => v &&& ~~~fselMask p) p fun v => v ||| fselOut p)
  | sethigh (p : PinNo) (hm : s.mapped = true) (hp : pinLegal p) :
      ExecEffect s (.sethigh p)
        (emit (.busWrite setOff (pinBit p)) { s with out := s.out ||| pinBit p })
  | setlow (p : PinNo) (hm : s.mapped = true) (hp : pinLegal p) :
      ExecEffect s (.setlow p)
        (emit (.busWrite clrOff (pinBit p)) { s with out := s.out &&& ~~~pinBit p })
  | readinput (p : PinNo) (hm : s.mapped = true) (hp : pinLegal p) :
      ExecEffect s (.readinput p)
        { afterReads s 1 with readback := some ((nextLev s).getLsbD p.toNat) }
  | readdata (h : attemptRunning s = false) : ExecEffect s .readdata (attemptStart s)
  | sleepc (ms : Millis) : ExecEffect s (.sleepc ms) (emit (.sleep ms.toNat) s)
  | waitp (ms : Millis) : ExecEffect s (.waitp ms) (emit (.busyWait ms.toNat) s)
  | settle : ExecEffect s .settle (emit (.settle s.params.settleIter) s)
  | prioup : ExecEffect s .prioup (raisePrio s)
  | priodn : ExecEffect s .priodn (lowerPrio s)
  | pollEnds (ph : PollPhase) (n : Nat) (v : Count) (hm : s.mapped = true) (hp : pinLegal s.pin) :
      ExecEffect s (pollInstr ph) (writeCounter (afterReads s (n + 1)) ph v)
  | pollTimesOut (ph : PollPhase) (n : Nat) (v : Count) (hm : s.mapped = true)
      (hp : pinLegal s.pin) :
      ExecEffect s (pollInstr ph)
        (raiseError .timeoutError (some ph) (writeCounter (afterReads s (n + 1)) ph v))
  | thresh : ExecEffect s .thresh { s with thr := BitVec.ofNat 32 (thresholdSum s / thrN) }
  | decbits :
      ExecEffect s .decbits
        { s with dat := (List.range' decFirst nBits).foldl (decodePulse s) s.dat }
  | chksumValid (hv : frameValid s = true) :
      ExecEffect s .chksum { s with res := some (readingOf s), pc := .done }
  | chksumInvalid (hv : frameValid s = false) :
      ExecEffect s .chksum (raiseError .checksumError none s)

theorem answer_next {r : Access State} {t : State} (h : answer r = .next t) : r = .ok t := by
  cases r with
  | error e => cases h
  | ok s => cases h; rfl

theorem pulseIndex_some {k : PulseNo} {i : Fin 41} (h : pulseIndex k = some i) :
    k = BitVec.ofNat 6 i.val := by
  unfold pulseIndex at h
  split at h
  · cases h
    simp
  · cases h

theorem poll_effect {s t : State} (ph : PollPhase)
    (h : answer (pollPhase (pollLevel ph) ph s) = .next t) : ExecEffect s (pollInstr ph) t := by
  obtain ⟨hm, hp, n, v, rfl | rfl⟩ := pollPhase_cases (answer_next h)
  · exact .pollEnds ph n v hm hp
  · exact .pollTimesOut ph n v hm hp

/-- Whenever an operation answers a next state, it is one of those above. -/
theorem exec_effect {s t : State} {i : Instr} (h : exec i s = .next t) : ExecEffect s i t := by
  cases i with
  | ensuremapped => cases h; exact .ensuremapped
  | setinput p =>
    obtain ⟨hm, hp, rfl⟩ := setInput_cases (answer_next h)
    exact .setinput p hm hp
  | setoutput p =>
    obtain ⟨hm, hp, rfl⟩ := setOutput_cases (answer_next h)
    exact .setoutput p hm hp
  | sethigh p =>
    obtain ⟨hm, hp, hw⟩ := pinOp_ok (answer_next h)
    obtain ⟨-, ⟨hw, -⟩ | ⟨-, rfl⟩ | ⟨hw, -⟩⟩ := regWrite_cases hw
    · simp only [setOff] at hw; omega
    · exact .sethigh p hm hp
    · simp only [setOff, clrOff] at hw; omega
  | setlow p =>
    obtain ⟨hm, hp, hw⟩ := pinOp_ok (answer_next h)
    obtain ⟨-, ⟨hw, -⟩ | ⟨hw, -⟩ | ⟨-, rfl⟩⟩ := regWrite_cases hw
    · simp only [clrOff] at hw; omega
    · simp only [setOff, clrOff] at hw; omega
    · exact .setlow p hm hp
  | readinput p =>
    replace h : execReadinput p s = .next t := h
    unfold execReadinput at h
    split at h
    · rename_i b s1 hr
      obtain ⟨hm, hp, rfl, rfl⟩ := readInput_cases hr
      cases h
      rw [← afterReads_one]
      exact .readinput p hm hp
    · cases h
  | readdata =>
    replace h : execReaddata s = .next t := h
    unfold execReaddata at h
    split at h
    · cases h
    · rename_i hr
      cases h
      exact .readdata (by simpa using hr)
  | sleepc ms => cases h; exact .sleepc ms
  | waitp ms => cases h; exact .waitp ms
  | settle => cases h; exact .settle
  | prioup => cases h; exact .prioup
  | priodn => cases h; exact .priodn
  | waitresp => exact poll_effect .waitResponse h
  | cntlow k =>
    replace h : execCntlow k s = .next t := h
    unfold execCntlow at h
    split at h
    · rename_i i hi
      rw [pulseIndex_some hi]
      exact poll_effect (.sampleLow i) h
    · cases h
  | cnthigh k =>
    replace h : execCnthigh k s = .next t := h
    unfold execCnthigh at h
    split at h
    · rename_i i hi
      rw [pulseIndex_some hi]
      exact poll_effect (.sampleHigh i) h
    · cases h
  | thresh => cases h; exact .thresh
  | decbits => cases h; exact .decbits
  | chksum =>
    replace h : execChksum s = .next t := h
    unfold execChksum at h
    cases hv : frameValid s
    · rw [hv] at h
      cases h
      exact .chksumInvalid hv
    · rw [hv] at h
      cases h
      exact .chksumValid hv

end Sys2Proof.Machine
end

