-- ==== Sys2Proof/Laws/EventStep.lean ====
section
/-! SUPPORT. What one event of an operation can do (spec 00_scope.md R12, 42_protocol_sequencer.md R115,
R126): how the events of an operation add up to its meaning, and that an event reads nothing of the
environment but the answers the state has in store. -/

namespace Sys2Proof.Machine

open Sys2Proof.Safety

/-! ### Runs of events -/

theorem runEvents_one (f : EventState) : runEvents 1 f = eventStep f := by
  unfold runEvents
  cases eventStep f <;> rfl

theorem runEvents_succ {f g : EventState} (h : eventStep f = .ok g) (k : Nat) :
    runEvents (k + 1) f = runEvents k g := by
  simp [runEvents, h]

/-- The events still to come after a first one, in or outside an attempt, lead to the state `t`. -/
inductive EndsIn (inAttempt : Bool) : Access Progress → State → Prop where
  | done (t : State) : EndsIn inAttempt (.ok (t, none)) t
  | more {s t : State} {w : Pending} (hr : s.running = inAttempt)
      (h : EndsIn inAttempt (continueOperation w s) t) : EndsIn inAttempt (.ok (s, some w)) t

/-- An operation whose events lead to `t` is closed in `t` after finitely many event steps. -/
theorem EndsIn.run {b : Bool} {r : Access Progress} {t : State} (h : EndsIn b r t) :
    ∃ k g, closeEvent b r = .ok g ∧ runEvents k g = closeEvent b (.ok (t, none)) := by
  induction h with
  | done t => exact ⟨0, _, rfl, rfl⟩
  | @more s t w hr h ih =>
    obtain ⟨k, g, hg, hk⟩ := ih
    refine ⟨k + 1, _, rfl, ?_⟩
    rw [runEvents_succ (g := g) (by simpa [eventStep, hr] using hg), hk]

/-! ### The events of the single operations -/

theorem raiseNext_ends {b : Bool} {s : State} (hr : s.running = b) (e : ErrKind)
    (place : Option PollPhase) : EndsIn b (.ok (raiseNext e place s)) (raiseError e place s) := by
  unfold raiseNext
  split
  · exact .more hr (.done _)
  · exact .done _

theorem mapEvent_ends {b : Bool} {s : State} (hr : s.running = b) :
    EndsIn b (.ok (mapEvent s)) (ensureMapped s) := by
  unfold mapEvent ensureMapped
  cases hm : s.mapped
  · cases mapperResponse (nextMapper s) with
    | ok => exact .done _
    | deviceOpenError => exact raiseNext_ends (s := askMapper s) hr .deviceOpenError none
    | mappingError => exact raiseNext_ends (s := askMapper s) hr .mappingError none
  · exact .done _

/-- The state after the read of a read-modify-write of the word of pin `p`. -/
def afterFieldRead (s : State) (p : PinNo) : State :=
  emit (.busRead (regIndex p) (readFsel s (regIndex p))) s

theorem readField_ready {s : State} (h : Ready s) {p : PinNo} (hp : pinLegal p)
    (k : Word → Pending) :
    readField p k s = .ok (afterFieldRead s p, some (k (readFsel s (regIndex p)))) := by
  unfold readField
  rw [regRead_fsel h (regIndex_lt_six hp)]
  rfl

theorem writeField_ready {s : State} (h : Ready s) {p : PinNo} (hp : pinLegal p)
    (f : Word → Word) (next : Option Pending) :
    writeField p (f (readFsel s (regIndex p))) next (afterFieldRead s p) =
      .ok (afterModify s p f, next) := by
  unfold writeField
  rw [regWrite_fsel (s := afterFieldRead s p) h (regIndex_lt_six hp)]
  rfl

theorem regRead_running {w : Nat} {s t : State} {v : Word} (h : regRead w s = .ok (v, t)) :
    t.running = s.running := by
  obtain ⟨-, ⟨-, -, rfl⟩ | ⟨-, -, rfl⟩⟩ := regRead_cases h <;> rfl

theorem regWrite_running {w : Nat} {v : Word} {s t : State} (h : regWrite w v s = .ok t) :
    t.running = s.running := by
  obtain ⟨-, ⟨-, rfl⟩ | ⟨-, rfl⟩ | ⟨-, rfl⟩⟩ := regWrite_cases h <;> rfl

theorem modifyFsel_ok {p : PinNo} {f : Word → Word} {s t : State} (h : modifyFsel p f s = .ok t) :
    ∃ v s1, regRead (regIndex p) s = .ok (v, s1) ∧ regWrite (regIndex p) (f v) s1 = .ok t := by
  unfold modifyFsel at h
  split at h
  · cases h
  · rename_i v s1 hv
    exact ⟨v, s1, hv, h⟩

theorem pinOp_eq {α β : Type} {p : PinNo} {s : State} {r : Access α} {x : α}
    (h : pinOp p s r = .ok x) (q : Access β) : pinOp p s q = q := by
  obtain ⟨hm, hp, -⟩ := pinOp_ok h
  unfold pinOp
  rw [if_neg (by simp [hm]), if_pos hp]

theorem setInput_ends {b : Bool} {p : PinNo} {s t : State} (hr : s.running = b)
    (h : setInput p s = .ok t) : EndsIn b (startOperation (.setinput p) s) t := by
  obtain ⟨v, s1, h1, h2⟩ := modifyFsel_ok (pinOp_ok h).2.2
  simp only [startOperation, pinOp_eq h, readField, h1]
  refine .more ((regRead_running h1).trans hr) ?_
  simp only [continueOperation, writeField, h2]
  exact .done _

theorem setOutput_ends {b : Bool} {p : PinNo} {s t : State} (hr : s.running = b)
    (h : setOutput p s = .ok t) : EndsIn b (startOperation (.setoutput p) s) t := by
  unfold setOutput at h
  split at h
  · cases h
  · rename_i s2 hs
    obtain ⟨v, s1, h1, h2⟩ := modifyFsel_ok (pinOp_ok hs).2.2
    obtain ⟨v', s3, h3, h4⟩ := modifyFsel_ok h
    have r1 := (regRead_running h1).trans hr
    have r2 := (regWrite_running h2).trans r1
    have r3 := (regRead_running h3).trans r2
    simp only [startOperation, pinOp_eq hs, readField, h1]
    refine .more r1 ?_
    simp only [continueOperation, writeField, h2]
    refine .more r2 ?_
    simp only [continueOperation, readField, h3]
    refine .more r3 ?_
    simp only [continueOperation, writeField, h4]
    exact .done _

/-! ### The poll loop by iterations -/

theorem readInput_ok_ready {p : PinNo} {s t : State} {b : Bool} (h : readInput p s = .ok (b, t)) :
    Ready s ∧ pinLegal p := by
  obtain ⟨hm, hp, h⟩ := pinOp_ok h
  refine ⟨⟨hm, ?_⟩, hp⟩
  split at h
  · cases h
  · rename_i v s1 hr
    unfold regRead at hr
    split at hr
    · cases hr
    · rename_i hn
      have := (accessRefusal_none hn).2
      omega

theorem writeCounter_writeCounter (s : State) (ph : PollPhase) (v w : Count) :
    writeCounter (writeCounter s ph v) ph w = writeCounter s ph w := by
  cases ph <;> simp [writeCounter, writeCnt, Vector.setIfInBounds_setIfInBounds]

theorem writeCnt_self (s : State) (k : Nat) : writeCnt s k (readCnt s k) = s := by
  have h : s.cnt.setIfInBounds k (s.cnt[k]?.getD 0) = s.cnt := by
    apply Vector.ext
    intro j hj
    rw [Vector.getElem_setIfInBounds hj]
    split
    · subst k; simp [hj]
    · rfl
  simp only [writeCnt, readCnt, h]

theorem writeCounter_self (s : State) (ph : PollPhase) :
    writeCounter s ph (readCounter s ph) = s := by
  cases ph with
  | waitResponse => rfl
  | sampleLow i => exact writeCnt_self s _
  | sampleHigh i => exact writeCnt_self s _

theorem afterReads_writeCounter (s : State) (ph : PollPhase) (v : Count) (n : Nat) :
    afterReads (writeCounter s ph v) n = writeCounter (afterReads s n) ph v := by
  cases ph <;> rfl

theorem levelAt_writeCounter (s : State) (ph : PollPhase) (v : Count) (k : Nat) :
    levelAt (writeCounter s ph v) k = levelAt s k := by
  cases ph <;> rfl

theorem readCounter_afterReads (s : State) (ph : PollPhase) (n : Nat) :
    readCounter (afterReads s n) ph = readCounter s ph := by
  cases ph <;> rfl

/-- One poll iteration when the register block may be read (R126). -/
theorem pollEvent_ready {level : Bool} {ph : PollPhase} {s : State} (hr : Ready s)
    (hp : pinLegal s.pin) :
    pollEvent level ph s =
      if levelAt s 0 ≠ level then .ok (afterReads s 1, none)
      else
        let s2 := writeCounter (afterReads s 1) ph
          (BitVec.ofNat 32 ((readCounter s ph).toNat + 1))
        if s.params.maxCount ≤ (readCounter s ph).toNat + 1 then
          .ok (raiseNext .timeoutError (some ph) s2)
        else .ok (s2, some (.poll level ph)) := by
  unfold pollEvent
  rw [readInput_eq hr hp]
  rfl

/-- The iterations of a polling operation add up to its loop: `n` samples at its level, then its end
by the transition or at the ceiling. -/
theorem pollEvent_ends {b level : Bool} {ph : PollPhase} (n : Nat) :
    ∀ (s : State) (c : Nat), Ready s → pinLegal s.pin → s.running = b →
      s.params.maxCount ≤ 2 ^ 32 - 1 → c = (readCounter s ph).toNat →
      (∀ k, k < n → levelAt s k = level) → (n = 0 ∨ c + n < s.params.maxCount) →
      (levelAt s n ≠ level → EndsIn b (pollEvent level ph s)
        (writeCounter (afterReads s (n + 1)) ph (BitVec.ofNat 32 (c + n)))) ∧
      (levelAt s n = level → s.params.maxCount ≤ c + n + 1 → EndsIn b (pollEvent level ph s)
        (raiseError .timeoutError (some ph)
          (writeCounter (afterReads s (n + 1)) ph (BitVec.ofNat 32 (c + n + 1))))) := by
  induction n with
  | zero =>
    intro s c hr hp hb hm hc _ _
    subst hc
    rw [pollEvent_ready hr hp]
    refine ⟨fun hl => ?_, fun hl hx => ?_⟩
    · rw [if_pos hl]
      have h := writeCounter_self (afterReads s 1) ph
      rw [readCounter_afterReads] at h
      simp only [Nat.add_zero, Nat.zero_add, BitVec.ofNat_toNat, BitVec.setWidth_eq, h]
      exact .done _
    · rw [if_neg (by simpa using hl)]
      simp only [Nat.add_zero, Nat.zero_add] at hx ⊢
      rw [if_pos hx]
      exact raiseNext_ends (by cases ph <;> exact hb) _ _
  | succ n ih =>
    intro s c hr hp hb hm hc hk hn
    subst hc
    have hlt : (readCounter s ph).toNat + (n + 1) < s.params.maxCount := by omega
    have h0 : levelAt s 0 = level := hk 0 (by omega)
    rw [pollEvent_ready hr hp, if_neg (by simpa using h0)]
    simp only
    rw [if_neg (by omega)]
    have hu : ∀ u, u = writeCounter (afterReads s 1) ph
        (BitVec.ofNat 32 ((readCounter s ph).toNat + 1)) →
        u.mapped = s.mapped ∧ u.params = s.params ∧ u.pin = s.pin ∧ u.running = s.running := by
      rintro u rfl
      cases ph <;> exact ⟨rfl, rfl, rfl, rfl⟩
    obtain ⟨u1, u2, u3, u4⟩ := hu _ rfl
    have hcnt : (readCounter s ph).toNat + 1 = (readCounter (writeCounter (afterReads s 1) ph
        (BitVec.ofNat 32 ((readCounter s ph).toNat + 1))) ph).toNat := by
      rw [readCounter_writeCounter, BitVec.toNat_ofNat]
      omega
    obtain ⟨i1, i2⟩ := ih _ _ (show Ready _ from ⟨u1.trans hr.1, by rw [u2]; exact hr.2⟩)
      (by rw [u3]; exact hp) (u4.trans hb) (by rw [u2]; exact hm) hcnt
      (fun k h => by
        rw [levelAt_writeCounter, levelAt_afterReads, Nat.add_comm]
        exact hk (k + 1) (by omega))
      (.inr (by rw [u2]; omega))
    rw [u2] at i2
    rw [levelAt_writeCounter, levelAt_afterReads, Nat.add_comm 1 n, afterReads_writeCounter,
      writeCounter_writeCounter, afterReads_add] at i1 i2
    have e1 : (readCounter s ph).toNat + 1 + n = (readCounter s ph).toNat + (n + 1) := by omega
    have e2 : 1 + (n + 1) = n + 1 + 1 := by omega
    rw [e1, e2] at i1 i2
    exact ⟨fun hl => .more (u4.trans hb) (i1 hl), fun hl hx => .more (u4.trans hb) (i2 hl hx)⟩

theorem pollPhase_ok_ready {level : Bool} {ph : PollPhase} {s t : State}
    (h : pollPhase level ph s = .ok t) : Ready s ∧ pinLegal s.pin := by
  unfold pollPhase pollLoop at h
  split at h
  · cases h
  · rename_i e he
    split at he
    · cases he
    · rename_i b s1 hr
      exact readInput_ok_ready hr

theorem pollPhase_ends {b level : Bool} {ph : PollPhase} {s t : State} (hb : s.running = b)
    (hm : s.params.maxCount ≤ 2 ^ 32 - 1) (h : pollPhase level ph s = .ok t) :
    EndsIn b (pollEvent level ph s) t := by
  obtain ⟨hr, hp⟩ := pollPhase_ok_ready h
  obtain ⟨n, hk, hn, ⟨hl, he⟩ | ⟨hl, hx, he⟩⟩ := pollPhase_spec (level := level) (ph := ph) hr hp
  all_goals
    obtain ⟨h1, h2⟩ := pollEvent_ends n s _ hr hp hb hm rfl hk hn
    cases he.symm.trans h
  · exact h1 hl
  · exact h2 hl hx

/-! ### The operations -/

theorem wholeOperation_ends {b : Bool} {i : Instr} {s t : State} (h : exec i s = .next t) :
    EndsIn b (wholeOperation i s) t := by
  unfold wholeOperation
  rw [h]
  exact .done t

/-- The events of an operation add up to its meaning. The bound on the ceiling is R10's. -/
theorem startOperation_ends {b : Bool} {i : Instr} {s t : State} (hb : s.running = b)
    (hm : s.params.maxCount ≤ 2 ^ 32 - 1) (h : exec i s = .next t) :
    EndsIn b (startOperation i s) t := by
  cases i with
  | ensuremapped => cases h; exact mapEvent_ends hb
  | setinput p => exact setInput_ends hb (answer_next h)
  | setoutput p => exact setOutput_ends hb (answer_next h)
  | waitresp => exact pollPhase_ends hb hm (answer_next h)
  | cntlow k =>
    replace h : execCntlow k s = .next t := h
    unfold execCntlow at h
    split at h
    · rename_i n hn
      simp only [startOperation, hn]
      exact pollPhase_ends hb hm (answer_next h)
    · cases h
  | cnthigh k =>
    replace h : execCnthigh k s = .next t := h
    unfold execCnthigh at h
    split at h
    · rename_i n hn
      simp only [startOperation, hn]
      exact pollPhase_ends hb hm (answer_next h)
    · cases h
  | _ => exact wholeOperation_ends h

/-- The advance of a whole slot is the advance of its last event and, at the end, the event `Result`. -/
theorem afterSlot_eq (s : State) :
    afterSlot s =
      if (nextSlot s).upc.val = 96 then attemptEnd (nextSlot s) else nextSlot s := by
  unfold afterSlot nextSlot
  by_cases h : s.upc.val = 96
  · simp [h]
  · by_cases h' : s.upc.val = 95
    · simp [h']
    · have e : (s.upc.val + 1) % 97 ≠ 96 := by omega
      simp [h, h', e]

/-! ### `nextSlot`: the index and the phase only -/

@[simp] theorem nextSlot_pin (s : State) : (nextSlot s).pin = s.pin := by
  unfold nextSlot
  split
  · rfl
  · split <;> rfl
@[simp] theorem nextSlot_cnt (s : State) : (nextSlot s).cnt = s.cnt := by
  unfold nextSlot
  split
  · rfl
  · split <;> rfl
@[simp] theorem nextSlot_wcnt (s : State) : (nextSlot s).wcnt = s.wcnt := by
  unfold nextSlot
  split
  · rfl
  · split <;> rfl
@[simp] theorem nextSlot_thr (s : State) : (nextSlot s).thr = s.thr := by
  unfold nextSlot
  split
  · rfl
  · split <;> rfl
@[simp] theorem nextSlot_dat (s : State) : (nextSlot s).dat = s.dat := by
  unfold nextSlot
  split
  · rfl
  · split <;> rfl
@[simp] theorem nextSlot_res (s : State) : (nextSlot s).res = s.res := by
  unfold nextSlot
  split
  · rfl
  · split <;> rfl
@[simp] theorem nextSlot_mapped (s : State) : (nextSlot s).mapped = s.mapped := by
  unfold nextSlot
  split
  · rfl
  · split <;> rfl
@[simp] theorem nextSlot_prio (s : State) : (nextSlot s).prio = s.prio := by
  unfold nextSlot
  split
  · rfl
  · split <;> rfl
@[simp] theorem nextSlot_err (s : State) : (nextSlot s).err = s.err := by
  unfold nextSlot
  split
  · rfl
  · split <;> rfl
@[simp] theorem nextSlot_errPhase (s : State) : (nextSlot s).errPhase = s.errPhase := by
  unfold nextSlot
  split
  · rfl
  · split <;> rfl
@[simp] theorem nextSlot_fsel (s : State) : (nextSlot s).fsel = s.fsel := by
  unfold nextSlot
  split
  · rfl
  · split <;> rfl
@[simp] theorem nextSlot_out (s : State) : (nextSlot s).out = s.out := by
  unfold nextSlot
  split
  · rfl
  · split <;> rfl
@[simp] theorem nextSlot_params (s : State) : (nextSlot s).params = s.params := by
  unfold nextSlot
  split
  · rfl
  · split <;> rfl
@[simp] theorem nextSlot_running (s : State) : (nextSlot s).running = s.running := by
  unfold nextSlot
  split
  · rfl
  · split <;> rfl
@[simp] theorem nextSlot_calls (s : State) : (nextSlot s).calls = s.calls := by
  unfold nextSlot
  split
  · rfl
  · split <;> rfl
@[simp] theorem nextSlot_line (s : State) : (nextSlot s).line = s.line := by
  unfold nextSlot
  split
  · rfl
  · split <;> rfl
@[simp] theorem nextSlot_lineReads (s : State) : (nextSlot s).lineReads = s.lineReads := by
  unfold nextSlot
  split
  · rfl
  · split <;> rfl
@[simp] theorem nextSlot_mapper (s : State) : (nextSlot s).mapper = s.mapper := by
  unfold nextSlot
  split
  · rfl
  · split <;> rfl
@[simp] theorem nextSlot_mapReqs (s : State) : (nextSlot s).mapReqs = s.mapReqs := by
  unfold nextSlot
  split
  · rfl
  · split <;> rfl
@[simp] theorem nextSlot_trace (s : State) : (nextSlot s).trace = s.trace := by
  unfold nextSlot
  split
  · rfl
  · split <;> rfl
@[simp] theorem nextSlot_readback (s : State) : (nextSlot s).readback = s.readback := by
  unfold nextSlot
  split
  · rfl
  · split <;> rfl

/-! ### Refusals -/

theorem answer_refused {x : Access State} {r : Refusal} (h : answer x = .refused r) :
    x = .error r := by
  cases x with
  | error e => cases h; rfl
  | ok t => cases h

theorem regRead_fsel_gate {w : Nat} (hw : w < 6) (s : State) :
    regRead w s = match accessRefusal w s with
      | some r => .error r
      | none => .ok (readFsel s w, emit (.busRead w (readFsel s w)) s) := by
  unfold regRead
  cases accessRefusal w s <;> simp [hw]

theorem regWrite_fsel_gate {w : Nat} (hw : w < 6) (v : Word) (s : State) :
    regWrite w v s = match accessRefusal w s with
      | some r => .error r
      | none => .ok (emit (.busWrite w v) { s with fsel := s.fsel.setIfInBounds w v }) := by
  unfold regWrite
  cases accessRefusal w s <;> simp [hw]

/-- A read-modify-write is refused at its read or not at all. -/
theorem modifyFsel_gate {p : PinNo} (hp : pinLegal p) (f : Word → Word) (s : State) :
    modifyFsel p f s = match accessRefusal (regIndex p) s with
      | some r => .error r
      | none => .ok (afterModify s p f) := by
  unfold modifyFsel
  rw [regRead_fsel_gate (regIndex_lt_six hp)]
  cases hg : accessRefusal (regIndex p) s with
  | some r => rfl
  | none =>
    have hg' : accessRefusal (regIndex p)
        (emit (.busRead (regIndex p) (readFsel s (regIndex p))) s) = none := hg
    simp only [regWrite_fsel_gate (regIndex_lt_six hp), hg']
    rfl

theorem setInput_refused {p : PinNo} {s : State} {r : Refusal} (h : setInput p s = .error r)
    (k : Word → Pending) : pinOp p s (readField p k s) = .error r := by
  unfold setInput pinOp at h
  unfold pinOp
  split at h
  · rename_i hm
    rw [if_pos hm]
    cases h
    rfl
  · rename_i hm
    rw [if_neg hm]
    split at h
    · rename_i hp
      rw [modifyFsel_gate hp] at h
      rw [if_pos hp]
      unfold readField
      rw [regRead_fsel_gate (regIndex_lt_six hp)]
      cases hg : accessRefusal (regIndex p) s with
      | some r' =>
        rw [hg] at h
        cases h
        rfl
      | none =>
        rw [hg] at h
        cases h
    · rename_i hp
      rw [if_neg hp]
      cases h
      rfl

theorem setOutput_refused {p : PinNo} {s : State} {r : Refusal} (h : setOutput p s = .error r) :
    setInput p s = .error r := by
  unfold setOutput at h
  split at h
  · rename_i r' hs
    cases h
    exact hs
  · rename_i s1 hs
    obtain ⟨-, hp, hm⟩ := pinOp_ok hs
    rw [modifyFsel_gate hp] at hm h
    cases hg : accessRefusal (regIndex p) s with
    | some r' =>
      rw [hg] at hm
      cases hm
    | none =>
      rw [hg] at hm
      cases hm
      have hg' : accessRefusal (regIndex p) (afterModify s p fun v => v &&& ~~~fselMask p) = none :=
        hg
      rw [hg'] at h
      cases h

theorem pollPhase_refused {level : Bool} {ph : PollPhase} {s : State} {r : Refusal}
    (h : pollPhase level ph s = .error r) : pollEvent level ph s = .error r := by
  unfold pollEvent
  cases hr : readInput s.pin s with
  | error e =>
    unfold pollPhase pollLoop at h
    rw [hr] at h
    cases h
    rfl
  | ok x =>
    obtain ⟨hR, hp⟩ := readInput_ok_ready (b := x.1) (t := x.2) hr
    obtain ⟨n, -, -, ⟨-, he⟩ | ⟨-, -, he⟩⟩ := pollPhase_spec (level := level) (ph := ph) hR hp
    all_goals
      rw [he] at h
      cases h

/-- An operation that is refused is refused before its first event, for the same reason. -/
theorem startOperation_refused {s : State} {i : Instr} {r : Refusal} (h : exec i s = .refused r) :
    startOperation i s = .error r := by
  cases i with
  | ensuremapped => cases h
  | setinput p => exact setInput_refused (answer_refused h) _
  | setoutput p => exact setInput_refused (setOutput_refused (answer_refused h)) _
  | waitresp => exact pollPhase_refused (answer_refused h)
  | cntlow k =>
    replace h : execCntlow k s = .refused r := h
    unfold execCntlow at h
    split at h
    · rename_i n hn
      simp only [startOperation, hn]
      exact pollPhase_refused (answer_refused h)
    · rename_i hn
      cases h
      simp only [startOperation, hn]
  | cnthigh k =>
    replace h : execCnthigh k s = .refused r := h
    unfold execCnthigh at h
    split at h
    · rename_i n hn
      simp only [startOperation, hn]
      exact pollPhase_refused (answer_refused h)
    · rename_i hn
      cases h
      simp only [startOperation, hn]
  | _ => simp only [startOperation, wholeOperation, h]

/-! ### The parameters of a step (R13) -/

/-- The state a step with its parameters is computed in: the machine's, with the next answers only. -/
theorem withInput_nextInput (f : EventState) :
    f.engine.withInput (nextInput f.st) =
      { st := { f.st with
          calls := f.st.calls.head?.toList
          line := [nextLev f.st]
          lineReads := 0
          mapper := [nextMapper f.st]
          mapReqs := 0
          trace := [] }
        pending := f.pending } := rfl

end Sys2Proof.Machine
end

