-- ==== Sys2Proof/Laws/PerInstr.lean ====
section
/-! SUPPORT. Per-instruction families. `TableRow`: the word of every operation, whatever its operands, has the
fixed bits of its row of spec/opcode_table.json (spec 30_encoding.md R72). -/

namespace Sys2Proof.Laws.TableRow

open Sys2Proof

/-- The mask of the instruction's row in spec/opcode_table.json. -/
def rowMask (i : Instr) : OpWord :=
  match i with
  | .setinput _ | .setoutput _ | .sethigh _ | .setlow _ | .readinput _ | .cntlow _ | .cnthigh _ =>
    0xFFC0
  | .sleepc _ | .waitp _ => 0xF800
  | .ensuremapped | .readdata | .settle | .prioup | .priodn | .waitresp | .thresh | .decbits
  | .chksum => 0xFFFF

/-- The pattern of the instruction's row in spec/opcode_table.json. -/
def rowMatch (i : Instr) : OpWord :=
  match i with
  | .ensuremapped => 0x0000
  | .setinput _ => 0x0800
  | .setoutput _ => 0x1000
  | .sethigh _ => 0x1800
  | .setlow _ => 0x2000
  | .readinput _ => 0x2800
  | .readdata => 0x3000
  | .sleepc _ => 0x4000
  | .waitp _ => 0x4800
  | .settle => 0x5000
  | .prioup => 0x5800
  | .priodn => 0x6000
  | .waitresp => 0x6800
  | .cntlow _ => 0x7000
  | .cnthigh _ => 0x7800
  | .thresh => 0x8000
  | .decbits => 0x8800
  | .chksum => 0x9000

/-- The word of the instruction matches its own row of the opcode table. -/
def Statement (i : Instr) : Prop := encode i &&& rowMask i = rowMatch i

/-- The fixed bits of formats P and I do not depend on the operand. -/
theorem low_fixed (op : BitVec 5) (x : BitVec 6) : encodeLow op x &&& 0xFFC0 = encodeLow op 0 := by
  apply BitVec.eq_of_getLsbD_eq
  intro k hk
  unfold encodeLow
  simp only [BitVec.getLsbD_and, BitVec.getLsbD_append]
  interval_cases k <;> simp

/-- The fixed bits of format T do not depend on the time. -/
theorem time_fixed (op : BitVec 5) (ms : Millis) : encodeT op ms &&& 0xF800 = encodeT op 0 := by
  apply BitVec.eq_of_getLsbD_eq
  intro k hk
  unfold encodeT
  simp only [BitVec.getLsbD_and, BitVec.getLsbD_append]
  interval_cases k <;> simp

theorem ensuremapped : Statement .ensuremapped := rfl
theorem setinput (p : PinNo) : Statement (.setinput p) := low_fixed 1 p
theorem setoutput (p : PinNo) : Statement (.setoutput p) := low_fixed 2 p
theorem sethigh (p : PinNo) : Statement (.sethigh p) := low_fixed 3 p
theorem setlow (p : PinNo) : Statement (.setlow p) := low_fixed 4 p
theorem readinput (p : PinNo) : Statement (.readinput p) := low_fixed 5 p
theorem readdata : Statement .readdata := rfl
theorem sleepc (ms : Millis) : Statement (.sleepc ms) := time_fixed 8 ms
theorem waitp (ms : Millis) : Statement (.waitp ms) := time_fixed 9 ms
theorem settle : Statement .settle := rfl
theorem prioup : Statement .prioup := rfl
theorem priodn : Statement .priodn := rfl
theorem waitresp : Statement .waitresp := rfl
theorem cntlow (k : PulseNo) : Statement (.cntlow k) := low_fixed 14 k
theorem cnthigh (k : PulseNo) : Statement (.cnthigh k) := low_fixed 15 k
theorem thresh : Statement .thresh := rfl
theorem decbits : Statement .decbits := rfl
theorem chksum : Statement .chksum := rfl

end Sys2Proof.Laws.TableRow
end

