-- ==== Sys2Proof/Laws/Pins.lean ====
section
/-! SUPPORT. The bits of a pin in its function-select word and in the latch (spec 30_encoding.md R73 to
R75; 41_pin_controller.md R101 to R104). -/

namespace Sys2Proof.Machine

open Sys2Proof.Safety

/-! ### Masks, bit by bit -/

theorem bitOffset_le (p : PinNo) : bitOffset p ≤ 27 := by
  unfold bitOffset fselPerWord fselW
  omega

theorem fselMask_bit (p : PinNo) (n : Nat) (hn : n < 32) :
    (fselMask p).getLsbD n = decide (bitOffset p ≤ n ∧ n < bitOffset p + 3) := by
  have h7 : ∀ k, (0b111#32).getLsbD k = decide (k < 3) := by
    intro k
    by_cases hk : k < 32
    · interval_cases k <;> rfl
    · rw [BitVec.getLsbD_of_ge _ _ (by omega)]
      simp
      omega
  unfold fselMask
  rw [BitVec.getLsbD_shiftLeft, h7, Bool.eq_iff_iff]
  simp
  omega

theorem fselOut_bit (p : PinNo) (n : Nat) (hn : n < 32) :
    (fselOut p).getLsbD n = decide (n = bitOffset p) := by
  have h1 : ∀ k, (0b001#32).getLsbD k = decide (k = 0) := by
    intro k
    by_cases hk : k < 32
    · interval_cases k <;> rfl
    · rw [BitVec.getLsbD_of_ge _ _ (by omega)]
      simp
      omega
  unfold fselOut
  rw [BitVec.getLsbD_shiftLeft, h1, Bool.eq_iff_iff]
  simp
  omega

theorem clear_bit (p : PinNo) (v : Word) (n : Nat) :
    (v &&& ~~~fselMask p).getLsbD n =
      (v.getLsbD n && !decide (bitOffset p ≤ n ∧ n < bitOffset p + 3)) := by
  by_cases hn : n < 32
  · rw [BitVec.getLsbD_and, BitVec.getLsbD_not, fselMask_bit p n hn]
    simp [hn]
  · rw [BitVec.getLsbD_of_ge _ _ (by omega), BitVec.getLsbD_of_ge _ _ (by omega)]
    rfl

theorem set_bit (p : PinNo) (v : Word) (n : Nat) :
    (v ||| fselOut p).getLsbD n = (v.getLsbD n || decide (n = bitOffset p)) := by
  by_cases hn : n < 32
  · rw [BitVec.getLsbD_or, fselOut_bit p n hn]
  · have := bitOffset_le p
    rw [BitVec.getLsbD_of_ge _ _ (by omega), BitVec.getLsbD_of_ge _ _ (by omega)]
    simp
    omega

/-! ### The function field (R74) -/

theorem fieldOf_bit (v : Word) (p : PinNo) (k : Nat) (hk : k < 3) :
    (fieldOf v p).getLsbD k = v.getLsbD (bitOffset p + k) := by
  unfold fieldOf
  rw [BitVec.getLsbD_extractLsb']
  simp [hk]

theorem fieldOf_clear (v : Word) (p : PinNo) : fieldOf (v &&& ~~~fselMask p) p = fselInput := by
  apply BitVec.eq_of_getLsbD_eq
  intro i hi
  rw [fieldOf_bit _ _ _ hi, clear_bit]
  simp [fselInput]
  omega

theorem fieldOf_output (v : Word) (p : PinNo) :
    fieldOf ((v &&& ~~~fselMask p) ||| fselOut p) p = fselOutput := by
  apply BitVec.eq_of_getLsbD_eq
  intro i hi
  rw [fieldOf_bit _ _ _ hi, set_bit, clear_bit]
  interval_cases i <;> simp [fselOutput]

/-- Another pin of the same word has a field that does not overlap (R73). -/
theorem fieldOf_other {v v' : Word} {p q : PinNo} (hr : regIndex p = regIndex q) (hne : q ≠ p)
    (h : ∀ n, n < bitOffset p ∨ bitOffset p + 3 ≤ n → v'.getLsbD n = v.getLsbD n) :
    fieldOf v' q = fieldOf v q := by
  have hne' : q.toNat ≠ p.toNat := fun h => hne (BitVec.eq_of_toNat_eq h)
  apply BitVec.eq_of_getLsbD_eq
  intro i hi
  rw [fieldOf_bit _ _ _ hi, fieldOf_bit _ _ _ hi, h]
  unfold bitOffset regIndex fselPerWord fselW at *
  omega

/-! ### Read-modify-write of a function-select word -/

theorem readFsel_afterModify {s : State} {p : PinNo} (hp : pinLegal p) (f : Word → Word) (n : Nat) :
    readFsel (afterModify s p f) n =
      if n = regIndex p then f (readFsel s (regIndex p)) else readFsel s n :=
  readFsel_set (s := s) (regIndex_lt_six hp) _

theorem pinFunction_afterModify {s : State} {p : PinNo} (hp : pinLegal p) (f : Word → Word) :
    pinFunction (afterModify s p f) p = fieldOf (f (readFsel s (regIndex p))) p := by
  unfold pinFunction
  rw [readFsel_afterModify hp, if_pos rfl]

theorem pinFunction_afterModify_other {s : State} {p q : PinNo} (hp : pinLegal p) (hne : q ≠ p)
    {f : Word → Word}
    (h : ∀ v n, n < bitOffset p ∨ bitOffset p + 3 ≤ n → (f v).getLsbD n = v.getLsbD n) :
    pinFunction (afterModify s p f) q = pinFunction s q := by
  unfold pinFunction
  rw [readFsel_afterModify hp]
  by_cases hr : regIndex q = regIndex p
  · rw [if_pos hr, hr]
    exact fieldOf_other hr.symm hne (h _)
  · rw [if_neg hr]

theorem clear_keeps (p : PinNo) (v : Word) (n : Nat) (h : n < bitOffset p ∨ bitOffset p + 3 ≤ n) :
    (v &&& ~~~fselMask p).getLsbD n = v.getLsbD n := by
  rw [clear_bit, decide_eq_false (by omega)]
  simp

theorem set_keeps (p : PinNo) (v : Word) (n : Nat) (h : n < bitOffset p ∨ bitOffset p + 3 ≤ n) :
    (v ||| fselOut p).getLsbD n = v.getLsbD n := by
  rw [set_bit, decide_eq_false (by omega)]
  simp

/-! ### The latch (R33, R34, R36) -/

theorem pinBit_bit {p : PinNo} (hp : pinLegal p) (n : Nat) :
    (pinBit p).getLsbD n = decide (n = p.toNat) := by
  have hb : pinBit p = BitVec.twoPow 32 p.toNat := rfl
  have hp' : p.toNat ≤ 31 := hp
  rw [hb, BitVec.getLsbD_twoPow, Bool.eq_iff_iff]
  simp
  omega

@[simp] theorem latch_emit (e : Event) (s : State) (q : PinNo) : latch (emit e s) q = latch s q := rfl

@[simp] theorem readFsel_emit (e : Event) (s : State) (n : Nat) :
    readFsel (emit e s) n = readFsel s n := rfl

@[simp] theorem pinFunction_emit (e : Event) (s : State) (q : PinNo) :
    pinFunction (emit e s) q = pinFunction s q := rfl

theorem latch_set {s : State} {p : PinNo} (hp : pinLegal p) (q : PinNo) :
    latch { s with out := s.out ||| pinBit p } q = (latch s q || decide (q = p)) := by
  unfold latch
  rw [BitVec.getLsbD_or, pinBit_bit hp]
  simp [BitVec.toNat_inj]

theorem latch_clear {s : State} {p : PinNo} (hp : pinLegal p) (q : PinNo) :
    latch { s with out := s.out &&& ~~~pinBit p } q = (latch s q && !decide (q = p)) := by
  unfold latch
  rw [BitVec.getLsbD_and, BitVec.getLsbD_not, pinBit_bit hp]
  by_cases hq : q.toNat < 32
  · simp [hq, BitVec.toNat_inj]
  · rw [BitVec.getLsbD_of_ge _ _ (by omega)]
    simp

end Sys2Proof.Machine
end

