-- ==== Sys2Proof/Laws/Run.lean ====
section
/-! SUPPORT. Runs of several steps, and the decode stage of an attempt (slots 93 to 95) as three steps
(spec 43_decode_checksum.md R140). -/

namespace Sys2Proof.Machine

open Sys2Proof.Safety

theorem runSteps_zero (s : State) : runSteps 0 s = .next s := rfl

theorem runSteps_next {k : Nat} {s t : State} (h : step s = .next t) :
    runSteps (k + 1) s = runSteps k t := by
  show (match step s with
    | .next t => runSteps k t
    | .fault f => .fault f
    | .refused r => .refused r) = _
  rw [h]

/-- A run in two parts. -/
theorem runSteps_add {k m : Nat} {s t : State} (h : runSteps k s = .next t) :
    runSteps (k + m) s = runSteps m t := by
  induction k generalizing s with
  | zero =>
    cases h
    rw [Nat.zero_add]
  | succ k ih =>
    cases hs : step s with
    | next u =>
      rw [runSteps_next hs] at h
      rw [Nat.add_right_comm, runSteps_next hs]
      exact ih h
    | fault f => cases f
    | refused r =>
      exfalso
      unfold runSteps at h
      rw [hs] at h
      cases h

/-- The state after slot 93. -/
def afterThresh (s : State) : State :=
  { s with thr := BitVec.ofNat 32 (thresholdSum s / thrN), upc := 94, pc := .decode }

/-- The state after slot 94. -/
def afterDecbits (s : State) : State :=
  { s with dat := (List.range' decFirst nBits).foldl (decodePulse s) s.dat, upc := 95, pc := .decode }

theorem step_thresh {s : State} (hr : s.running = true) (hu : s.upc.val = 93) :
    step s = .next (afterThresh s) := by
  rw [step_of_slot hr (i := .thresh) (by rw [hu]; rfl) rfl,
    afterSlot_next (by show s.upc.val < 95; omega)]
  simp only [hu]
  rfl

theorem step_decbits {s : State} (hr : s.running = true) (hu : s.upc.val = 94) :
    step s = .next (afterDecbits s) := by
  rw [step_of_slot hr (i := .decbits) (by rw [hu]; rfl) rfl,
    afterSlot_next (by show s.upc.val < 95; omega)]
  simp only [hu]
  rfl

theorem step_chksum {s : State} (hr : s.running = true) (hu : s.upc.val = 95) :
    step s = .next (if frameValid s
      then attemptEnd { s with res := some (readingOf s), pc := .done, upc := 96 }
      else attemptEnd (raiseError .checksumError none s)) := by
  cases hv : frameValid s
  · have he : exec .chksum s = .next (raiseError .checksumError none s) := by
      show execChksum s = _
      unfold execChksum
      rw [hv]
      rfl
    rw [step_of_slot hr (i := .chksum) (by rw [hu]; rfl) he, afterSlot_error rfl]
    rfl
  · have he : exec .chksum s = .next { s with res := some (readingOf s), pc := .done } := by
      show execChksum s = _
      unfold execChksum
      rw [hv]
      rfl
    rw [step_of_slot hr (i := .chksum) (by rw [hu]; rfl) he, afterSlot_last (by exact hu)]
    rfl

/-- The three steps of the decode stage. -/
theorem run_decode_stage {s : State} (hr : s.running = true) (hu : s.upc.val = 93) :
    runSteps 3 s = .next (if frameValid (afterDecbits (afterThresh s))
      then attemptEnd { afterDecbits (afterThresh s) with
        res := some (readingOf (afterDecbits (afterThresh s))), pc := .done, upc := 96 }
      else attemptEnd (raiseError .checksumError none (afterDecbits (afterThresh s)))) := by
  rw [runSteps_next (step_thresh hr hu), runSteps_next (step_decbits (s := afterThresh s) hr rfl),
    runSteps_next (step_chksum (s := afterDecbits (afterThresh s)) hr rfl), runSteps_zero]

end Sys2Proof.Machine
end

