-- ==== Sys2Proof/Tests/Slice0.lean ====
section
/-! SUPPORT. The model's own tests. Expected results are the spec's: the vectors of 95_test_vectors.md
(named in each comment) and the rules' own examples. The second half holds one witness per obligation:
concrete states and operands that meet its hypotheses. -/

namespace Sys2Proof.Tests

open Sys2Proof Sys2Proof.Machine Sys2Proof.Safety

/-! ### Small states -/

/-- A configuration with a small ceiling. -/
def cfg : Params := ⟨3, 50, 0, 56, 0, 0⟩

/-- Unspecified contents for a test: the spec allows any. -/
def contents : Unspecified where
  cnt := Vector.replicate 82 0
  wcnt := 0
  thr := 0
  dat := Vector.replicate 5 0
  fsel := Vector.replicate 6 0
  out := 0

/-- Right after construction with pin 4. -/
def s0 : State := State.fresh cfg 4 contents

/-- The same with the register block mapped. -/
def m0 : State := { s0 with mapped := true }

/-- The mapped state with one function-select word set. -/
def withFsel (n : Nat) (v : Word) : State := { m0 with fsel := m0.fsel.setIfInBounds n v }

/-- The mapped state with the coming level words and a ceiling. -/
def withLine (ceiling : Nat) (line : List Word) : State :=
  { m0 with params := ⟨ceiling, 50, 0, 56, 0, 0⟩, line := line }

/-- A part of the next state, if there is one. -/
def get {α : Type} (f : State → α) (r : StepResult) : Option α :=
  match r with
  | .next s => some (f s)
  | .fault _ => none
  | .refused _ => none

/-- The refusal of a step, if it is one. -/
def refusal (r : StepResult) : Option Refusal :=
  match r with
  | .next _ => none
  | .fault _ => none
  | .refused e => some e

/-- The level word of pin 4 high, and low. -/
def hi : Word := 0x00000010
def lo : Word := 0xFFFFFFEF

/-! ### Well-formedness smoke tests: an ill-formed term for each check (R80) -/

theorem test_illformed_setinput : (Instr.setinput 32).wellFormed = false := by decide
theorem test_illformed_setoutput : (Instr.setoutput 32).wellFormed = false := by decide
theorem test_illformed_sethigh : (Instr.sethigh 33).wellFormed = false := by decide
theorem test_illformed_setlow : (Instr.setlow 63).wellFormed = false := by decide
theorem test_illformed_readinput : (Instr.readinput 32).wellFormed = false := by decide
theorem test_illformed_cntlow : (Instr.cntlow 41).wellFormed = false := by decide
theorem test_illformed_cnthigh : (Instr.cnthigh 63).wellFormed = false := by decide
theorem test_wellformed_edges :
    (Instr.setinput 31).wellFormed = true ∧ (Instr.cnthigh 40).wellFormed = true ∧
      (Instr.sleepc 2047).wellFormed = true := by decide

/-! ### Decoding: words written out bit by bit from R72, one per operation -/

theorem test_decode_ensuremapped : decode 0b00000_00000000000 = .op .ensuremapped := by decide
theorem test_decode_setinput : decode 0b00001_00000_011111 = .op (.setinput 31) := by decide
theorem test_decode_setoutput : decode 0b00010_00000_000100 = .op (.setoutput 4) := by decide
theorem test_decode_sethigh : decode 0b00011_00000_010110 = .op (.sethigh 22) := by decide
theorem test_decode_setlow : decode 0b00100_00000_000000 = .op (.setlow 0) := by decide
theorem test_decode_readinput : decode 0b00101_00000_010001 = .op (.readinput 17) := by decide
theorem test_decode_readdata : decode 0b00110_00000000000 = .op .readdata := by decide
theorem test_decode_sleepc : decode 0b01000_00111110100 = .op (.sleepc 500) := by decide
theorem test_decode_waitp : decode 0b01001_00000010100 = .op (.waitp 20) := by decide
theorem test_decode_settle : decode 0b01010_00000000000 = .op .settle := by decide
theorem test_decode_prioup : decode 0b01011_00000000000 = .op .prioup := by decide
theorem test_decode_priodn : decode 0b01100_00000000000 = .op .priodn := by decide
theorem test_decode_waitresp : decode 0b01101_00000000000 = .op .waitresp := by decide
theorem test_decode_cntlow : decode 0b01110_00000_010100 = .op (.cntlow 20) := by decide
theorem test_decode_cnthigh : decode 0b01111_00000_101000 = .op (.cnthigh 40) := by decide
theorem test_decode_thresh : decode 0b10000_00000000000 = .op .thresh := by decide
theorem test_decode_decbits : decode 0b10001_00000000000 = .op .decbits := by decide
theorem test_decode_chksum : decode 0b10010_00000000000 = .op .chksum := by decide

/-- X2, X4, X5, X8, X15, X17, X18. -/
theorem test_decode_refused :
    decode 0x0001 = .bad .argumentNotZero ∧ decode 0x0820 = .bad .pinAbove31 ∧
      decode 0x0840 = .bad .middleNotZero ∧ decode 0x3800 = .bad .reservedOp ∧
      decode 0x7029 = .bad .indexAbove40 ∧ decode 0x9800 = .bad .reservedOp ∧
      decode 0xFFFF = .bad .reservedOp := by decide

/-- The host's numbering of a table row: 16 bits, nothing shorter or longer gives another word. -/
theorem test_decodeTableWord :
    decodeTableWord 16 0x1004 = some (.setoutput 4) ∧ decodeTableWord 16 0x10000 = none := by decide

/-- A placed word is what the very next step runs (`SLEEPC 500`, X9). -/
theorem test_withFetchWord :
    get (·.trace) (step (s0.withFetchWord 16 0x41F4)) = some [.sleep 500] := by decide

/-! ### Pin arithmetic -/

/-- V2, V5, V9. -/
theorem test_pin_arithmetic :
    (regIndex 4, bitOffset 4, fselMask 4, fselOut 4, pinBit 4) =
      (0, 12, 0x00007000, 0x00001000, 0x00000010) ∧
    (regIndex 17, bitOffset 17, fselMask 17, fselOut 17, pinBit 17) =
      (1, 21, 0x00E00000, 0x00200000, 0x00020000) ∧
    (regIndex 31, bitOffset 31, fselMask 31, fselOut 31, pinBit 31) =
      (3, 3, 0x00000038, 0x00000008, 0x80000000) := by decide

/-! ### The Pin Controller -/

/-- V13: pin 9, the top field; bits 31 and 30 kept. -/
theorem test_setinput_V13 :
    get (fun s => (readFsel s 0, s.trace)) (exec (.setinput 9) (withFsel 0 0xFFFFFFFF)) =
      some (0xC7FFFFFF, [.busRead 0 0xFFFFFFFF, .busWrite 0 0xC7FFFFFF]) := by decide

/-- V14: pin 31, word 3; pin 30's field kept. -/
theorem test_setinput_V14 :
    get (fun s => readFsel s 3) (exec (.setinput 31) (withFsel 3 0x0000003F)) =
      some 0x00000007 := by decide

/-- V16: the field held `0b010`, becomes `0b001`; four accesses. -/
theorem test_setoutput_V16 :
    get (fun s => (readFsel s 0, s.trace)) (exec (.setoutput 4) (withFsel 0 0x00012240)) =
      some (0x00011240, [.busRead 0 0x00012240, .busWrite 0 0x00010240, .busRead 0 0x00010240,
        .busWrite 0 0x00011240]) := by decide

/-- V19. -/
theorem test_setoutput_V19 :
    get (fun s => readFsel s 2) (exec (.setoutput 22) (withFsel 2 0xFFFFFFFF)) =
      some 0xFFFFFE7F := by decide

/-- V20, V21: the latch bit only, the word written has one bit set. -/
theorem test_sethigh_V20_V21 :
    get (fun s => (s.out, s.trace)) (exec (.sethigh 4) { m0 with out := 0x80000001 }) =
      some (0x80000011, [.busWrite 7 0x00000010]) ∧
    get (fun s => (s.out, s.trace)) (exec (.sethigh 31) m0) =
      some (0x80000000, [.busWrite 7 0x80000000]) := by decide

/-- V22, V23: a 1 in the clear register clears. -/
theorem test_setlow_V22_V23 :
    get (fun s => (s.out, s.trace)) (exec (.setlow 4) { m0 with out := 0xFFFFFFFF }) =
      some (0xFFFFFFEF, [.busWrite 10 0x00000010]) ∧
    get (fun s => (s.out, s.trace)) (exec (.setlow 0) { m0 with out := 0x00000011 }) =
      some (0x00000010, [.busWrite 10 0x00000001]) := by decide

/-- V25: the other 31 bits do not matter. -/
theorem test_readinput_V25 :
    get (fun s => (s.readback, s.line, s.trace))
        (exec (.readinput 4) (withLine 100 [0xFFFFFFEF, 0x10])) =
      some (some false, [0x10], [.busRead 13 0xFFFFFFEF]) := by decide

/-- V26: a truth value, not the masked word. -/
theorem test_readinput_V26 :
    get (·.readback) (exec (.readinput 31) (withLine 100 [0x80000000])) = some (some true) := by
  decide

/-- R66: no access while `mapped = 0`. -/
theorem test_pin_unmapped : refusal (exec (.sethigh 4) s0) = some .notMapped := by decide

/-! ### The Register Mapper -/

/-- M1, with the restricted device unavailable and the privileged one opening (R91). -/
theorem test_ensuremapped_M1 :
    get (fun s => (s.mapped, s.err, s.trace))
        (exec .ensuremapped { s0 with mapper := [⟨false, true, true⟩] }) =
      some (true, .noError, [.mapReq, .mapResp .ok]) := by decide

/-- M2, M3: the device decides first; nothing else happens. -/
theorem test_ensuremapped_M2_M3 :
    get (fun s => (s.mapped, s.err, s.pc, s.upc, s.trace))
        (exec .ensuremapped { s0 with mapper := [⟨false, false, false⟩] }) =
      some (false, .deviceOpenError, .failed, 96, [.mapReq, .mapResp .deviceOpenError]) ∧
    get (fun s => (s.mapped, s.err, s.trace))
        (exec .ensuremapped { s0 with mapper := [⟨true, false, false⟩] }) =
      some (false, .mappingError, [.mapReq, .mapResp .mappingError]) := by decide

/-! ### READDATA, delays, priority -/

/-- After a rejected frame: the start of the next attempt. -/
def afterFailure : State :=
  { m0 with pc := .failed, upc := 96, err := .checksumError, dat := #v[1, 2, 3, 4, 5] }

/-- R113: what an attempt start zeroes. -/
theorem test_readdata_start :
    get (fun s => (s.pc, s.upc.val, s.err, s.running)) (exec .readdata afterFailure) =
      some (.idle, 0, .noError, true) ∧
    get (fun s => (s.dat, s.res)) (exec .readdata afterFailure) =
      some (#v[0, 0, 0, 0, 0], none) := by decide

/-- R131: an overlapping call is refused. -/
theorem test_readdata_overlap :
    refusal (exec .readdata { m0 with running := true, pc := .handshake }) =
      some .overlappingAttempt := by decide

theorem test_sleepc : get (·.trace) (exec (.sleepc 500) s0) = some [.sleep 500] := by decide
theorem test_waitp : get (·.trace) (exec (.waitp 20) s0) = some [.busyWait 20] := by decide
theorem test_settle : get (·.trace) (exec .settle s0) = some [.settle 50] := by decide
theorem test_prioup :
    get (fun s => (s.prio, s.trace)) (exec .prioup s0) = some (.realTime, [.prioUp]) := by decide
theorem test_priodn :
    get (fun s => (s.prio, s.trace)) (exec .priodn { s0 with prio := .realTime }) =
      some (.default, [.prioDown]) := by decide

/-! ### Polling -/

/-- V30: three counted reads, the fourth ends the phase. -/
theorem test_waitresp_V30 :
    get (fun s => (s.wcnt, s.lineReads, s.err)) (exec .waitresp (withLine 100 [hi, hi, hi, lo])) =
      some (3, 4, .noError) := by decide

/-- V39b, with a ceiling of 5: the count is the ceiling, the phase is recorded, the class restored. -/
theorem test_waitresp_timeout :
    get (fun s => (s.wcnt, s.lineReads, s.err, s.errPhase, s.prio))
        (exec .waitresp { withLine 5 [hi, hi, hi, hi, hi, lo] with prio := .realTime }) =
      some (5, 5, .timeoutError, some .waitResponse, .default) := by decide

/-- V32. -/
theorem test_cntlow_V32 :
    get (fun s => (readCnt s 14, s.lineReads)) (exec (.cntlow 7) (withLine 100 [lo, lo, lo, lo, hi])) =
      some (4, 5) := by decide

/-- V39a: a ceiling of 1 times out on the first read. -/
theorem test_cntlow_V39a :
    get (fun s => (readCnt s 14, s.lineReads, s.errPhase)) (exec (.cntlow 7) (withLine 1 [lo])) =
      some (1, 1, some (.sampleLow 7)) := by decide

/-- V35: the largest count a phase can end with. -/
theorem test_cnthigh_V35 :
    get (fun s => (readCnt s 81, s.lineReads, s.err)) (exec (.cnthigh 40) (withLine 3 [hi, hi, lo])) =
      some (2, 3, .noError) := by decide

/-- V36: timeout on the third read; the fourth sample is never read. -/
theorem test_cnthigh_V36 :
    get (fun s => (readCnt s 81, s.line, s.errPhase))
        (exec (.cnthigh 40) (withLine 3 [hi, hi, hi, lo])) =
      some (3, [lo], some (.sampleHigh 40)) := by decide

/-! ### The decode stage -/

/-- The standard counts of a frame (95_test_vectors.md, conventions), with short count `a`, long `b`. -/
def standard (d : Vector Byte 5) (a b : Count) : State :=
  { m0 with
    cnt := Vector.ofFn fun k : Fin 82 =>
      if k.val < 2 then 80 else if k.val % 2 = 0 then 50
      else if frameBit d (k.val / 2 - 1) then b else a }

/-- V40, E7: sum 1470, truncated to 37. -/
theorem test_thresh_V40 :
    get (·.thr) (exec .thresh (standard #v[44, 0, 25, 0, 69] 28 70)) = some 37 := by decide

/-- V65: `thr` is the short count. -/
theorem test_thresh_V65 :
    get (·.thr) (exec .thresh (standard #v[44, 0, 25, 0, 69] 4 8)) = some 4 := by decide

set_option maxRecDepth 8000 in
/-- E4: the frame of the source. -/
theorem test_decbits_E4 :
    get (·.dat) (exec .decbits { standard #v[80, 0, 25, 0, 105] 28 70 with thr := 37 }) =
      some #v[80, 0, 25, 0, 105] := by decide

set_option maxRecDepth 8000 in
/-- V54: pulse 1 equal to the threshold decodes as 1. -/
theorem test_decbits_V54 :
    get (·.dat) (exec .decbits
        { standard #v[44, 0, 25, 0, 69] 28 70 with
          thr := 37
          cnt := (standard #v[44, 0, 25, 0, 69] 28 70).cnt.setIfInBounds 3 37 }) =
      some #v[172, 0, 25, 0, 69] := by decide

/-- V72: the sum needs 10 bits before masking; V73a: it wraps to exactly 0. -/
theorem test_chksum_V72_V73a :
    get (fun s => (s.res, s.pc)) (exec .chksum { m0 with dat := #v[255, 255, 255, 255, 252] }) =
      some (some ⟨0x437F0000, 0x437F0000⟩, .done) ∧
    get (·.res) (exec .chksum { m0 with dat := #v[128, 128, 0, 0, 0] }) =
      some (some ⟨0x43000000, 0x00000000⟩) := by decide

/-- V74: rejected; the frame is kept. -/
theorem test_chksum_V74 :
    get (fun s => (s.res, s.pc, s.err))
        (exec .chksum { m0 with dat := #v[80, 0, 25, 0, 104] }) =
      some (none, .failed, .checksumError) ∧
    get (fun s => (s.dat, s.trace)) (exec .chksum { m0 with dat := #v[80, 0, 25, 0, 104] }) =
      some (#v[80, 0, 25, 0, 104], []) := by decide

/-- V79 and its like. -/
theorem test_f32 :
    f32OfByte 0 = 0x00000000 ∧ f32OfByte 1 = 0x3F800000 ∧ f32OfByte 69 = 0x428A0000 ∧
      f32OfByte 100 = 0x42C80000 ∧ f32OfByte 127 = 0x42FE0000 ∧ f32OfByte 128 = 0x43000000 := by
  decide

/-- R161: `SampleHigh 2` is phase 6 (program P3), the last phase is 82. -/
theorem test_phase_code :
    phaseCode (.sampleHigh 2) = 6 ∧ phaseCode (.sampleHigh 40) = 82 := by decide

/-! ## Witnesses: states and operands that meet the hypotheses of each obligation -/

/-! ### The line of a test shows what is asked -/

/-- A line made of level words shows its levels. -/
theorem line_shows {s : State} {levels : List Bool} (hp : s.pin.toNat < 32)
    (hl : s.line = levels.map fun b => if b then 0xFFFFFFFF else 0x00000000) (k : Nat) (l : Bool)
    (h : levels[k]? = some l) : levelAt s k = l := by
  unfold levelAt levAt
  rw [hl, List.getElem?_map, h]
  have h1 : (0xFFFFFFFF : Word).getLsbD s.pin.toNat = true := by
    have : ∀ n : Fin 32, (0xFFFFFFFF : Word).getLsbD n.val = true := by decide
    exact this ⟨s.pin.toNat, hp⟩
  cases l
  · simp
  · simpa using h1

/-! ### Encoding and the step -/

theorem witness_DecodeOfEncode : (Instr.readinput 31).wellFormed = true := by decide

theorem witness_EncodeOfDecode : decode 0x7828 = .op (.cnthigh 40) := by decide

/-- One word for each clause of `IllegalWordsRefused`, at the edge of its range, and a state for the
last. -/
theorem witness_IllegalWordsRefused :
    ((0x3800 : OpWord).toNat / 2048 = 7 ∧ 19 ≤ (0x9800 : OpWord).toNat / 2048) ∧
    ((0x0001 : OpWord).toNat / 2048 ∈ [0, 6, 10, 11, 12, 13, 16, 17, 18] ∧
      (0x0001 : OpWord).toNat % 2048 ≠ 0) ∧
    ((0x0840 : OpWord).toNat / 2048 ∈ [1, 2, 3, 4, 5, 14, 15] ∧
      (0x0840 : OpWord).toNat / 64 % 32 ≠ 0) ∧
    ((0x2820 : OpWord).toNat / 2048 ∈ [1, 2, 3, 4, 5] ∧ (0x2820 : OpWord).toNat / 64 % 32 = 0 ∧
      31 < (0x2820 : OpWord).toNat % 64) ∧
    ((0x7029 : OpWord).toNat / 2048 ∈ [14, 15] ∧ (0x7029 : OpWord).toNat / 64 % 32 = 0 ∧
      40 < (0x7029 : OpWord).toNat % 64) ∧
    (let s : State := { s0 with calls := [0x3800] }
     s.running = false ∧ s.calls = 0x3800 :: [] ∧ decode 0x3800 = .bad .reservedOp) := by decide

theorem witness_StepRunsInvokedWord :
    (let s : State := { s0 with calls := [0x41F4] }
     s.running = false ∧ s.calls = 0x41F4 :: [] ∧ decode 0x41F4 = .op (.sleepc 500)) ∧
    s0.running = false ∧ s0.calls = [] := by decide

/-- Slot 0 with a refused device, slot 95 with a valid frame, slot 3. -/
theorem witness_StepRunsSlot :
    (let s : State := { s0 with running := true, mapper := [⟨false, false, false⟩] }
     s.running = true ∧ slotInstr s.pin s.upc.val = some .ensuremapped ∧
       get (·.upc.val) (exec .ensuremapped s) = some 96) ∧
    (let s : State := { m0 with running := true, upc := 95, pc := .decode }
     s.running = true ∧ slotInstr s.pin s.upc.val = some .chksum ∧
       get (·.upc.val) (exec .chksum s) = some 95) ∧
    (let s : State := { m0 with running := true, upc := 3, pc := .handshake }
     s.running = true ∧ slotInstr s.pin s.upc.val = some (.sleepc 500) ∧
       get (·.upc.val) (exec (.sleepc 500) s) = some 3) := by decide

/-! ### Construction -/

theorem witness_ConstructionLeavesResetState :
    cfg.Admissible 31 ∧ get (·.wcnt) (exec .readdata (State.fresh cfg 31 contents)) = some 0 := by
  decide

/-- Each refused constraint at its edge, and the largest admitted configuration. -/
theorem witness_ConstructionChecksConfiguration :
    31 < 32 ∧ (⟨0, 0, 0, 56, 0, 0⟩ : Params).maxCount = 0 ∧
    2 ^ 32 - 1 < (⟨2 ^ 32, 0, 0, 56, 0, 0⟩ : Params).maxCount ∧
    2 ^ 32 - 1 < 39 * ((⟨110127368, 0, 0, 56, 0, 0⟩ : Params).maxCount - 1) ∧
    (⟨1, 0, 0, 55, 0, 0⟩ : Params).mapSize < 56 ∧
    (let c : Params := ⟨110127367, 0, 0, 56, 0, 0⟩
     31 ≤ 31 ∧ 1 ≤ c.maxCount ∧ c.maxCount ≤ 2 ^ 32 - 1 ∧
       39 * (c.maxCount - 1) ≤ 2 ^ 32 - 1 ∧ 56 ≤ c.mapSize) := by decide

theorem witness_InvariantsHoldAtReset : State.construct cfg 4 contents = .next s0 := by rfl

/-! ### The Register Mapper -/

theorem witness_EnsureMappedAsksOnce :
    m0.mapped = true ∧ s0.mapped = false ∧
    mapperResponse (nextMapper { s0 with mapper := [⟨true, true, true⟩] }) = .ok ∧
    mapperResponse (nextMapper { s0 with mapper := [⟨false, false, true⟩] }) = .deviceOpenError ∧
    mapperResponse (nextMapper { s0 with mapper := [⟨false, true, false⟩] }) = .mappingError := by
  decide

theorem witness_MapperDecidesInOrder :
    (let a : MapperAnswer := ⟨false, false, true⟩
     a.restrictedOpens = false ∧ a.privilegedOpens = false) ∧
    (let a : MapperAnswer := ⟨false, true, false⟩
     (a.restrictedOpens = true ∨ a.privilegedOpens = true) ∧ a.mappingSucceeds = false) ∧
    (let a : MapperAnswer := ⟨true, false, true⟩
     (a.restrictedOpens = true ∨ a.privilegedOpens = true) ∧ a.mappingSucceeds = true) := by decide

theorem mapHistory_of_empty {s : State} (h : s.trace = []) : MapHistory s := by
  constructor
  · simp [h]
  · simp [h]
  · intro before after ht
    simp [h] at ht

/-- A step that maps. -/
theorem witness_MappingHappensOnce :
    m0.mapped = true ∧
    (let s : State := { s0 with calls := [0x0000], mapper := [⟨true, true, true⟩] }
     MapHistory s ∧ ∃ t, step s = .next t ∧ t.mapped = true) :=
  ⟨rfl, mapHistory_of_empty rfl, _, rfl, rfl⟩

/-! ### The Pin Controller -/

theorem witness_PinArithmetic : pinLegal 31 ∧ (31 : PinNo).toNat < (32 : PinNo).toNat := by decide

/-- For every statement about a ready register block and a legal pin, at both ends of the range. -/
theorem witness_Ready : Ready m0 ∧ pinLegal 0 ∧ pinLegal 31 ∧ pinLegal m0.pin := by
  refine ⟨⟨rfl, ?_⟩, ?_, ?_, ?_⟩ <;> decide

theorem witness_ReadInputSamplesPin :
    Ready (withLine 3 [hi]) ∧ pinLegal 31 ∧ (withLine 3 [hi]).line = hi :: [] := by
  refine ⟨⟨rfl, ?_⟩, ?_, rfl⟩ <;> decide

theorem witness_PinControllerFrame :
    Instr.setoutput 4 ∈ [Instr.setinput 4, .setoutput 4, .sethigh 4, .setlow 4, .readinput 4] ∧
      (get (·.pin) (exec (.setoutput 4) m0)).isSome = true := by decide

/-- The last clause: a pin that drives. -/
theorem witness_PinDrivesLatchWhileOutput :
    Ready (withFsel 0 0x00001000) ∧ pinLegal 4 ∧ drivenLevel (withFsel 0 0x00001000) 4 ≠ none := by
  refine ⟨⟨rfl, ?_⟩, ?_, ?_⟩ <;> decide

theorem witness_OperationsRefused :
    s0.mapped = false ∧ pulseLegal 40 ∧ m0.mapped = true ∧ 31 < (32 : PinNo).toNat ∧
      40 < (41 : PulseNo).toNat := by decide

/-- The window of 56 bytes holds the words 0 to 13: word 14 lies beyond it; in a window of 60 bytes it
is an undefined word. -/
theorem witness_RegisterAccessRefused :
    s0.mapped = false ∧ m0.mapped = true ∧ m0.params.mapSize < 4 * 14 + 4 ∧
    4 * 7 + 4 ≤ m0.params.mapSize ∧ 4 * 10 + 4 ≤ m0.params.mapSize ∧
    4 * 13 + 4 ≤ m0.params.mapSize ∧ 4 * 6 + 4 ≤ m0.params.mapSize ∧
    4 * 14 + 4 ≤ (⟨3, 50, 0, 60, 0, 0⟩ : Params).mapSize := by decide

theorem witness_FselReadAfterWrite : Ready m0 ∧ 0 < 6 ∧ 5 < 6 := ⟨witness_Ready.1, by decide⟩

/-! ### States that meet the invariant -/

/-- At rest after a success, with `READDATA` invoked again. -/
def restDone : State :=
  { m0 with pc := .done, upc := 96, res := some ⟨0, 0⟩, calls := [encode .readdata] }

theorem restDone_inv : Inv restDone := by
  refine ⟨?_, ?_, ?_, ?_, ?_, ?_⟩
  · decide
  · intro w hw
    simpa [restDone] using hw
  · decide
  · decide
  · intro h
    cases h
  · intro _
    exact ⟨rfl, by decide, by decide, by decide, by decide, by decide⟩

/-- In an attempt, at slot 9, with a line. -/
def atWait (line : List Word) : State :=
  { m0 with running := true, pc := .waitResponse, upc := 9, prio := .realTime, line := line,
            trace := [.prioUp] }

theorem atWait_inv (line : List Word) : Inv (atWait line) := by
  refine ⟨?_, ?_, ?_, ?_, ?_, ?_⟩
  · show cfg.Admissible 4
    decide
  · intro w hw
    cases hw
  · show Prio.realTime = .realTime ↔ samplingPhase .waitResponse = true
    decide
  · show (none : Option PollPhase) ≠ none ↔ ErrKind.noError = .timeoutError
    decide
  · intro _
    refine ⟨?_, rfl, fun _ => rfl, rfl, rfl, ?_, rfl⟩
    · show 9 < 96
      decide
    · have h : ∀ k, k < 82 → if 10 + k < 9 then (readCnt m0 k).toNat + 1 ≤ 3 else readCnt m0 k = 0 := by
        decide
      exact h
  · intro h
    cases h

/-- The start of an attempt with a map, priority trace empty. -/
def atStart : State := { m0 with running := true }

theorem atStart_inv : Inv atStart := by
  refine ⟨?_, ?_, ?_, ?_, ?_, ?_⟩
  · decide
  · intro w hw
    cases hw
  · decide
  · decide
  · intro _
    exact ⟨by decide, rfl, fun _ => rfl, rfl, rfl, by decide, rfl⟩
  · intro h
    cases h

/-- Both clauses of `ReadDataStartsAttempt` that ask for a state, the refusal, and a step at rest. -/
theorem witness_ReadDataStartsAttempt :
    (s0.running = false ∧ s0.pc = .idle) ∧ atStart.running = true ∧
    (let s : State := { m0 with pc := .decode }
     ¬(s.pc = .idle ∨ s.pc = .done ∨ s.pc = .failed)) ∧
    Inv restDone ∧ restDone.running = false ∧ restDone.pc = .done ∧ ∃ t, step restDone = .next t :=
  ⟨by decide, by decide, by decide, restDone_inv, rfl, rfl, _, rfl⟩

/-! ### Polling -/

/-- The transition after `n = 2` samples, and the ceiling of 3 reached at the third. -/
theorem witness_PollingOperation :
    (let s := withLine 3 [hi, hi, lo]
     Ready s ∧ pinLegal s.pin ∧ 0 = (readCounter s .waitResponse).toNat ∧
       (∀ k, k < 2 → levelAt s k = pollLevel .waitResponse) ∧ 0 + 2 < s.params.maxCount ∧
       levelAt s 2 ≠ pollLevel .waitResponse) ∧
    (let s := withLine 3 [lo, lo, lo]
     Ready s ∧ pinLegal s.pin ∧ 0 = (readCounter s (.sampleLow 40)).toNat ∧
       (∀ k, k < 2 → levelAt s k = pollLevel (.sampleLow 40)) ∧ 0 + 2 < s.params.maxCount ∧
       levelAt s 2 = pollLevel (.sampleLow 40) ∧ s.params.maxCount ≤ 0 + 2 + 1) := by
  refine ⟨⟨⟨rfl, ?_⟩, ?_, ?_, ?_, ?_, ?_⟩, ⟨rfl, ?_⟩, ?_, ?_, ?_, ?_, ?_, ?_⟩ <;> decide

theorem witness_PollsCountTheRun :
    (let s := withLine 3 [hi, hi, lo]
     Ready s ∧ pinLegal s.pin ∧ (∀ k, k < 2 → levelAt s k = true) ∧ levelAt s 2 = false ∧
       s.wcnt.toNat + 2 < s.params.maxCount ∧ 40 ≤ 40 ∧
       (readCnt s (2 * 40 + 1)).toNat + 2 < s.params.maxCount) ∧
    (let s := withLine 3 [lo, lo, hi]
     Ready s ∧ pinLegal s.pin ∧ (∀ k, k < 2 → levelAt s k = false) ∧ levelAt s 2 = true ∧
       (readCnt s (2 * 40)).toNat + 2 < s.params.maxCount) := by
  refine ⟨⟨⟨rfl, ?_⟩, ?_, ?_, ?_, ?_, ?_, ?_⟩, ⟨rfl, ?_⟩, ?_, ?_, ?_, ?_⟩ <;> decide

theorem witness_TimeoutAbortsAttempt :
    Inv (atWait [hi, hi, hi]) ∧ (atWait [hi, hi, hi]).running = true ∧
      (atWait [hi, hi, hi]).upc.val = pollSlot .waitResponse ∧
      ∀ k, k < (atWait [hi, hi, hi]).params.maxCount →
        levelAt (atWait [hi, hi, hi]) k = pollLevel .waitResponse :=
  ⟨atWait_inv _, rfl, rfl, by decide⟩

/-! ### The decode stage -/

/-- A valid frame and an invalid one, with their sums. -/
theorem witness_ChecksumDecides :
    (let s : State := { m0 with dat := #v[255, 255, 255, 255, 252] }
     1020 = (readDat s 0).toNat + (readDat s 1).toNat + (readDat s 2).toNat + (readDat s 3).toNat ∧
       (readDat s 4).toNat = 1020 % 256) ∧
    (let s : State := { m0 with dat := #v[255, 255, 255, 255, 255] }
     1020 = (readDat s 0).toNat + (readDat s 1).toNat + (readDat s 2).toNat + (readDat s 3).toNat ∧
       (readDat s 4).toNat ≠ 1020 % 256) := by decide

theorem witness_ByteToFloatIsExact :
    (255 : Byte) ≠ 0 ∧ 2 ^ 7 ≤ (255 : Byte).toNat ∧ (255 : Byte).toNat < 2 ^ (7 + 1) ∧
      2 ^ 0 ≤ (1 : Byte).toNat ∧ (1 : Byte).toNat < 2 ^ (0 + 1) := by decide

/-- Slot 93, with every count a given one. -/
def atDecode (cnt : Vector Count 82) : State :=
  { m0 with running := true, pc := .decode, upc := 93, cnt := cnt }

theorem witness_DecodeStageIsOneFunction :
    (atDecode (Vector.replicate 82 7)).running = true ∧
      (atDecode (Vector.replicate 82 7)).upc.val = 93 ∧
      (atDecode (Vector.replicate 82 7)).prio = .default ∧
      (atDecode (Vector.replicate 82 7)).err = .noError := by decide

/-- Two samples that differ in `cnt[0]` only. -/
theorem witness_UnusedCountsDoNotMatter :
    ∃ t1 t2,
      (let s1 := atDecode (Vector.replicate 82 7)
       let s2 := atDecode ((Vector.replicate 82 7).setIfInBounds 0 31)
       (s1.running = true ∧ s1.upc.val = 93) ∧ (s2.running = true ∧ s2.upc.val = 93) ∧
         (∀ i : Nat, 1 ≤ i → i ≤ 40 → readCnt s1 (2 * i + 1) = readCnt s2 (2 * i + 1)) ∧
         s1.err = s2.err ∧ runSteps 3 s1 = .next t1 ∧ runSteps 3 s2 = .next t2) := by
  refine ⟨_, _, ⟨rfl, rfl⟩, ⟨rfl, rfl⟩, ?_, rfl, run_decode_stage rfl rfl, run_decode_stage rfl rfl⟩
  have h : ∀ i : Nat, i ≤ 40 → 1 ≤ i → readCnt (atDecode (Vector.replicate 82 7)) (2 * i + 1) =
      readCnt (atDecode ((Vector.replicate 82 7).setIfInBounds 0 31)) (2 * i + 1) := by decide
  exact fun i a b => h i b a

set_option maxRecDepth 8000 in
theorem twoValued_V69a :
    ∀ i, i ≤ 40 → 1 ≤ i → (highCount (standard #v[128, 0, 0, 0, 128] 28 70) i).toNat =
      if frameBit #v[128, 0, 0, 0, 128] (i - 1) then 70 else 28 := by decide

set_option maxRecDepth 8000 in
theorem twoValued_V69b :
    ∀ i, i ≤ 40 → 1 ≤ i → (highCount (standard #v[128, 0, 0, 0, 128] 3 7) i).toNat =
      if frameBit #v[128, 0, 0, 0, 128] (i - 1) then 7 else 3 := by decide

/-- V69a (`1 * 42 >= 39`) and V69b (`1 * 4 < 39`): the two clauses about the frame. -/
theorem witness_TwoValuedSampleDecodes :
    (28 < 70 ∧ TwoValued (standard #v[128, 0, 0, 0, 128] 28 70) #v[128, 0, 0, 0, 128] 28 70 ∧
      39 ≤ longPulses #v[128, 0, 0, 0, 128] * (70 - 28) ∧
      ∃ t u, exec .thresh (standard #v[128, 0, 0, 0, 128] 28 70) = .next t ∧
        exec .decbits t = .next u) ∧
    (3 < 7 ∧ TwoValued (standard #v[128, 0, 0, 0, 128] 3 7) #v[128, 0, 0, 0, 128] 3 7 ∧
      longPulses #v[128, 0, 0, 0, 128] * (7 - 3) < 39 ∧
      ∃ t u, exec .thresh (standard #v[128, 0, 0, 0, 128] 3 7) = .next t ∧
        exec .decbits t = .next u) :=
  ⟨⟨by decide, fun i a b => twoValued_V69a i b a, by decide, _, _, rfl, rfl⟩,
    by decide, fun i a b => twoValued_V69b i b a, by decide, _, _, rfl, rfl⟩

/-- V69c: all counts equal. -/
theorem witness_EqualCountsFailChecksum :
    (∀ i : Nat, 2 ≤ i → i ≤ 40 → readCnt m0 (2 * i + 1) = 0) ∧
      ∃ t u, exec .thresh m0 = .next t ∧ exec .decbits t = .next u := by
  have h : ∀ i : Nat, i ≤ 40 → 2 ≤ i → readCnt m0 (2 * i + 1) = 0 := by decide
  exact ⟨fun i a b => h i b a, _, _, rfl, rfl⟩

/-! ### Who writes what -/

set_option maxRecDepth 8000 in
/-- An operation that writes each register named. -/
theorem witness_WritersOfEngineRegisters :
    get (fun s => decide (readCnt s 80 ≠ readCnt m0 80))
        (exec (.cntlow 40) (withLine 3 [lo, hi])) = some true ∧
    get (fun s => decide (s.wcnt ≠ m0.wcnt)) (exec .waitresp (withLine 3 [hi, lo])) = some true ∧
    get (fun s => decide (s.thr ≠ m0.thr)) (exec .thresh (atDecode (Vector.replicate 82 7))) =
      some true ∧
    get (fun s => decide (readDat s 0 ≠ 0)) (exec .decbits m0) = some true := by decide

theorem witness_WritersOfRegisterBlock :
    get (fun s => decide (readFsel s 3 ≠ readFsel m0 3)) (exec (.setoutput 31) m0) = some true ∧
    get (fun s => decide (latch s 31 ≠ latch m0 31)) (exec (.sethigh 31) m0) = some true ∧
    get (fun s => decide (s.lineReads ≠ m0.lineReads)) (exec (.readinput 4) (withLine 3 [hi])) =
      some true := by decide

theorem witness_AttemptLeavesOtherPinsAlone :
    (let s : State := { atStart with upc := 1, pc := .handshake }
     s.running = true ∧ (∃ t, step s = .next t) ∧ (5 : PinNo) ≠ s.pin ∧ pinLegal 5) :=
  ⟨rfl, ⟨_, rfl⟩, by decide, by decide⟩

theorem witness_ConfigurationAndMapPersist :
    atStart.mapped = true ∧ ∃ t, step atStart = .next t := ⟨rfl, _, rfl⟩

/-! ### The whole machine -/

theorem witness_StepKeepsInvariant : Inv atStart ∧ ∃ t, step atStart = .next t :=
  ⟨atStart_inv, _, rfl⟩

theorem witness_PublicUseNeverStops : Inv restDone ∧ Inv (atWait []) :=
  ⟨restDone_inv, atWait_inv _⟩

/-- In the sampling window (one `PrioUp` in force) and at rest. -/
theorem witness_PriorityIsAlwaysRestored :
    (Inv (atWait [lo]) ∧ PrioPaired (atWait [lo]) ∧ ∃ t, step (atWait [lo]) = .next t) ∧
    (Inv restDone ∧ restDone.running = false ∧ PrioPaired restDone ∧ restDone.prio = .default) := by
  refine ⟨⟨atWait_inv _, ?_, _, rfl⟩, restDone_inv, rfl, ?_, rfl⟩
  · show List.count _ _ = List.count _ _ + _
    decide
  · show List.count _ _ = List.count _ _ + _
    decide

/-- Pin 4 an input with latch 0, in the sampling window. -/
theorem witness_PinIsReleasedAfterAttempt :
    Inv (atWait [lo]) ∧ PinInv (atWait [lo]) ∧ ∃ t, step (atWait [lo]) = .next t := by
  refine ⟨atWait_inv _, ⟨?_, ?_, ?_, ?_, ?_⟩, _, rfl⟩ <;> decide

theorem witness_EveryAttemptEnds : Inv (atWait []) ∧ (atWait []).running = true :=
  ⟨atWait_inv _, rfl⟩

/-- At rest before the first attempt, with `READDATA` invoked. -/
def restIdle (line : List Word) : State :=
  { s0 with calls := [encode .readdata], mapper := [⟨true, true, true⟩], line := line }

theorem restIdle_inv (line : List Word) : Inv (restIdle line) := by
  refine ⟨?_, ?_, ?_, ?_, ?_, ?_⟩
  · show cfg.Admissible 4
    decide
  · intro w hw
    simpa [restIdle] using hw
  · show Prio.default = .realTime ↔ samplingPhase .idle = true
    decide
  · show (none : Option PollPhase) ≠ none ↔ ErrKind.noError = .timeoutError
    decide
  · intro h
    cases h
  · intro _
    refine ⟨rfl, fun _ => ⟨rfl, rfl, rfl⟩, ?_, ?_, ?_, ?_⟩
    · intro h
      cases h
    · intro h
      cases h
    · intro h
      exact absurd rfl h
    · intro h
      exact absurd rfl h

theorem witness_EventsOfOneAttempt :
    Inv (restIdle []) ∧ (restIdle []).running = false ∧
      (restIdle []).calls = encode .readdata :: [] := ⟨restIdle_inv _, rfl, rfl⟩

/-- The frame of V39h and its runs: every low run 1, a high run of 3 for a 1 and 1 for a 0. -/
def frameV39h : Vector Byte 5 := #v[255, 255, 255, 255, 252]

def runsV39h : List (Nat × Nat) :=
  (1, 1) :: (List.range 40).map fun n => (1, (if frameBit frameV39h n then 2 else 0) + 1)

/-- The level words of those runs after `a = 2` high samples, the largest a ceiling of 3 allows. -/
def lineV39h : List Word :=
  (runLevels 2 runsV39h).map fun b => if b then 0xFFFFFFFF else 0x00000000

theorem runsV39h_short :
    ∀ bc ∈ runsV39h, 1 ≤ bc.1 ∧ bc.1 ≤ 3 ∧ 1 ≤ bc.2 ∧ bc.2 ≤ 3 := by decide

theorem witness_RunsBecomeCounts :
    Inv (atWait lineV39h) ∧ (atWait lineV39h).running = true ∧ (atWait lineV39h).upc.val = 9 ∧
    runsV39h.length = 41 ∧ 2 + 1 ≤ (atWait lineV39h).params.maxCount ∧
    (∀ bc ∈ runsV39h, 1 ≤ bc.1 ∧ bc.1 ≤ (atWait lineV39h).params.maxCount ∧ 1 ≤ bc.2 ∧
      bc.2 ≤ (atWait lineV39h).params.maxCount) ∧
    (∀ (k : Nat) (l : Bool), (runLevels 2 runsV39h)[k]? = some l →
      levelAt (atWait lineV39h) k = l) :=
  ⟨atWait_inv _, rfl, rfl, rfl, by show 2 + 1 ≤ 3; decide, runsV39h_short,
    line_shows (by show 4 < 32; decide) rfl⟩

theorem witness_ValidFrameIsRead :
    Inv (restIdle lineV39h) ∧ (restIdle lineV39h).running = false ∧
    (restIdle lineV39h).calls = encode .readdata :: [] ∧
    mapperResponse (nextMapper (restIdle lineV39h)) = .ok ∧ validFrame frameV39h = true ∧ 0 < 2 ∧
    39 ≤ longPulses frameV39h * (2 - 0) ∧ 2 + 1 ≤ (restIdle lineV39h).params.maxCount ∧
    runsV39h.length = 41 ∧
    (∀ bc ∈ runsV39h, 1 ≤ bc.1 ∧ bc.1 ≤ (restIdle lineV39h).params.maxCount ∧ 1 ≤ bc.2 ∧
      bc.2 ≤ (restIdle lineV39h).params.maxCount) ∧
    (∀ (i : Nat) (bc : Nat × Nat), 1 ≤ i → runsV39h[i]? = some bc →
      bc.2 = (if frameBit frameV39h (i - 1) then 2 else 0) + 1) ∧
    (∀ (k : Nat) (l : Bool), (runLevels 2 runsV39h)[k]? = some l →
      levelAt (restIdle lineV39h) k = l) := by
  refine ⟨restIdle_inv _, rfl, rfl, rfl, by decide, by decide, by decide,
    by show 2 + 1 ≤ 3; decide, rfl, runsV39h_short, ?_, line_shows (by show 4 < 32; decide) rfl⟩
  intro i bc h1 h
  obtain ⟨j, rfl⟩ : ∃ j, i = j + 1 := ⟨i - 1, by omega⟩
  unfold runsV39h at h
  rw [List.getElem?_cons_succ, List.getElem?_map] at h
  by_cases hj : j < 40
  · rw [List.getElem?_range hj] at h
    cases h
    rfl
  · rw [List.getElem?_eq_none (by simpa using hj)] at h
    cases h

/-! ### One event at a time (R12, R13) -/

/-- R102's example, event by event: the events of `SETOUTPUT 4` from `FSEL[0] = 0`, and what is still to
do after each. -/
def settingOutput : State := { m0 with calls := [encode (.setoutput 4)] }

theorem test_setoutput_by_events :
    ([1, 2, 3, 4].map fun k => match runEvents k { st := settingOutput, pending := none } with
      | .ok f => some (f.pending, f.st.trace)
      | .error _ => none) =
    [some (some (.clearField 4 0 true), [.busRead 0 0]),
     some (some (.readAgain 4), [.busRead 0 0, .busWrite 0 0]),
     some (some (.setField 4 0), [.busRead 0 0, .busWrite 0 0, .busRead 0 0]),
     some (none, [.busRead 0 0, .busWrite 0 0, .busRead 0 0, .busWrite 0 0x1000])] := by decide

/-- R129, R166, R112 with `MAXCOUNT = 1`: the read that reaches the ceiling, `PrioDown`, `Result`, in three
steps; the phase stays `WaitResponse` until the error entry. -/
theorem test_timeout_by_events :
    ([1, 2, 3].map fun k =>
      match runEvents k { st := { atWait [hi] with params := ⟨1, 50, 0, 56, 0, 0⟩, trace := [] },
                          pending := none } with
      | .ok f => some (f.st.pc, f.st.prio, f.st.trace)
      | .error _ => none) =
    [some (.waitResponse, .realTime, [.busRead 13 hi]),
     some (.failed, .default, [.busRead 13 hi, .prioDown]),
     some (.failed, .default, [.busRead 13 hi, .prioDown, .result none])] := by decide

theorem witness_EventStepsMakeAStep :
    (atWait [hi, hi, hi]).params.maxCount ≤ 2 ^ 32 - 1 ∧ (∃ t, step (atWait [hi, hi, hi]) = .next t) ∧
    refusal (step { s0 with calls := [encode (.setinput 4)] }) = some .notMapped :=
  ⟨by decide, ⟨_, rfl⟩, by decide⟩

/-- The input of the witnesses below: a line that is low, a mapper service that grants the map. -/
def quietInput (call : Option OpWord) : StepInput :=
  { params := cfg, answer := ⟨true, false, true⟩, lev := lo, call := call }

/-- A step with an event, one of `READDATA` without, and a step at rest with nothing invoked. -/
theorem witness_OneEventPerStep :
    (∃ e', engineStep (quietInput none) (EventState.mk (atWait []) none).engine =
      .ok ([.busRead 13 lo], e')) ∧
    (∃ e', engineStep (quietInput (some (encode .readdata))) (EventState.mk s0 none).engine =
      .ok ([], e')) ∧
    (∃ e', engineStep (quietInput none) (EventState.mk s0 none).engine = .ok ([], e')) :=
  ⟨⟨_, rfl⟩, ⟨_, rfl⟩, ⟨_, rfl⟩⟩

theorem witness_AnswersAreParameters :
    (∃ g, eventStep { st := atWait [hi], pending := none } = .ok g) ∧
    (∃ r, eventStep { st := { s0 with calls := [0xFFFF] }, pending := none } = .error r) :=
  ⟨⟨_, rfl⟩, ⟨_, rfl⟩⟩

theorem witness_SubStepKeepsIndex :
    ∃ g, eventStep { st := atWait [hi], pending := none } = .ok g ∧ g.pending ≠ none :=
  ⟨_, rfl, by decide⟩

theorem witness_SetOutputPassesThroughInput :
    Ready settingOutput ∧ pinLegal 4 ∧ settingOutput.running = false ∧
      settingOutput.calls = encode (.setoutput 4) :: [] := by
  refine ⟨⟨rfl, ?_⟩, ?_, ?_, ?_⟩ <;> decide

/-- The other level; the level below the ceiling of 3; the level at a ceiling of 1. -/
theorem witness_PollIteration :
    (let s := atWait [lo]
     Ready s ∧ pinLegal s.pin ∧ levelAt s 0 ≠ pollLevel .waitResponse) ∧
    (let s := atWait [hi]
     Ready s ∧ levelAt s 0 = pollLevel .waitResponse ∧
       (readCounter s .waitResponse).toNat + 1 < s.params.maxCount) ∧
    (let s := { atWait [hi] with params := ⟨1, 50, 0, 56, 0, 0⟩ }
     Ready s ∧ levelAt s 0 = pollLevel .waitResponse ∧
       s.params.maxCount ≤ (readCounter s .waitResponse).toNat + 1 ∧ s.prio = .realTime) := by
  refine ⟨⟨⟨rfl, ?_⟩, ?_, ?_⟩, ⟨⟨rfl, ?_⟩, ?_, ?_⟩, ⟨rfl, ?_⟩, ?_, ?_, ?_⟩ <;> decide

end Sys2Proof.Tests
end

section
/-! Construction against the constraints of spec 00_scope.md R10. -/

namespace Sys2Proof.Machine

/-- The constraints of R10 with the constants of R8 as numbers. -/
theorem admissible_iff (c : Params) (pin : Nat) :
    c.Admissible pin ↔ pin ≤ 31 ∧ 1 ≤ c.maxCount ∧ c.maxCount ≤ 2 ^ 32 - 1 ∧
      39 * (c.maxCount - 1) ≤ 2 ^ 32 - 1 ∧ 56 ≤ c.mapSize :=
  Iff.rfl

theorem construct_admitted {c : Params} {pin : Nat} (h : c.Admissible pin) (u : Unspecified) :
    State.construct c pin u = .next (State.fresh c (BitVec.ofNat 6 pin) u) :=
  if_pos h

theorem construct_refused {c : Params} {pin : Nat} (h : ¬ c.Admissible pin) (u : Unspecified) :
    State.construct c pin u = .refused .configurationRefused :=
  if_neg h

/-- Settles O9: the constraints of R10 and the five ways to fail one are complements. -/
theorem constructionChecksConfiguration : Obligations.ConstructionChecksConfiguration := by
  unfold Obligations.ConstructionChecksConfiguration
  intro c pin u
  constructor
  · intro hfail
    refine construct_refused (fun hadm => ?_) u
    obtain ⟨hpin, hlow, hhigh, hsum, hwindow⟩ := (admissible_iff c pin).mp hadm
    omega
  · intro hpin hlow hhigh hsum hwindow
    exact ⟨_, construct_admitted ((admissible_iff c pin).mpr ⟨hpin, hlow, hhigh, hsum, hwindow⟩) u⟩

end Sys2Proof.Machine
end

section
/-! The step of one operation as a run of event steps (spec 00_scope.md R12, 42_protocol_sequencer.md
R115). -/

namespace Sys2Proof.Machine

open Sys2Proof.Safety

/-! ### Event steps between two operations -/

theorem runEvents_add {k m : Nat} {f g : EventState} (h : runEvents k f = .ok g) :
    runEvents (k + m) f = runEvents m g := by
  induction k generalizing f with
  | zero =>
    cases h
    rw [Nat.zero_add]
  | succ k ih =>
    unfold runEvents at h
    split at h
    · rename_i f' hf
      rw [Nat.succ_add, runEvents_succ hf, ih h]
    · cases h

theorem eventStep_slot {s : State} {i : Instr} (hr : s.running = true)
    (hi : slotInstr s.pin s.upc.val = some i) :
    eventStep { st := s, pending := none } = closeEvent true (startOperation i s) := by
  simp [eventStep, hr, hi]

theorem eventStep_slot_none {s : State} (hr : s.running = true)
    (hi : slotInstr s.pin s.upc.val = none) :
    eventStep { st := s, pending := none } = .ok { st := attemptEnd s, pending := none } := by
  simp [eventStep, hr, hi]

theorem eventStep_waits {s : State} (hr : s.running = false) (hc : s.calls = []) :
    eventStep { st := s, pending := none } = .ok { st := s, pending := none } := by
  simp [eventStep, hr, hc]

theorem eventStep_call {s : State} {w : OpWord} {rest : List OpWord} {i : Instr}
    (hr : s.running = false) (hc : s.calls = w :: rest) (hd : decode w = .op i) :
    eventStep { st := s, pending := none } =
      closeEvent false (startOperation i { s with calls := rest }) := by
  simp [eventStep, hr, hc, hd]

theorem eventStep_badCall {s : State} {w : OpWord} {rest : List OpWord} {e : DecodeError}
    (hr : s.running = false) (hc : s.calls = w :: rest) (hd : decode w = .bad e) :
    eventStep { st := s, pending := none } = .error (.illegalWord e) := by
  simp [eventStep, hr, hc, hd]

/-! ### What an operation and a refusal are made of -/

/-- No operation ends an attempt by itself: `Result` does (R110). -/
theorem exec_keeps_running {s t : State} {i : Instr} (h : exec i s = .next t)
    (hr : s.running = true) : t.running = true := by
  cases exec_effect h <;> simp [hr]

/-- The events of an operation run it from its first event step to its end. -/
theorem runEvents_operation {b : Bool} {i : Instr} {s t : State} {f : EventState}
    (hb : s.running = b) (hm : s.params.maxCount ≤ 2 ^ 32 - 1) (h : exec i s = .next t)
    (hf : eventStep f = closeEvent b (startOperation i s)) :
    ∃ k, 1 ≤ k ∧ runEvents k f = closeEvent b (.ok (t, none)) := by
  obtain ⟨k, g, hg, hk⟩ := (startOperation_ends hb hm h).run
  exact ⟨k + 1, by omega, by rw [runEvents_succ (hf.trans hg), hk]⟩

/-- The advance after a slot (R115) takes at most one event step more, for `Result`. -/
theorem runEvents_afterSlot {s : State} (hr : s.running = true) :
    ∃ m, runEvents m { st := nextSlot s, pending := none } =
      .ok { st := afterSlot s, pending := none } := by
  rw [afterSlot_eq]
  split
  · rename_i h96
    have hr' : (nextSlot s).running = true := by rw [nextSlot_running, hr]
    exact ⟨1, by rw [runEvents_one, eventStep_slot_none hr' (by rw [h96]; rfl)]⟩
  · exact ⟨0, rfl⟩

/-- Everything a step that refuses can have met: the operation of the slot or of the oldest word is
refused, or that word spells none. -/
theorem step_refused_cases {s : State} {r : Refusal} (h : step s = .refused r) :
    (s.running = true ∧ ∃ i, slotInstr s.pin s.upc.val = some i ∧ exec i s = .refused r) ∨
    (s.running = false ∧ ∃ w rest, s.calls = w :: rest ∧
      ((∃ e, decode w = .bad e ∧ r = .illegalWord e) ∨
       ∃ i, decode w = .op i ∧ exec i { s with calls := rest } = .refused r)) := by
  unfold step at h
  split at h
  · rename_i hr
    unfold runSlot at h
    split at h
    · cases h
    · rename_i i hi
      split at h
      · cases h
      · cases h
      · rename_i r' he
        cases h
        exact .inl ⟨hr, i, hi, he⟩
  · rename_i hr
    unfold runCall at h
    split at h
    · cases h
    · rename_i w rest hc
      refine .inr ⟨by simpa using hr, w, rest, hc, ?_⟩
      split at h
      · rename_i e hd
        cases h
        exact .inl ⟨e, hd, rfl⟩
      · rename_i i hd
        exact .inr ⟨i, hd, h⟩

/-- A step that gives a next state is a run of event steps. -/
theorem runEvents_of_step {s t : State} (hm : s.params.maxCount ≤ 2 ^ 32 - 1) (h : step s = .next t) :
    ∃ k, 1 ≤ k ∧
      runEvents k { st := s, pending := none } = .ok { st := t, pending := none } := by
  obtain ⟨hr, hi, rfl⟩ | ⟨hr, i, u, hi, he, rfl⟩ | ⟨hr, hc, rfl⟩ | ⟨hr, w, rest, i, hc, hd, he⟩ :=
    step_cases h
  · exact ⟨1, by omega, by rw [runEvents_one, eventStep_slot_none hr hi]⟩
  · obtain ⟨k, hk1, hk⟩ := runEvents_operation hr hm he (eventStep_slot hr hi)
    obtain ⟨m, hadvance⟩ := runEvents_afterSlot (exec_keeps_running he hr)
    exact ⟨k + m, by omega, by rw [runEvents_add hk]; exact hadvance⟩
  · exact ⟨1, by omega, by rw [runEvents_one, eventStep_waits hr hc]⟩
  · exact runEvents_operation (s := { s with calls := rest }) hr hm he (eventStep_call hr hc hd)

/-- A step that refuses is refused at its first event step. -/
theorem eventStep_of_step_refused {s : State} {r : Refusal} (h : step s = .refused r) :
    eventStep { st := s, pending := none } = .error r := by
  obtain ⟨hr, i, hi, he⟩ | ⟨hr, w, rest, hc, ⟨e, hd, rfl⟩ | ⟨i, hd, he⟩⟩ := step_refused_cases h
  · rw [eventStep_slot hr hi, startOperation_refused he]
    rfl
  · exact eventStep_badCall hr hc hd
  · rw [eventStep_call hr hc hd, startOperation_refused he]
    rfl

/-- Settles O53, from the events of the single operations (`startOperation_ends`) and their refusals
(`startOperation_refused`). -/
theorem eventStepsMakeAStep : Obligations.EventStepsMakeAStep := by
  unfold Obligations.EventStepsMakeAStep
  exact ⟨fun _ _ hm h => runEvents_of_step hm h, fun _ _ h => eventStep_of_step_refused h⟩

end Sys2Proof.Machine
end

section
/-! The environment of a step (spec 00_scope.md R12, R13): one event leaves the same engine behind and adds
the same events to the trace whatever the environment holds beyond the answers of that step. -/

namespace Sys2Proof.Machine

open Sys2Proof.Safety

/-! ### The environment's fields -/

/-- The fields of a state that hold the environment and the record of events; the configuration is not
among them, as no step writes it (log 7). -/
structure Env where
  calls : List OpWord
  line : List Word
  lineReads : Nat
  mapper : List MapperAnswer
  mapReqs : Nat
  trace : List Event

/-- The same engine in another environment. -/
def State.withEnv (s : State) (E : Env) : State :=
  { s with
    calls := E.calls
    line := E.line
    lineReads := E.lineReads
    mapper := E.mapper
    mapReqs := E.mapReqs
    trace := E.trace }

/-- The environment after the event `e`. -/
def Env.log (e : Event) (E : Env) : Env := { E with trace := E.trace ++ [e] }

/-- The environment after one line sample is consumed. -/
def Env.dropLine (E : Env) : Env := { E with line := E.line.tail, lineReads := E.lineReads + 1 }

/-- The environment after one mapping request and its answer `r`. -/
def Env.afterRequest (r : MapResp) (E : Env) : Env :=
  ({ E with mapper := E.mapper.tail, mapReqs := E.mapReqs + 1 }.log .mapReq).log (.mapResp r)

/-- The environment after the read of word `w` that returned `v`. -/
def Env.afterRead (w : Nat) (v : Word) (E : Env) : Env :=
  if w = levOff then E.dropLine.log (.busRead w v) else E.log (.busRead w v)

/-- The environment after the error entry from the class `p` (R166). -/
def Env.afterError (p : Prio) (E : Env) : Env :=
  if p = .realTime then E.log .prioDown else E

/-- `E` answers the next request as the environment of `s` does, and has recorded no event yet. -/
structure SameAnswers (s : State) (E : Env) : Prop where
  lev : nextLev (s.withEnv E) = nextLev s
  mapper : nextMapper (s.withEnv E) = nextMapper s
  fresh : E.trace = []

/-! ### The operations on the state in another environment -/

@[simp] theorem Env.log_trace (e : Event) (E : Env) : (E.log e).trace = E.trace ++ [e] := rfl

@[simp] theorem Env.afterRead_trace (w : Nat) (v : Word) (E : Env) :
    (E.afterRead w v).trace = E.trace ++ [.busRead w v] := by
  unfold Env.afterRead
  split <;> rfl

theorem pinOp_map {α β : Type} (p : PinNo) (s : State) (r : Access α) (f : α → β) :
    (pinOp p s r).map f = pinOp p s (r.map f) := by
  unfold pinOp
  split
  · rfl
  · split <;> rfl

theorem regRead_lev_value {s t : State} {v : Word} (h : regRead levOff s = .ok (v, t)) :
    v = nextLev s := by
  obtain ⟨-, ⟨hw, -, -⟩ | ⟨-, hv, -⟩⟩ := regRead_cases h
  · simp [levOff] at hw
  · exact hv

theorem regRead_withEnv {s : State} {E : Env} (hE : SameAnswers s E) (w : Nat) :
    regRead w (s.withEnv E) =
      (regRead w s).map fun r => (r.1, r.2.withEnv (E.afterRead w r.1)) := by
  have hg : accessRefusal w (s.withEnv E) = accessRefusal w s := rfl
  unfold regRead
  rw [hg, hE.lev]
  cases accessRefusal w s with
  | some r => rfl
  | none =>
    by_cases h6 : w < 6
    · have hne : w ≠ levOff := by unfold levOff; omega
      simp only [h6, if_true, Env.afterRead, hne, if_false, Except.map]
      rfl
    · by_cases hl : w = levOff
      · simp only [hl, if_true, Env.afterRead, Except.map]
        rfl
      · simp only [h6, hl, if_false]
        split <;> rfl

theorem regWrite_withEnv (s : State) (E : Env) (w : Nat) (v : Word) :
    regWrite w v (s.withEnv E) =
      (regWrite w v s).map fun t => t.withEnv (E.log (.busWrite w v)) := by
  have hg : accessRefusal w (s.withEnv E) = accessRefusal w s := rfl
  unfold regWrite
  rw [hg]
  cases accessRefusal w s with
  | some r => rfl
  | none =>
    simp only
    split
    · rfl
    · split
      · rfl
      · split
        · rfl
        · split <;> rfl

theorem readInput_withEnv {s : State} {E : Env} (hE : SameAnswers s E) (p : PinNo) :
    readInput p (s.withEnv E) =
      (readInput p s).map fun r => (r.1, r.2.withEnv (E.afterRead levOff (nextLev s))) := by
  have hpin : ∀ r : Access (Bool × State), pinOp p (s.withEnv E) r = pinOp p s r := fun _ => rfl
  unfold readInput
  rw [hpin, regRead_withEnv hE, pinOp_map]
  cases hr : regRead levOff s with
  | error r => rfl
  | ok x =>
    obtain ⟨v, t⟩ := x
    rw [← regRead_lev_value hr]
    rfl

theorem writeCounter_withEnv (s : State) (E : Env) (ph : PollPhase) (v : Count) :
    writeCounter (s.withEnv E) ph v = (writeCounter s ph v).withEnv E := by
  cases ph <;> rfl

theorem askMapper_withEnv {s : State} {E : Env} (hE : SameAnswers s E) :
    askMapper (s.withEnv E) =
      (askMapper s).withEnv (E.afterRequest (mapperResponse (nextMapper s))) := by
  unfold askMapper
  rw [hE.mapper]
  rfl

theorem raiseError_withEnv (e : ErrKind) (place : Option PollPhase) (s : State) (E : Env) :
    raiseError e place (s.withEnv E) = (raiseError e place s).withEnv (E.afterError s.prio) := by
  have hp : (s.withEnv E).prio = s.prio := rfl
  unfold raiseError Env.afterError
  rw [hp]
  split <;> rfl

theorem nextSlot_withEnv (s : State) (E : Env) :
    nextSlot (s.withEnv E) = (nextSlot s).withEnv E := by
  have hu : (s.withEnv E).upc = s.upc := rfl
  unfold nextSlot
  rw [hu]
  split
  · rfl
  · split <;> rfl

/-! ### One step in two environments -/

/-- The events one step performs: one of the alphabet of R12, a mapping request with its answer, or none
where `silent` allows it. -/
inductive StepEvents (silent : Prop) : List Event → Prop where
  | none (h : silent) : StepEvents silent []
  | one (e : Event) : StepEvents silent [e]
  | mapping (r : MapResp) : StepEvents silent [.mapReq, .mapResp r]

theorem StepEvents.mono {silent silent' : Prop} {es : List Event} (h : StepEvents silent es)
    (himp : silent → silent') : StepEvents silent' es := by
  cases h with
  | none h => exact .none (himp h)
  | one e => exact .one e
  | mapping r => exact .mapping r

/-- Two answers of a step from the same engine in two environments, the first of which had recorded the
events `before` and the second none: the same refusal, or the same engine with the same new events and the
same rest of the operation. `mk` is `Prod.mk` inside an operation and `EventState.mk` outside. -/
inductive Echoes {β : Type} (mk : State → Option Pending → β) (silent : Prop) (before : List Event) :
    Access β → Access β → Prop where
  | refused (r : Refusal) : Echoes mk silent before (.error r) (.error r)
  | event (t : State) (w : Option Pending) (E : Env) (ht : t.trace = before ++ E.trace)
      (he : StepEvents silent E.trace) :
      Echoes mk silent before (.ok (mk t w)) (.ok (mk (t.withEnv E) w))

section Echoes

variable {β : Type} {mk : State → Option Pending → β} {silent : Prop} {before : List Event}

theorem Echoes.single {t : State} {w : Option Pending} {E : Env} {e : Event}
    (ht : t.trace = before ++ [e]) (hE : E.trace = [e]) :
    Echoes mk silent before (.ok (mk t w)) (.ok (mk (t.withEnv E) w)) :=
  .event t w E (by rw [ht, hE]) (by rw [hE]; exact .one e)

theorem Echoes.mono {silent' : Prop} {r r' : Access β} (h : Echoes mk silent before r r')
    (himp : silent → silent') : Echoes mk silent' before r r' := by
  cases h with
  | refused r => exact .refused r
  | event t w E ht he => exact .event t w E ht (he.mono himp)

theorem Echoes.pinOp {r r' : Access β} (h : Echoes mk silent before r r') (p : PinNo) (s : State) :
    Echoes mk silent before (pinOp p s r) (Machine.pinOp p s r') := by
  unfold Machine.pinOp
  split
  · exact .refused _
  · split
    · exact h
    · exact .refused _

/-- Closing an event moves the index the same way in both environments. -/
theorem Echoes.closeEvent {r r' : Access Progress} (h : Echoes Prod.mk silent before r r')
    (inAttempt : Bool) :
    Echoes EventState.mk silent before (closeEvent inAttempt r) (Machine.closeEvent inAttempt r') := by
  cases h with
  | refused e => exact .refused e
  | event t w E ht he =>
    cases w with
    | some w => exact .event t (some w) E ht he
    | none =>
      cases inAttempt with
      | false => exact .event t none E ht he
      | true =>
        show Echoes _ _ _ _ (.ok (EventState.mk (nextSlot (t.withEnv E)) none))
        rw [nextSlot_withEnv]
        exact .event (nextSlot t) none E (by rw [nextSlot_trace, ht]) he

/-- An error met with the event `E` has recorded has either its own event in the next step or none. -/
theorem raiseNext_echoes {t : State} {E : Env} (ht : t.trace = before ++ E.trace)
    (he : StepEvents silent E.trace) (e : ErrKind) (place : Option PollPhase) :
    Echoes Prod.mk silent before (.ok (raiseNext e place t)) (.ok (raiseNext e place (t.withEnv E))) := by
  have hp : (t.withEnv E).prio = t.prio := rfl
  unfold raiseNext
  rw [hp]
  by_cases hprio : t.prio = .realTime
  · rw [if_pos hprio, if_pos hprio]
    exact .event t _ E ht he
  · rw [if_neg hprio, if_neg hprio, raiseError_withEnv, Env.afterError, if_neg hprio]
    exact .event _ none E (by rw [raiseError_trace, if_neg hprio, ht]) he

end Echoes

/-! ### The events of the operations -/

theorem wholeOperation_next {i : Instr} {s t : State} (h : exec i s = .next t) :
    wholeOperation i s = .ok (t, none) := by
  unfold wholeOperation
  rw [h]

theorem wholeOperation_answer {i : Instr} {s : State} {x : Access State} (h : exec i s = answer x) :
    wholeOperation i s = x.map fun t => (t, none) := by
  unfold wholeOperation
  rw [h]
  cases x <;> rfl

theorem writeField_eq_map (p : PinNo) (v : Word) (next : Option Pending) (s : State) :
    writeField p v next s = (regWrite (regIndex p) v s).map fun t => (t, next) := by
  unfold writeField
  cases regWrite (regIndex p) v s <;> rfl

theorem regRead_trace {w : Nat} {v : Word} {s t : State} (h : regRead w s = .ok (v, t)) :
    t.trace = s.trace ++ [.busRead w v] := by
  obtain ⟨-, ⟨-, -, rfl⟩ | ⟨-, -, rfl⟩⟩ := regRead_cases h <;> rfl

theorem regWrite_trace {w : Nat} {v : Word} {s t : State} (h : regWrite w v s = .ok t) :
    t.trace = s.trace ++ [.busWrite w v] := by
  obtain ⟨-, ⟨-, rfl⟩ | ⟨-, rfl⟩ | ⟨-, rfl⟩⟩ := regWrite_cases h <;> rfl

theorem readInput_trace {p : PinNo} {b : Bool} {s t : State} (h : readInput p s = .ok (b, t)) :
    t.trace = s.trace ++ [.busRead levOff (nextLev s)] := by
  obtain ⟨-, -, -, rfl⟩ := readInput_cases h
  rfl

section Operations

variable {silent : Prop} {s : State} {E : Env} (hE : SameAnswers s E)
include hE

theorem SameAnswers.log_trace (e : Event) : (E.log e).trace = [e] := by
  rw [Env.log_trace, hE.fresh, List.nil_append]

theorem SameAnswers.afterRead_trace (w : Nat) (v : Word) :
    (E.afterRead w v).trace = [.busRead w v] := by
  rw [Env.afterRead_trace, hE.fresh, List.nil_append]

theorem SameAnswers.afterRequest_trace (r : MapResp) :
    (E.afterRequest r).trace = [.mapReq, .mapResp r] := by
  show E.trace ++ [.mapReq] ++ [.mapResp r] = _
  rw [hE.fresh]
  rfl

theorem silent_echoes {t : State} (ht : t.trace = s.trace) (w : Option Pending) (h : silent) :
    Echoes Prod.mk silent s.trace (.ok (t, w)) (.ok (t.withEnv E, w)) :=
  .event t w E (by rw [ht, hE.fresh, List.append_nil]) (by rw [hE.fresh]; exact .none h)

theorem emit_echoes (e : Event) (w : Option Pending) :
    Echoes Prod.mk silent s.trace (.ok (emit e s, w)) (.ok ((emit e s).withEnv (E.log e), w)) :=
  .single rfl (hE.log_trace e)

theorem regWrite_echoes (w : Nat) (v : Word) (next : Option Pending) :
    Echoes Prod.mk silent s.trace ((regWrite w v s).map fun t => (t, next))
      ((regWrite w v (s.withEnv E)).map fun t => (t, next)) := by
  rw [regWrite_withEnv]
  cases hw : regWrite w v s with
  | error r => exact .refused r
  | ok t => exact .single (regWrite_trace hw) (hE.log_trace _)

theorem readField_echoes (p : PinNo) (k : Word → Pending) :
    Echoes Prod.mk silent s.trace (readField p k s) (readField p k (s.withEnv E)) := by
  unfold readField
  rw [regRead_withEnv hE]
  cases hr : regRead (regIndex p) s with
  | error r => exact .refused r
  | ok x => exact .single (regRead_trace hr) (hE.afterRead_trace _ _)

theorem writeField_echoes (p : PinNo) (v : Word) (next : Option Pending) :
    Echoes Prod.mk silent s.trace (writeField p v next s) (writeField p v next (s.withEnv E)) := by
  rw [writeField_eq_map, writeField_eq_map]
  exact regWrite_echoes hE _ v next

/-- `SETHIGH` and `SETLOW`: one write of the register block. -/
theorem latchWrite_echoes {i : Instr} {p : PinNo} {w : Nat} {v : Word}
    (h : ∀ u : State, exec i u = answer (pinOp p u (regWrite w v u))) :
    Echoes Prod.mk silent s.trace (wholeOperation i s) (wholeOperation i (s.withEnv E)) := by
  rw [wholeOperation_answer (h s), wholeOperation_answer (h _), pinOp_map, pinOp_map]
  exact (regWrite_echoes hE w v none).pinOp p s

theorem readinput_echoes (p : PinNo) :
    Echoes Prod.mk silent s.trace (wholeOperation (.readinput p) s)
      (wholeOperation (.readinput p) (s.withEnv E)) := by
  have hexec : ∀ u : State, exec (.readinput p) u =
      answer ((readInput p u).map fun r => { r.2 with readback := some r.1 }) := by
    intro u
    show execReadinput p u = _
    unfold execReadinput
    cases readInput p u <;> rfl
  rw [wholeOperation_answer (hexec s), wholeOperation_answer (hexec _), readInput_withEnv hE]
  cases hr : readInput p s with
  | error r => exact .refused r
  | ok x =>
    obtain ⟨b, t⟩ := x
    have ht : t.trace = s.trace ++ [.busRead levOff (nextLev s)] := readInput_trace hr
    exact .single (t := { t with readback := some b }) ht (hE.afterRead_trace _ _)

theorem readdata_echoes (h : silent) :
    Echoes Prod.mk silent s.trace (wholeOperation .readdata s)
      (wholeOperation .readdata (s.withEnv E)) := by
  have hrun : attemptRunning (s.withEnv E) = attemptRunning s := rfl
  unfold wholeOperation exec execReaddata
  rw [hrun]
  cases attemptRunning s with
  | true => exact .refused _
  | false => exact silent_echoes hE (attemptStart_trace s) none h

theorem computation_echoes {i : Instr} (t : State) (hs : exec i s = .next t)
    (hs' : exec i (s.withEnv E) = .next (t.withEnv E)) (ht : t.trace = s.trace) (h : silent) :
    Echoes Prod.mk silent s.trace (wholeOperation i s) (wholeOperation i (s.withEnv E)) := by
  rw [wholeOperation_next hs, wholeOperation_next hs']
  exact silent_echoes hE ht none h

theorem raiseError_echoes (e : ErrKind) (place : Option PollPhase) (h : silent) :
    Echoes Prod.mk silent s.trace (.ok (raiseError e place s, none))
      (.ok (raiseError e place (s.withEnv E), none)) := by
  rw [raiseError_withEnv]
  unfold Env.afterError
  by_cases hp : s.prio = .realTime
  · rw [if_pos hp]
    exact .single (by rw [raiseError_trace, if_pos hp]) (hE.log_trace _)
  · rw [if_neg hp]
    exact silent_echoes hE (by rw [raiseError_trace, if_neg hp]) none h

theorem chksum_echoes (h : silent) :
    Echoes Prod.mk silent s.trace (wholeOperation .chksum s)
      (wholeOperation .chksum (s.withEnv E)) := by
  have hv' : frameValid (s.withEnv E) = frameValid s := rfl
  unfold wholeOperation exec execChksum
  rw [hv']
  cases frameValid s with
  | true =>
    exact silent_echoes hE (t := { s with res := some (readingOf s), pc := .done }) rfl none h
  | false => exact raiseError_echoes hE .checksumError none h

theorem mapEvent_echoes (h : silent) :
    Echoes Prod.mk silent s.trace (.ok (mapEvent s)) (.ok (mapEvent (s.withEnv E))) := by
  have hm : (s.withEnv E).mapped = s.mapped := rfl
  unfold mapEvent
  rw [hm, hE.mapper, askMapper_withEnv hE]
  cases s.mapped with
  | true => exact silent_echoes hE rfl none h
  | false =>
    have hreq := hE.afterRequest_trace (mapperResponse (nextMapper s))
    have ht : (askMapper s).trace =
        s.trace ++ (E.afterRequest (mapperResponse (nextMapper s))).trace := by
      rw [hreq, askMapper_trace, List.append_assoc]
      rfl
    have he : StepEvents silent (E.afterRequest (mapperResponse (nextMapper s))).trace := by
      rw [hreq]
      exact .mapping _
    generalize mapperResponse (nextMapper s) = r at ht he ⊢
    cases r with
    | ok => exact .event { askMapper s with mapped := true } none _ ht he
    | deviceOpenError => exact raiseNext_echoes ht he .deviceOpenError none
    | mappingError => exact raiseNext_echoes ht he .mappingError none

theorem pollEvent_echoes (level : Bool) (ph : PollPhase) :
    Echoes Prod.mk silent s.trace (pollEvent level ph s) (pollEvent level ph (s.withEnv E)) := by
  have hc : readCounter (s.withEnv E) ph = readCounter s ph := by cases ph <;> rfl
  have hpin : (s.withEnv E).pin = s.pin := rfl
  have hpar : (s.withEnv E).params = s.params := rfl
  unfold pollEvent
  rw [hc, hpin, hpar, readInput_withEnv hE]
  cases hr : readInput s.pin s with
  | error r => exact .refused r
  | ok x =>
    obtain ⟨b, t⟩ := x
    have ht := readInput_trace hr
    have hread := hE.afterRead_trace levOff (nextLev s)
    simp only [Except.map, writeCounter_withEnv]
    by_cases hb : b = level
    · by_cases hmax : s.params.maxCount ≤ (readCounter s ph).toNat + 1
      · simp only [hb, ne_eq, not_true_eq_false, if_false, if_pos hmax]
        exact raiseNext_echoes (by rw [writeCounter_trace, ht, hread]) (by rw [hread]; exact .one _) _ _
      · simp only [hb, ne_eq, not_true_eq_false, if_false, if_neg hmax]
        exact .single (by rw [writeCounter_trace, ht]) hread
    · simp only [ne_eq, hb, not_false_eq_true, if_true]
      exact .single ht hread

/-- The first event of an operation, in two environments. -/
theorem startOperation_echoes (i : Instr) :
    Echoes Prod.mk (i ∈ silentOperations) s.trace (startOperation i s)
      (startOperation i (s.withEnv E)) := by
  cases i with
  | ensuremapped => exact mapEvent_echoes hE (by decide)
  | setinput p => exact (readField_echoes hE p _).pinOp p s
  | setoutput p => exact (readField_echoes hE p _).pinOp p s
  | sethigh p => exact latchWrite_echoes hE fun _ => rfl
  | setlow p => exact latchWrite_echoes hE fun _ => rfl
  | readinput p => exact readinput_echoes hE p
  | readdata => exact readdata_echoes hE (by decide)
  | sleepc ms => exact emit_echoes hE _ none
  | waitp ms => exact emit_echoes hE _ none
  | settle => exact emit_echoes hE _ none
  | prioup => exact .single (t := raisePrio s) rfl (hE.log_trace .prioUp)
  | priodn => exact .single (t := lowerPrio s) rfl (hE.log_trace .prioDown)
  | waitresp => exact pollEvent_echoes hE true .waitResponse
  | cntlow k =>
    simp only [startOperation]
    cases pulseIndex k with
    | some n => exact pollEvent_echoes hE false (.sampleLow n)
    | none => exact .refused _
  | cnthigh k =>
    simp only [startOperation]
    cases pulseIndex k with
    | some n => exact pollEvent_echoes hE true (.sampleHigh n)
    | none => exact .refused _
  | thresh =>
    exact computation_echoes hE (i := .thresh) { s with thr := BitVec.ofNat 32 (thresholdSum s / thrN) }
      rfl rfl rfl (by decide)
  | decbits =>
    exact computation_echoes hE (i := .decbits)
      { s with dat := (List.range' decFirst nBits).foldl (decodePulse s) s.dat }
      rfl rfl rfl (by decide)
  | chksum => exact chksum_echoes hE (by decide)

/-- The next event of an operation under way, in two environments. -/
theorem continueOperation_echoes (w : Pending) :
    Echoes Prod.mk True s.trace (continueOperation w s) (continueOperation w (s.withEnv E)) := by
  cases w with
  | clearField p v output => exact writeField_echoes hE p _ _
  | readAgain p => exact readField_echoes hE p _
  | setField p v => exact writeField_echoes hE p _ none
  | poll level ph => exact pollEvent_echoes hE level ph
  | errorEntry e place => exact raiseError_echoes hE e place trivial

end Operations

/-! ### The step of one event -/

/-- The step of `f` begins an operation that may perform no event. -/
def BeginsSilent (f : EventState) : Prop :=
  ∃ i ∈ silentOperations,
    (f.st.running = true ∧ slotInstr f.st.pin f.st.upc.val = some i) ∨
    (f.st.running = false ∧ ∃ w : OpWord, f.st.calls.head? = some w ∧ decode w = .op i)

/-- The steps that may perform no event: inside an operation, at the start of a silent one, or while the
engine waits for its caller. -/
def MayBeSilent (f : EventState) : Prop :=
  f.pending ≠ none ∨ BeginsSilent f ∨ (f.st.running = false ∧ f.st.calls = [])

/-- The environment of `engineStep`: the answers `s` has in store for one step, and no event. -/
def State.nextEnv (s : State) : Env where
  calls := s.calls.head?.toList
  line := [nextLev s]
  lineReads := 0
  mapper := [nextMapper s]
  mapReqs := 0
  trace := []

theorem sameAnswers_nextEnv (s : State) : SameAnswers s s.nextEnv := ⟨rfl, rfl, rfl⟩

theorem withInput_eq_withEnv (f : EventState) :
    f.engine.withInput (nextInput f.st) =
      { st := f.st.withEnv f.st.nextEnv, pending := f.pending } :=
  withInput_nextInput f

theorem eventStep_continue {s : State} {w : Pending} :
    eventStep { st := s, pending := some w } = closeEvent s.running (continueOperation w s) := rfl

/-- A step of one event, in the environment of a state and in the one that holds its next answers only. -/
theorem eventStep_echoes (f : EventState) :
    Echoes EventState.mk (MayBeSilent f) f.st.trace (eventStep f)
      (eventStep { st := f.st.withEnv f.st.nextEnv, pending := f.pending }) := by
  obtain ⟨s, pending⟩ := f
  have hE := sameAnswers_nextEnv s
  cases pending with
  | some w =>
    rw [eventStep_continue, eventStep_continue]
    exact ((continueOperation_echoes hE w).closeEvent s.running).mono fun _ => .inl (by simp)
  | none =>
    cases hr : s.running with
    | true =>
      have hr' : (s.withEnv s.nextEnv).running = true := hr
      cases hi : slotInstr s.pin s.upc.val with
      | none =>
        rw [eventStep_slot_none hr hi, eventStep_slot_none hr' hi]
        exact .single (t := attemptEnd s) (E := s.nextEnv.log (.result s.res)) rfl rfl
      | some i =>
        rw [eventStep_slot hr hi, eventStep_slot hr' hi]
        exact ((startOperation_echoes hE i).closeEvent true).mono fun h =>
          .inr (.inl ⟨i, h, .inl ⟨hr, hi⟩⟩)
    | false =>
      have hr' : (s.withEnv s.nextEnv).running = false := hr
      cases hc : s.calls with
      | nil =>
        have hc' : (s.withEnv s.nextEnv).calls = [] := by simp [State.withEnv, State.nextEnv, hc]
        rw [eventStep_waits hr hc, eventStep_waits hr' hc']
        exact .event s none s.nextEnv (by simp [State.nextEnv]) (.none (.inr (.inr ⟨hr, hc⟩)))
      | cons w rest =>
        have hc' : (s.withEnv s.nextEnv).calls = [w] := by simp [State.withEnv, State.nextEnv, hc]
        cases hd : decode w with
        | bad e =>
          rw [eventStep_badCall hr hc hd, eventStep_badCall hr' hc' hd]
          exact .refused _
        | op i =>
          have hE' : SameAnswers { s with calls := rest } { s.nextEnv with calls := [] } :=
            ⟨rfl, rfl, rfl⟩
          rw [eventStep_call hr hc hd, eventStep_call hr' hc' hd]
          exact ((startOperation_echoes hE' i).closeEvent false).mono fun h =>
            .inr (.inl ⟨i, h, .inr ⟨hr, w, by simp [hc], hd⟩⟩)

theorem engineStep_of_refused {f : EventState} {r : Refusal} (h : eventStep f = .error r) :
    engineStep (nextInput f.st) f.engine = .error r := by
  have hecho := eventStep_echoes f
  unfold engineStep
  rw [withInput_eq_withEnv]
  rw [h] at hecho
  generalize eventStep { st := f.st.withEnv f.st.nextEnv, pending := f.pending } = r' at hecho ⊢
  cases hecho
  rfl

/-- `engineStep` from the engine of a state performs the events its event step adds to the trace, and
leaves the same engine. -/
theorem engineStep_of_eventStep {f g : EventState} (h : eventStep f = .ok g) :
    ∃ es : List Event, g.st.trace = f.st.trace ++ es ∧ StepEvents (MayBeSilent f) es ∧
      engineStep (nextInput f.st) f.engine = .ok (es, g.engine) := by
  have hecho := eventStep_echoes f
  unfold engineStep
  rw [withInput_eq_withEnv]
  rw [h] at hecho
  generalize eventStep { st := f.st.withEnv f.st.nextEnv, pending := f.pending } = r' at hecho ⊢
  cases hecho with
  | event t w E ht he => exact ⟨E.trace, ht, he, rfl⟩

theorem engineStep_ok {x : StepInput} {e e' : Engine} {es : List Event}
    (h : engineStep x e = .ok (es, e')) :
    ∃ g, eventStep (e.withInput x) = .ok g ∧ es = g.st.trace ∧ e' = g.engine := by
  unfold engineStep at h
  split at h
  · cases h
  · rename_i g hg
    cases h
    exact ⟨g, hg, rfl, rfl⟩

/-- The events of a step with its parameters. -/
theorem engineStep_events {x : StepInput} {e e' : Engine} {es : List Event}
    (h : engineStep x e = .ok (es, e')) : StepEvents (MayBeSilent (e.withInput x)) es := by
  obtain ⟨g, hg, rfl, -⟩ := engineStep_ok h
  obtain ⟨es, ht, he, -⟩ := engineStep_of_eventStep hg
  rw [ht]
  exact he

/-- At rest with nothing invoked the engine stays as it is (log 3). -/
theorem engineStep_waits {x : StepInput} {e e' : Engine} {es : List Event}
    (h : engineStep x e = .ok (es, e')) (hp : e.pending = none) (hr : e.running = false)
    (hc : x.call = none) : e' = e := by
  obtain ⟨g, hg, -, rfl⟩ := engineStep_ok h
  have hcalls : (e.withInput x).st.calls = [] := by
    show x.call.toList = []
    rw [hc]
    rfl
  have hf : e.withInput x = { st := (e.withInput x).st, pending := none } :=
    congrArg (EventState.mk _) hp
  have hwait : eventStep (e.withInput x) = .ok (e.withInput x) := by
    rw [hf]
    exact eventStep_waits hr hcalls
  cases hg.symm.trans hwait
  rfl

/-- Settles O54: the first part is what the events of a step can be (`StepEvents`), the second which steps
may have none (`MayBeSilent`). -/
theorem oneEventPerStep : Obligations.OneEventPerStep := by
  unfold Obligations.OneEventPerStep
  intro x e e' es h
  have hcall : (e.withInput x).st.calls = x.call.toList := rfl
  cases engineStep_events h with
  | one ev => exact ⟨.inr (.inl ⟨ev, rfl⟩), fun h => by cases h⟩
  | mapping r => exact ⟨.inr (.inr ⟨r, rfl⟩), fun h => by cases h⟩
  | none hsilent =>
    refine ⟨.inl rfl, fun _ hp => ?_⟩
    obtain hpending | ⟨i, hi, hbegin⟩ | ⟨hr, hc⟩ := hsilent
    · exact absurd hp hpending
    · obtain hslot | ⟨hr, w, hw, hd⟩ := hbegin
      · exact .inl ⟨i, hi, .inl hslot⟩
      · exact .inl ⟨i, hi, .inr ⟨hr, w, by simpa [hcall] using hw, hd⟩⟩
    · have hc' : x.call = none := by simpa [hcall] using hc
      exact .inr ⟨hr, hc', engineStep_waits h hp hr hc'⟩

/-- Settles O55: an event step and `engineStep` under the answers in store run the same engine in two
environments (`eventStep_echoes`). -/
theorem answersAreParameters : Obligations.AnswersAreParameters := by
  unfold Obligations.AnswersAreParameters
  constructor
  · intro f g h
    obtain ⟨es, ht, -, he⟩ := engineStep_of_eventStep h
    exact ⟨es, ht, he⟩
  · intro f r h
    exact engineStep_of_refused h

end Sys2Proof.Machine
end

section
/-! The counters of the engine: which operation writes which (spec 10_state.md R21, R24 to R26). -/

namespace Sys2Proof.Machine

open Sys2Proof.Safety

/-! ### The counter of a polling phase by its slot (R79) -/

/-- Entry `k` of the sample is the counter of slot `10 + k`. -/
theorem readCnt_writeCounter_slot (s : State) (ph : PollPhase) (v : Count) (k : Nat) :
    readCnt (writeCounter s ph v) k = if 10 + k = pollSlot ph then v else readCnt s k := by
  rw [readCnt_writeCounter]
  cases ph with
  | waitResponse => rw [if_neg (by simp only [pollSlot]; omega)]
  | sampleLow i => simp only [pollSlot, Nat.add_left_cancel_iff]
  | sampleHigh i =>
    have hslot : 10 + k = 11 + 2 * i.val ↔ k = 2 * i.val + 1 := by omega
    simp only [pollSlot, hslot]

/-- `wcnt` is the counter of slot 9. -/
theorem wcnt_writeCounter_slot (s : State) (ph : PollPhase) (v : Count) :
    (writeCounter s ph v).wcnt = if pollSlot ph = 9 then v else s.wcnt := by
  cases ph with
  | waitResponse => rfl
  | sampleLow i =>
    rw [if_neg (by simp only [pollSlot]; omega)]
    rfl
  | sampleHigh i =>
    rw [if_neg (by simp only [pollSlot]; omega)]
    rfl

theorem readCnt_congr {s t : State} (h : t.cnt = s.cnt) (k : Nat) : readCnt t k = readCnt s k := by
  unfold readCnt
  rw [h]

@[simp] theorem readCnt_afterReads (s : State) (n k : Nat) :
    readCnt (afterReads s n) k = readCnt s k := rfl

@[simp] theorem readCnt_raiseError (e : ErrKind) (place : Option PollPhase) (s : State) (k : Nat) :
    readCnt (raiseError e place s) k = readCnt s k :=
  readCnt_congr (raiseError_cnt e place s) k

/-! ### Which operation writes a counter -/

/-- The entry of the sample that the slot `10 + k` counts in is named by that slot's operation. -/
theorem pollInstr_of_slot {ph : PollPhase} {k : Nat} (h : 10 + k = pollSlot ph) :
    (k % 2 = 0 ∧ pollInstr ph = .cntlow (BitVec.ofNat 6 (k / 2))) ∨
      (k % 2 = 1 ∧ pollInstr ph = .cnthigh (BitVec.ofNat 6 (k / 2))) := by
  cases ph with
  | waitResponse => simp only [pollSlot] at h; omega
  | sampleLow i =>
    simp only [pollSlot] at h
    obtain rfl : k = 2 * i.val := by omega
    exact .inl ⟨by omega, by rw [Nat.mul_div_cancel_left _ (by decide)]; rfl⟩
  | sampleHigh i =>
    simp only [pollSlot] at h
    obtain rfl : k = 2 * i.val + 1 := by omega
    have hi : (2 * i.val + 1) / 2 = i.val := by omega
    exact .inr ⟨by omega, by rw [hi]; rfl⟩

theorem pollInstr_eq_waitresp {ph : PollPhase} (h : pollSlot ph = 9) : pollInstr ph = .waitresp := by
  cases ph with
  | waitResponse => rfl
  | sampleLow i => simp only [pollSlot] at h; omega
  | sampleHigh i => simp only [pollSlot] at h; omega

/-- An operation other than `READDATA` writes no counter, or is the polling operation of a phase and
writes the counter of that phase only. -/
theorem exec_counters {s t : State} {i : Instr} (h : exec i s = .next t) (hi : i ≠ .readdata) :
    (t.cnt = s.cnt ∧ t.wcnt = s.wcnt) ∨
    ∃ ph v, i = pollInstr ph ∧ (∀ k, readCnt t k = readCnt (writeCounter s ph v) k) ∧
      t.wcnt = (writeCounter s ph v).wcnt := by
  cases exec_effect h with
  | readdata => exact absurd rfl hi
  | pollEnds ph n v =>
    exact .inr ⟨ph, v, rfl, fun k => by simp [readCnt_writeCounter_slot],
      by simp [wcnt_writeCounter_slot]⟩
  | pollTimesOut ph n v =>
    exact .inr ⟨ph, v, rfl, fun k => by simp [readCnt_writeCounter_slot],
      by simp [wcnt_writeCounter_slot]⟩
  | _ => exact .inl (by simp)

theorem exec_keeps_thr {s t : State} {i : Instr} (h : exec i s = .next t) (hi : i ≠ .thresh) :
    t.thr = s.thr := by
  cases exec_effect h with
  | thresh => exact absurd rfl hi
  | _ => simp

theorem exec_keeps_dat {s t : State} {i : Instr} (h : exec i s = .next t) (hr : i ≠ .readdata)
    (hd : i ≠ .decbits) : t.dat = s.dat := by
  cases exec_effect h with
  | readdata => exact absurd rfl hr
  | decbits => exact absurd rfl hd
  | _ => simp

/-- Settles O41: a polling operation writes the counter of its own phase, no other operation but
`READDATA` writes any; `thr` and `dat` by the frames of the other operations. -/
theorem writersOfEngineRegisters : Obligations.WritersOfEngineRegisters := by
  unfold Obligations.WritersOfEngineRegisters
  intro s t i h
  refine ⟨fun k _ hk => ?_, fun hw => ?_, fun ht => ?_, fun hd => ?_⟩
  · by_cases hi : i = .readdata
    · exact .inl hi
    obtain ⟨hcnt, -⟩ | ⟨ph, v, rfl, hcnt, -⟩ := exec_counters h hi
    · exact absurd (readCnt_congr hcnt k) hk
    · rw [hcnt, readCnt_writeCounter_slot] at hk
      exact .inr (pollInstr_of_slot (by by_contra hne; simp [hne] at hk))
  · by_cases hi : i = .readdata
    · exact .inl hi
    obtain ⟨-, hwcnt⟩ | ⟨ph, v, rfl, -, hwcnt⟩ := exec_counters h hi
    · exact absurd hwcnt hw
    · rw [hwcnt, wcnt_writeCounter_slot] at hw
      exact .inr (pollInstr_eq_waitresp (by by_contra hne; simp [hne] at hw))
  · by_contra hi
    exact ht (exec_keeps_thr h hi)
  · by_contra hi
    obtain ⟨hr, hb⟩ := not_or.mp hi
    exact hd (exec_keeps_dat h hr hb)

end Sys2Proof.Machine
end

section
/-! What every step keeps: the pin, the parameters, a map once present, and the trace so far (spec
10_state.md R28, R31; 00_scope.md R13). -/

namespace Sys2Proof.Machine

open Sys2Proof.Safety

/-- The configuration and the history of `s` are still there in `t`. -/
structure Persists (s t : State) : Prop where
  pin : t.pin = s.pin
  params : t.params = s.params
  mapped : s.mapped = true → t.mapped = true
  trace : s.trace <+: t.trace

theorem Persists.trans {s t u : State} (h : Persists s t) (h' : Persists t u) : Persists s u :=
  ⟨h'.pin.trans h.pin, h'.params.trans h.params, fun hm => h'.mapped (h.mapped hm),
    h.trace.trans h'.trace⟩

/-- An update that keeps all four fields. -/
theorem Persists.of_eq {s t : State} (hpin : t.pin = s.pin) (hparams : t.params = s.params)
    (hmapped : t.mapped = s.mapped) (htrace : t.trace = s.trace) : Persists s t :=
  ⟨hpin, hparams, fun hm => hmapped.trans hm, htrace ▸ List.prefix_refl _⟩

theorem Persists.refl (s : State) : Persists s s := .of_eq rfl rfl rfl rfl

theorem persists_emit (e : Event) (s : State) : Persists s (emit e s) :=
  ⟨rfl, rfl, id, List.prefix_append _ _⟩

theorem persists_afterModify (s : State) (p : PinNo) (f : Word → Word) :
    Persists s (afterModify s p f) :=
  ⟨rfl, rfl, id, (List.prefix_append _ _).trans (List.prefix_append _ _)⟩

theorem persists_afterReads (s : State) (n : Nat) : Persists s (afterReads s n) :=
  ⟨rfl, rfl, id, List.prefix_append _ _⟩

theorem persists_writeCounter (s : State) (ph : PollPhase) (v : Count) :
    Persists s (writeCounter s ph v) :=
  .of_eq (by simp) (by simp) (by simp) (by simp)

theorem persists_askMapper (s : State) : Persists s (askMapper s) :=
  ⟨rfl, rfl, id, (List.prefix_append _ _).trans (List.prefix_append _ _)⟩

theorem persists_raiseError (e : ErrKind) (place : Option PollPhase) (s : State) :
    Persists s (raiseError e place s) := by
  refine ⟨by simp, by simp, by simp, ?_⟩
  rw [raiseError_trace]
  split
  · exact List.prefix_append _ _
  · exact List.prefix_refl _

/-- What `ENSUREMAPPED` can do (R90): nothing with a map present; else one request, and either the map
or the error of the answer. -/
theorem ensureMapped_cases (s : State) :
    (s.mapped = true ∧ ensureMapped s = s) ∨
    ensureMapped s = { askMapper s with mapped := true } ∨
    ∃ e, (e = .deviceOpenError ∨ e = .mappingError) ∧
      ensureMapped s = raiseError e none (askMapper s) := by
  unfold ensureMapped
  split
  · rename_i hm
    exact .inl ⟨hm, rfl⟩
  · split
    · exact .inr (.inl rfl)
    · exact .inr (.inr ⟨_, .inl rfl, rfl⟩)
    · exact .inr (.inr ⟨_, .inr rfl, rfl⟩)

theorem persists_ensureMapped (s : State) : Persists s (ensureMapped s) := by
  obtain ⟨-, he⟩ | he | ⟨e, -, he⟩ := ensureMapped_cases s
  · rw [he]
    exact .refl s
  · rw [he]
    exact (persists_askMapper s).trans ⟨rfl, rfl, fun _ => rfl, List.prefix_refl _⟩
  · rw [he]
    exact (persists_askMapper s).trans (persists_raiseError e none _)

/-- The state a polling operation counts in before it ends or raises. -/
theorem persists_polled (s : State) (n : Nat) (ph : PollPhase) (v : Count) :
    Persists s (writeCounter (afterReads s n) ph v) :=
  (persists_afterReads s n).trans (persists_writeCounter _ ph v)

theorem exec_persists {s t : State} {i : Instr} (h : exec i s = .next t) : Persists s t := by
  cases exec_effect h with
  | ensuremapped => exact persists_ensureMapped s
  | setinput p => exact persists_afterModify s p _
  | setoutput p => exact (persists_afterModify s p _).trans (persists_afterModify _ p _)
  | sethigh p => exact ⟨rfl, rfl, id, List.prefix_append _ _⟩
  | setlow p => exact ⟨rfl, rfl, id, List.prefix_append _ _⟩
  | readinput p => exact (persists_afterReads s 1).trans (.of_eq rfl rfl rfl rfl)
  | readdata => exact .of_eq rfl rfl rfl rfl
  | sleepc ms => exact persists_emit _ s
  | waitp ms => exact persists_emit _ s
  | settle => exact persists_emit _ s
  | prioup => exact (persists_emit .prioUp s).trans (.of_eq rfl rfl rfl rfl)
  | priodn => exact (persists_emit .prioDown s).trans (.of_eq rfl rfl rfl rfl)
  | pollEnds ph n v => exact persists_polled s (n + 1) ph v
  | pollTimesOut ph n v => exact (persists_polled s (n + 1) ph v).trans (persists_raiseError _ _ _)
  | thresh => exact .of_eq rfl rfl rfl rfl
  | decbits => exact .of_eq rfl rfl rfl rfl
  | chksumValid => exact .of_eq rfl rfl rfl rfl
  | chksumInvalid => exact persists_raiseError _ _ s

theorem persists_attemptEnd (s : State) : Persists s (attemptEnd s) :=
  ⟨rfl, rfl, id, List.prefix_append _ _⟩

theorem persists_afterSlot (s : State) : Persists s (afterSlot s) := by
  have hnext : Persists s (nextSlot s) := .of_eq (by simp) (by simp) (by simp) (by simp)
  rw [afterSlot_eq]
  split
  · exact hnext.trans (persists_attemptEnd _)
  · exact hnext

theorem step_persists {s t : State} (h : step s = .next t) : Persists s t := by
  obtain ⟨-, -, rfl⟩ | ⟨-, i, u, -, hu, rfl⟩ | ⟨-, -, rfl⟩ | ⟨-, w, rest, i, -, -, hi⟩ :=
    step_cases h
  · exact persists_attemptEnd s
  · exact (exec_persists hu).trans (persists_afterSlot u)
  · exact .refl t
  · have htaken : Persists s { s with calls := rest } := .of_eq rfl rfl rfl rfl
    exact htaken.trans (exec_persists hi)

/-- Settles O44: every operation, the advance after a slot and the end of an attempt only add to what
`Persists` keeps. -/
theorem configurationAndMapPersist : Obligations.ConfigurationAndMapPersist := by
  unfold Obligations.ConfigurationAndMapPersist
  intro s t h
  obtain ⟨hpin, hparams, hmapped, es, hes⟩ := step_persists h
  exact ⟨hpin, hparams, hmapped, es, hes.symm⟩

end Sys2Proof.Machine
end

section
/-! The level a pin drives (spec 10_state.md R32, R36). -/

namespace Sys2Proof.Machine

open Sys2Proof.Safety

theorem drivenLevel_of_output {s : State} {p : PinNo} (h : pinFunction s p = fselOutput) :
    drivenLevel s p = some (latch s p) :=
  if_pos h

theorem drivenLevel_eq_none_iff {s : State} {p : PinNo} :
    drivenLevel s p = none ↔ pinFunction s p ≠ fselOutput := by
  unfold drivenLevel
  split <;> simp [*]

theorem exec_setinput_ready {s : State} (h : Ready s) {p : PinNo} (hp : pinLegal p) :
    exec (.setinput p) s = .next (afterModify s p fun v => v &&& ~~~fselMask p) :=
  congrArg answer (setInput_ready h hp)

theorem exec_setoutput_ready {s : State} (h : Ready s) {p : PinNo} (hp : pinLegal p) :
    exec (.setoutput p) s = .next (afterModify (afterModify s p fun v => v &&& ~~~fselMask p) p
      fun v => v ||| fselOut p) :=
  congrArg answer (setOutput_ready h hp)

theorem exec_sethigh_ready {s : State} (h : Ready s) {p : PinNo} (hp : pinLegal p) :
    exec (.sethigh p) s =
      .next (emit (.busWrite setOff (pinBit p)) { s with out := s.out ||| pinBit p }) :=
  congrArg answer ((pinOp_ready h hp _).trans (regWrite_set h (pinBit p)))

theorem exec_setlow_ready {s : State} (h : Ready s) {p : PinNo} (hp : pinLegal p) :
    exec (.setlow p) s =
      .next (emit (.busWrite clrOff (pinBit p)) { s with out := s.out &&& ~~~pinBit p }) :=
  congrArg answer ((pinOp_ready h hp _).trans (regWrite_clr h (pinBit p)))

/-- `SETINPUT p` leaves pin `p` with the function "input" (R101). -/
theorem pinFunction_after_setinput {s : State} {p : PinNo} (hp : pinLegal p) :
    pinFunction (afterModify s p fun v => v &&& ~~~fselMask p) p = fselInput := by
  rw [pinFunction_afterModify hp, fieldOf_clear]

/-- `SETOUTPUT p` leaves pin `p` with the function "basic output" (R102). -/
theorem pinFunction_after_setoutput {s : State} {p : PinNo} (hp : pinLegal p) :
    pinFunction (afterModify (afterModify s p fun v => v &&& ~~~fselMask p) p
      fun v => v ||| fselOut p) p = fselOutput := by
  rw [pinFunction_afterModify hp, readFsel_afterModify hp, if_pos rfl, fieldOf_output]

@[simp] theorem latch_afterModify (s : State) (p : PinNo) (f : Word → Word) (q : PinNo) :
    latch (afterModify s p f) q = latch s q := rfl

/-- Settles O21: `SETOUTPUT` and `SETINPUT` decide the function and keep the latch, `SETHIGH` and
`SETLOW` decide the latch and keep the function. -/
theorem pinDrivesLatchWhileOutput : Obligations.PinDrivesLatchWhileOutput := by
  unfold Obligations.PinDrivesLatchWhileOutput
  intro s p hs hp
  refine ⟨⟨_, exec_setoutput_ready hs hp, ?_⟩, ⟨_, exec_setinput_ready hs hp, ?_, rfl⟩,
    fun hdrives => ?_⟩
  · rw [drivenLevel_of_output (pinFunction_after_setoutput hp), latch_afterModify,
      latch_afterModify]
  · rw [drivenLevel_eq_none_iff, pinFunction_after_setinput hp]
    decide
  · have hout : pinFunction s p = fselOutput := by
      by_contra hne
      exact hdrives (drivenLevel_eq_none_iff.mpr hne)
    refine ⟨⟨_, exec_sethigh_ready hs hp, ?_⟩, ⟨_, exec_setlow_ready hs hp, ?_⟩⟩
    · rw [drivenLevel_of_output (by exact hout), latch_emit, latch_set hp]
      simp
    · rw [drivenLevel_of_output (by exact hout), latch_emit, latch_clear hp]
      simp

end Sys2Proof.Machine
end

section
/-! The state right after construction (spec 10_state.md R39, R190). -/

namespace Sys2Proof.Machine

open Sys2Proof.Safety

theorem construct_next {c : Params} {pin : Nat} {u : Unspecified} {s : State}
    (h : State.construct c pin u = .next s) :
    c.Admissible pin ∧ s = State.fresh c (BitVec.ofNat 6 pin) u := by
  unfold State.construct at h
  split at h
  · rename_i hadm
    cases h
    exact ⟨hadm, rfl⟩
  · cases h

/-- An admitted pin number fits the operand field (R10, R72). -/
theorem toNat_ofNat_pin {c : Params} {pin : Nat} (h : c.Admissible pin) :
    (BitVec.ofNat 6 pin : PinNo).toNat = pin := by
  obtain ⟨hpin, -⟩ := h
  rw [BitVec.toNat_ofNat]
  omega

/-- The first `READDATA` after construction is accepted (R131). -/
theorem exec_readdata_fresh (c : Params) (p : PinNo) (u : Unspecified) :
    exec .readdata (State.fresh c p u) = .next (attemptStart (State.fresh c p u)) := rfl

/-- Settles O8: construction is `State.fresh`, and the first attempt start zeroes the counters. -/
theorem constructionLeavesResetState : Obligations.ConstructionLeavesResetState := by
  unfold Obligations.ConstructionLeavesResetState
  intro c pin u hadm
  refine ⟨_, construct_admitted hadm u, toNat_ofNat_pin hadm, rfl, rfl, rfl, rfl, rfl, rfl, rfl, rfl,
    rfl, rfl, rfl, rfl, rfl, rfl, rfl, rfl, fun t ht => ?_⟩
  rw [exec_readdata_fresh] at ht
  cases ht
  exact ⟨rfl, rfl⟩

/-! ### The invariants at reset -/

theorem inv_fresh {c : Params} {p : PinNo} (h : c.Admissible p.toNat) (u : Unspecified) :
    Inv (State.fresh c p u) where
  admissible := h
  publicOnly := by simp [PublicOnly, State.fresh]
  priority := by simp [State.fresh, samplingPhase]
  place := by simp [State.fresh]
  running := by simp [State.fresh]
  resting _ :=
    { phase := rfl
      idle := fun _ => ⟨rfl, rfl, rfl⟩
      done := by simp [State.fresh]
      failed := by simp [State.fresh]
      counts := fun hne => absurd rfl hne
      response := fun hne => absurd rfl hne }

/-- Construction performs no event. -/
theorem mapHistory_fresh (c : Params) (p : PinNo) (u : Unspecified) :
    MapHistory (State.fresh c p u) where
  none_before := by simp [State.fresh]
  at_most_one := by simp [State.fresh]
  no_request_after := by simp [State.fresh]

theorem prioPaired_fresh (c : Params) (p : PinNo) (u : Unspecified) :
    PrioPaired (State.fresh c p u) := rfl

/-- No attempt runs and none has ended. -/
theorem pinInv_fresh (c : Params) (p : PinNo) (u : Unspecified) : PinInv (State.fresh c p u) := by
  constructor <;> simp [State.fresh]

/-- The free configuration of `State.reset` lies inside R10 (log 7). -/
theorem admissible_config : Config.params.Admissible Config.pinArg.val := by
  have hpin := Config.pinArg.isLt
  have hmax := Config.maxCountLess1.isLt
  rw [admissible_iff]
  simp only [Config.params]
  omega

/-- `State.reset` is one construction. -/
theorem construct_reset :
    State.construct Config.params Config.pinArg.val resetContents = .next State.reset :=
  construct_admitted admissible_config resetContents

theorem invariants_of_construct {c : Params} {pin : Nat} {u : Unspecified} {s : State}
    (h : State.construct c pin u = .next s) : Inv s ∧ MapHistory s ∧ PrioPaired s ∧ PinInv s := by
  obtain ⟨hadm, rfl⟩ := construct_next h
  exact ⟨inv_fresh (by rwa [toNat_ofNat_pin hadm]) u, mapHistory_fresh .., prioPaired_fresh ..,
    pinInv_fresh ..⟩

/-- Settles O10: each invariant holds of every constructed state, and `State.reset` is one. -/
theorem invariantsHoldAtReset : Obligations.InvariantsHoldAtReset := by
  unfold Obligations.InvariantsHoldAtReset
  exact ⟨fun _ _ _ _ h => invariants_of_construct h, invariants_of_construct construct_reset⟩

end Sys2Proof.Machine
end

section
/-! The invariant of a driver in public use, step by step (spec 42_protocol_sequencer.md R113,
R115, R126; 60_exceptions.md R166): a slot that completes, a slot that raises, the last slot, the
attempt start. -/

namespace Sys2Proof.Machine

open Sys2Proof.Safety

theorem publicOnly_congr {s t : State} (h : PublicOnly s) (hcalls : t.calls = s.calls) :
    PublicOnly t := by
  unfold PublicOnly
  rwa [hcalls]

/-! ### What the invariant says of the priority and of the counters -/

/-- In an attempt the priority is raised from slot 9 to slot 92 (R29). -/
theorem prio_realTime_iff_slot {s : State} (hI : Inv s) (hr : s.running = true) :
    s.prio = .realTime ↔ 9 ≤ s.upc.val ∧ s.upc.val ≤ 92 := by
  have hR := hI.running hr
  rw [hI.priority, hR.pc_follows, phaseOf_sampling hR.upc_lt]

/-- At rest the priority is not raised (R29). -/
theorem prio_ne_realTime_at_rest {s : State} (hI : Inv s) (hr : s.running = false) :
    s.prio ≠ .realTime := by
  have hphase := (hI.resting hr).phase
  rw [Ne, hI.priority]
  cases hpc : s.pc <;> simp [hpc, restingPhase, samplingPhase] at hphase ⊢

/-- No counter of an attempt is above the ceiling (R21, R24). -/
theorem counters_le_maxCount {s : State} (hR : RunningInv s) :
    (∀ k, k < 82 → (readCnt s k).toNat ≤ s.params.maxCount) ∧ s.wcnt.toNat ≤ s.params.maxCount := by
  refine ⟨fun k hk => ?_, ?_⟩
  · have hcount := hR.counts k hk
    split at hcount
    · omega
    · simp [hcount]
  · have hcount := hR.response
    split at hcount
    · omega
    · simp [hcount]

/-- A count within the ceiling fits its register (R10). -/
theorem toNat_ofNat_count {s : State} (hI : Inv s) {n : Nat} (hn : n ≤ s.params.maxCount) :
    (BitVec.ofNat 32 n : Count).toNat = n := by
  obtain ⟨-, -, hmax, -⟩ := hI.admissible
  rw [BitVec.toNat_ofNat]
  omega

/-! ### A slot that raises an error -/

/-- What the operation of a slot leaves alone until it raises an error or gives a reading. -/
structure SlotKeeps (s u : State) : Prop where
  pin : u.pin = s.pin
  params : u.params = s.params
  calls : u.calls = s.calls
  running : u.running = s.running
  upc : u.upc = s.upc
  err : u.err = s.err
  errPhase : u.errPhase = s.errPhase
  res : u.res = s.res

theorem slotKeeps_polled (s : State) (n : Nat) (ph : PollPhase) (v : Count) :
    SlotKeeps s (writeCounter (afterReads s n) ph v) := by
  constructor <;> simp

/-- The error entry (R166) leaves the driver at rest in `Failed`. -/
theorem inv_afterSlot_raiseError {s w : State} {e : ErrKind} {place : Option PollPhase} (hI : Inv s)
    (hk : SlotKeeps s w) (he : e ≠ .noError) (hplace : place ≠ none ↔ e = .timeoutError)
    (hcounts : ∀ k, k < 82 → (readCnt w k).toNat ≤ s.params.maxCount)
    (hresponse : w.wcnt.toNat ≤ s.params.maxCount) : Inv (afterSlot (raiseError e place w)) := by
  rw [afterSlot_error rfl]
  have hparams : (attemptEnd (raiseError e place w)).params = s.params := by simp [hk.params]
  refine
    { admissible := by simpa [hk.pin, hk.params] using hI.admissible
      publicOnly := publicOnly_congr hI.publicOnly (by simp [hk.calls])
      priority := by simp [samplingPhase]
      place := by simpa using hplace
      running := by simp
      resting := fun _ => ?_ }
  exact
    { phase := rfl
      idle := by simp
      done := by simp
      failed := fun _ => ⟨rfl, by simpa using he, rfl⟩
      counts := fun _ k hlt => by
        rw [hparams]
        simpa [readCnt] using hcounts k hlt
      response := fun _ => by
        rw [hparams]
        simpa using hresponse }

/-! ### A slot that completes -/

/-- The operation of a slot before the last has completed: the counter of the slot, if it has one, is
below the ceiling and the others are kept (R126). -/
structure SlotCompletes (s u : State) : Prop extends SlotKeeps s u where
  before_last : s.upc.val < 95
  mapped : u.mapped = true
  priority : u.prio = .realTime ↔ 8 ≤ s.upc.val ∧ s.upc.val ≤ 91
  counted : ∀ k, 10 + k = s.upc.val → k < 82 → (readCnt u k).toNat + 1 ≤ s.params.maxCount
  counts_kept : ∀ k, 10 + k ≠ s.upc.val → readCnt u k = readCnt s k
  response_counted : s.upc.val = 9 → u.wcnt.toNat + 1 ≤ s.params.maxCount
  response_kept : s.upc.val ≠ 9 → u.wcnt = s.wcnt

/-- A slot outside the sampling window counts nothing. -/
theorem SlotCompletes.of_counters_kept {s u : State} (hk : SlotKeeps s u)
    (hslot : s.upc.val < 9 ∨ 91 < s.upc.val ∧ s.upc.val < 95) (hm : u.mapped = true)
    (hprio : u.prio = .realTime ↔ 8 ≤ s.upc.val ∧ s.upc.val ≤ 91) (hcnt : u.cnt = s.cnt)
    (hwcnt : u.wcnt = s.wcnt) : SlotCompletes s u :=
  { hk with
    before_last := by omega
    mapped := hm
    priority := hprio
    counted := fun k hslot' hlt => by omega
    counts_kept := fun k _ => readCnt_congr hcnt k
    response_counted := fun h9 => by omega
    response_kept := fun _ => hwcnt }

/-- A slot that neither counts nor writes the priority. -/
theorem SlotCompletes.of_prio_kept {s u : State} (hI : Inv s) (hr : s.running = true)
    (hk : SlotKeeps s u) (hslot : s.upc.val < 8 ∨ 92 < s.upc.val ∧ s.upc.val < 95)
    (hm : u.mapped = true) (hprio : u.prio = s.prio) (hcnt : u.cnt = s.cnt)
    (hwcnt : u.wcnt = s.wcnt) : SlotCompletes s u :=
  .of_counters_kept hk (by omega) hm
    (by rw [hprio, prio_realTime_iff_slot hI hr]; omega) hcnt hwcnt

/-- A polling operation that met its transition (R126). -/
theorem slotCompletes_polled {s : State} (hI : Inv s) (hr : s.running = true) {ph : PollPhase}
    {n : Nat} (hslot : s.upc.val = pollSlot ph) (hn : n < s.params.maxCount) :
    SlotCompletes s (writeCounter (afterReads s (n + 1)) ph (BitVec.ofNat 32 n)) := by
  have hbounds := pollSlot_bounds ph
  have hcount := toNat_ofNat_count hI (Nat.le_of_lt hn)
  exact
    { slotKeeps_polled s (n + 1) ph _ with
      before_last := by omega
      mapped := by simpa using (hI.running hr).mapped_after_slot0 (by omega)
      priority := by
        rw [writeCounter_prio, afterReads_prio, prio_realTime_iff_slot hI hr]
        omega
      counted := fun k hk _ => by
        rw [readCnt_writeCounter_slot, if_pos (hk.trans hslot), hcount]
        omega
      counts_kept := fun k hk => by
        rw [readCnt_writeCounter_slot, if_neg (hslot ▸ hk)]
        rfl
      response_counted := fun h9 => by
        rw [wcnt_writeCounter_slot, if_pos (hslot.symm.trans h9), hcount]
        omega
      response_kept := fun h9 => by
        rw [wcnt_writeCounter_slot, if_neg (hslot ▸ h9)]
        rfl }

/-- After a slot that completed the attempt stands at the next one (R115). -/
theorem inv_afterSlot_completes {s u : State} (hI : Inv s) (hr : s.running = true)
    (h : SlotCompletes s u) : Inv (afterSlot u) := by
  have hR := hI.running hr
  have hlast := h.before_last
  have hupc : u.upc.val = s.upc.val := by rw [h.upc]
  rw [afterSlot_next (by omega), hupc]
  have hnext : (Fin.ofNat 97 (s.upc.val + 1)).val = s.upc.val + 1 := upc_succ (by omega)
  refine
    { admissible := by simpa [h.pin, h.params] using hI.admissible
      publicOnly := publicOnly_congr hI.publicOnly h.calls
      priority := by
        show u.prio = .realTime ↔ samplingPhase (phaseOf (s.upc.val + 1)) = true
        rw [h.priority, phaseOf_sampling (by omega)]
        omega
      place := by simpa [h.errPhase, h.err] using hI.place
      running := fun _ => ?_
      resting := fun hrest => by simp [h.running, hr] at hrest }
  exact
    { upc_lt := by simp only [hnext]; omega
      pc_follows := by simp only [hnext]
      mapped_after_slot0 := fun _ => h.mapped
      no_error := h.err.trans hR.no_error
      no_reading := h.res.trans hR.no_reading
      counts := fun k hk => by
        simp only [hnext, h.params]
        show if 10 + k < s.upc.val + 1 then (readCnt u k).toNat + 1 ≤ s.params.maxCount
          else readCnt u k = 0
        by_cases hslot : 10 + k = s.upc.val
        · rw [if_pos (by omega)]
          exact h.counted k hslot hk
        · rw [h.counts_kept k hslot]
          convert hR.counts k hk using 1
          omega
      response := by
        simp only [hnext, h.params]
        by_cases h9 : s.upc.val = 9
        · rw [if_pos (by omega)]
          exact h.response_counted h9
        · rw [h.response_kept h9]
          convert hR.response using 1
          omega }

/-! ### The last slot and the attempt start -/

/-- A valid frame leaves the driver at rest in `Done` with its reading (R110, R144). -/
theorem inv_afterSlot_done {s : State} (hI : Inv s) (hr : s.running = true) (h95 : s.upc.val = 95)
    (r : Reading) : Inv (afterSlot { s with res := some r, pc := .done }) := by
  have hR := hI.running hr
  obtain ⟨hcounts, hresponse⟩ := counters_le_maxCount hR
  have hprio : s.prio ≠ .realTime := by
    rw [Ne, prio_realTime_iff_slot hI hr]
    omega
  rw [afterSlot_last (s := { s with res := some r, pc := .done }) h95]
  refine
    { admissible := hI.admissible
      publicOnly := hI.publicOnly
      priority := by simpa [samplingPhase] using hprio
      place := hI.place
      running := by simp
      resting := fun _ => ?_ }
  exact
    { phase := rfl
      idle := by simp
      done := fun _ => ⟨rfl, hR.no_error, by simp, hR.mapped_after_slot0 (by omega)⟩
      failed := by simp
      counts := fun _ => hcounts
      response := fun _ => hresponse }

/-- The attempt start (R113) from rest, whatever words are left waiting of those invoked. -/
theorem inv_attemptStart {s : State} (hI : Inv s) (hr : s.running = false) {rest : List OpWord}
    (hsub : ∀ w ∈ rest, w ∈ s.calls) : Inv (attemptStart { s with calls := rest }) := by
  have hprio := prio_ne_realTime_at_rest hI hr
  refine
    { admissible := hI.admissible
      publicOnly := fun w hw => hI.publicOnly w (hsub w hw)
      priority := by simpa [samplingPhase] using hprio
      place := by simp
      running := fun _ => ?_
      resting := by simp }
  exact
    { upc_lt := by simp
      pc_follows := rfl
      mapped_after_slot0 := by simp
      no_error := rfl
      no_reading := rfl
      counts := fun k hk => by simp [readCnt, hk]
      response := rfl }

/-! ### Every step -/

/-- Slot 0 (R90): a map present or made lets the attempt go on, a failed request ends it. -/
theorem inv_afterSlot_ensureMapped {s : State} (hI : Inv s) (hr : s.running = true)
    (h0 : s.upc.val = 0) : Inv (afterSlot (ensureMapped s)) := by
  obtain ⟨hcounts, hresponse⟩ := counters_le_maxCount (hI.running hr)
  obtain ⟨hm, he⟩ | he | ⟨e, hkind, he⟩ := ensureMapped_cases s <;> rw [he]
  · exact inv_afterSlot_completes hI hr
      (.of_prio_kept hI hr ⟨rfl, rfl, rfl, rfl, rfl, rfl, rfl, rfl⟩ (by omega) hm rfl rfl rfl)
  · exact inv_afterSlot_completes hI hr
      (.of_prio_kept hI hr ⟨rfl, rfl, rfl, rfl, rfl, rfl, rfl, rfl⟩ (by omega) rfl rfl rfl rfl)
  · exact inv_afterSlot_raiseError hI ⟨rfl, rfl, rfl, rfl, rfl, rfl, rfl, rfl⟩
      (by obtain rfl | rfl := hkind <;> simp) (by obtain rfl | rfl := hkind <;> simp)
      hcounts hresponse

/-- A polling operation at the ceiling (R129): its counter holds the ceiling, the others their counts. -/
theorem inv_afterSlot_timeout {s : State} (hI : Inv s) (hr : s.running = true) (ph : PollPhase)
    {n : Nat} (hn : n ≤ s.params.maxCount) :
    Inv (afterSlot (raiseError .timeoutError (some ph)
      (writeCounter (afterReads s n) ph (BitVec.ofNat 32 n)))) := by
  obtain ⟨hcounts, hresponse⟩ := counters_le_maxCount (hI.running hr)
  have hcount := toNat_ofNat_count hI hn
  refine inv_afterSlot_raiseError hI (slotKeeps_polled s n ph _) (by simp) (by simp)
    (fun k hk => ?_) ?_
  · rw [readCnt_writeCounter_slot]
    split
    · omega
    · exact hcounts k hk
  · rw [wcnt_writeCounter_slot]
    split
    · omega
    · exact hresponse

theorem inv_afterSlot {s u : State} (hI : Inv s) (hr : s.running = true) (h : SlotEffect s u) :
    Inv (afterSlot u) := by
  have hR := hI.running hr
  obtain ⟨hcounts, hresponse⟩ := counters_le_maxCount hR
  cases h with
  | ensuremapped h => exact inv_afterSlot_ensureMapped hI hr h
  | setoutput h | sethigh h | sleepc h | setlow h | waitp h | setinput h | settle h | thresh h
  | decbits h =>
    exact inv_afterSlot_completes hI hr
      (.of_prio_kept hI hr ⟨rfl, rfl, rfl, rfl, rfl, rfl, rfl, rfl⟩ (by omega)
        (hR.mapped_after_slot0 (by omega)) rfl rfl rfl)
  | prioup h | priodn h =>
    exact inv_afterSlot_completes hI hr
      (.of_counters_kept ⟨rfl, rfl, rfl, rfl, rfl, rfl, rfl, rfl⟩ (by omega)
        (hR.mapped_after_slot0 (by omega)) (by simp [h]) rfl rfl)
  | pollEnds ph n h hk hn hc => exact inv_afterSlot_completes hI hr (slotCompletes_polled hI hr h hc)
  | pollTimesOut ph n h hk hc => exact inv_afterSlot_timeout hI hr ph hc.le
  | chksumValid h hv => exact inv_afterSlot_done hI hr h _
  | chksumInvalid h hv =>
    exact inv_afterSlot_raiseError hI ⟨rfl, rfl, rfl, rfl, rfl, rfl, rfl, rfl⟩ (by simp) (by simp)
      hcounts hresponse

/-- Settles O45: in an attempt by the effect of the slot, at rest by the attempt start. -/
theorem stepKeepsInvariant : Obligations.StepKeepsInvariant := by
  unfold Obligations.StepKeepsInvariant
  intro s t hI h
  cases hr : s.running with
  | true =>
    obtain ⟨u, hu, rfl⟩ := slot_effect_of_step hI hr h
    exact inv_afterSlot hI hr hu
  | false =>
    obtain ⟨-, hs⟩ | ⟨rest, hcalls, hs⟩ := rest_step hI hr
    · cases hs.symm.trans h
      exact hI
    · cases hs.symm.trans h
      exact inv_attemptStart hI hr fun w hw => hcalls ▸ List.mem_cons_of_mem _ hw

end Sys2Proof.Machine
end

section
/-! The two access primitives of the register block (spec 20_memory.md R51, R52, R57, R60, R66). -/

namespace Sys2Proof.Machine

open Sys2Proof.Safety

theorem accessRefusal_unmapped {s : State} (h : s.mapped = false) (w : Nat) :
    accessRefusal w s = some .notMapped :=
  if_pos h

theorem accessRefusal_beyond {s : State} (hm : s.mapped = true) {w : Nat}
    (hw : s.params.mapSize < 4 * w + 4) : accessRefusal w s = some .beyondWindow := by
  unfold accessRefusal
  rw [if_neg (by simp [hm]), if_pos hw]

theorem accessRefusal_inside {s : State} (hm : s.mapped = true) {w : Nat}
    (hw : 4 * w + 4 ≤ s.params.mapSize) : accessRefusal w s = none := by
  unfold accessRefusal
  rw [if_neg (by simp [hm]), if_neg (by omega)]

/-- A refusal that does not depend on the direction stops both primitives. -/
theorem access_refused {s : State} {w : Nat} {r : Refusal} (h : accessRefusal w s = some r)
    (v : Word) : regRead w s = .error r ∧ regWrite w v s = .error r := by
  unfold regRead regWrite
  rw [h]
  exact ⟨rfl, rfl⟩

theorem regRead_writeOnly {s : State} {w : Nat} (h : accessRefusal w s = none)
    (hw : w = setOff ∨ w = clrOff) : regRead w s = .error .readOfWriteOnly := by
  unfold regRead
  rw [h]
  obtain rfl | rfl := hw <;> rfl

theorem regWrite_readOnly {s : State} (h : accessRefusal levOff s = none) (v : Word) :
    regWrite levOff v s = .error .writeOfReadOnly := by
  unfold regWrite
  rw [h]
  rfl

/-- An offset that is none of the nine words of R60 is refused in both directions. -/
theorem access_undefined {s : State} {w : Nat} (h : accessRefusal w s = none) (hfsel : ¬ w < 6)
    (hset : w ≠ setOff) (hclr : w ≠ clrOff) (hlev : w ≠ levOff) (v : Word) :
    regRead w s = .error .undefinedOffset ∧ regWrite w v s = .error .undefinedOffset := by
  unfold regRead regWrite
  rw [h]
  simp [hfsel, hset, hclr, hlev]

/-- Settles O23: first what stops both directions, then, inside the window, the word's own offset. -/
theorem registerAccessRefused : Obligations.RegisterAccessRefused := by
  unfold Obligations.RegisterAccessRefused
  intro s w v
  refine ⟨fun hm => access_refused (accessRefusal_unmapped hm w) v,
    fun hm hw => access_refused (accessRefusal_beyond hm hw) v, fun hm hw => ?_⟩
  have hadmit := accessRefusal_inside hm hw
  refine ⟨regRead_writeOnly hadmit, ?_, fun hoff => ?_⟩
  · rintro rfl
    exact regWrite_readOnly hadmit v
  · have hother : ¬ w < 6 ∧ w ≠ 7 ∧ w ≠ 10 ∧ w ≠ 13 := by
      simp only [List.mem_cons, List.not_mem_nil, or_false] at hoff
      omega
    obtain ⟨hfsel, hset, hclr, hlev⟩ := hother
    exact access_undefined hadmit hfsel hset hclr hlev v

/-- Settles O24: both accesses happen, the write keeping the block ready for the read, and the read
returns the word the write left. -/
theorem fselReadAfterWrite : Obligations.FselReadAfterWrite := by
  unfold Obligations.FselReadAfterWrite
  intro s m n v hs hm hn
  refine ⟨_, regWrite_fsel hs hm v, ?_⟩
  have hread := regRead_fsel
    (s := emit (.busWrite m v) { s with fsel := s.fsel.setIfInBounds m v }) hs hn
  rw [readFsel_emit, readFsel_set hm] at hread
  exact ⟨_, hread, rfl, rfl⟩

end Sys2Proof.Machine
end

section
/-! The operations that meet a refusal of the register block or an illegal operand (spec 20_memory.md
R66; 30_encoding.md R72, R80). -/

namespace Sys2Proof.Machine

open Sys2Proof.Safety

theorem pinOp_unmapped {α : Type} {s : State} (h : s.mapped = false) (p : PinNo) (r : Access α) :
    pinOp p s r = .error .notMapped :=
  if_pos h

theorem pinOp_pinAbove31 {α : Type} {s : State} (hm : s.mapped = true) {p : PinNo}
    (hp : 31 < p.toNat) (r : Access α) : pinOp p s r = .error .pinAbove31 := by
  unfold pinOp
  rw [if_neg (by simp [hm]), if_neg (Nat.not_le.mpr hp)]

/-- A precondition of the Pin Controller that fails refuses each of its five operations (R100). -/
theorem exec_refused_of_pinOp {s : State} {p : PinNo} {e : Refusal} {i : Instr}
    (h : ∀ {α : Type} (r : Access α), pinOp p s r = .error e)
    (hi : i ∈ [Instr.setinput p, .setoutput p, .sethigh p, .setlow p, .readinput p]) :
    exec i s = .refused e := by
  have hsetInput : setInput p s = .error e := h _
  have hsetOutput : setOutput p s = .error e := by
    unfold setOutput
    rw [hsetInput]
  have hreadInput : readInput p s = .error e := h _
  simp only [List.mem_cons, List.not_mem_nil, or_false] at hi
  obtain rfl | rfl | rfl | rfl | rfl := hi
  · exact congrArg answer hsetInput
  · exact congrArg answer hsetOutput
  · exact congrArg answer (h _)
  · exact congrArg answer (h _)
  · show execReadinput p s = _
    unfold execReadinput
    rw [hreadInput]

/-- Without a map the first read of the poll loop is refused. -/
theorem pollPhase_unmapped {s : State} (h : s.mapped = false) (level : Bool) (ph : PollPhase) :
    pollPhase level ph s = .error .notMapped := by
  have hread : readInput s.pin s = .error .notMapped := pinOp_unmapped h _ _
  unfold pollPhase pollLoop
  rw [hread]

theorem exec_pollInstr_unmapped {s : State} (h : s.mapped = false) (ph : PollPhase) :
    exec (pollInstr ph) s = .refused .notMapped := by
  rw [exec_pollInstr, pollPhase_unmapped h]
  rfl

/-- A legal index names the polling phases of its pulse (R72). -/
theorem pulseIndex_of_legal {k : PulseNo} (h : pulseLegal k) : ∃ i, pulseIndex k = some i :=
  ⟨⟨k.toNat, Nat.lt_succ_of_le h⟩, dif_pos (Nat.lt_succ_of_le h)⟩

theorem pulseIndex_above40 {k : PulseNo} (h : 40 < k.toNat) : pulseIndex k = none :=
  dif_neg (Nat.not_lt.mpr h)

/-- Settles O22: the five pin operations by their common precondition, the polling operations by the
first read of their loop, an index above 40 by the pulse it fails to name. -/
theorem operationsRefused : Obligations.OperationsRefused := by
  unfold Obligations.OperationsRefused
  refine ⟨fun s p i hm hi => ?_, fun s k i hm hk hi => ?_, fun s p i hm hp hi => ?_,
    fun s k i hk hi => ?_⟩
  · obtain hpin | hpoll := List.mem_append.mp
      (show i ∈ [Instr.setinput p, .setoutput p, .sethigh p, .setlow p, .readinput p] ++ [.waitresp]
        from hi)
    · exact exec_refused_of_pinOp (pinOp_unmapped hm p) hpin
    · obtain rfl := List.mem_singleton.mp hpoll
      exact exec_pollInstr_unmapped hm .waitResponse
  · obtain ⟨n, hn⟩ := pulseIndex_of_legal hk
    obtain rfl := pulseIndex_some hn
    obtain rfl | rfl := List.mem_pair.mp hi
    · exact exec_pollInstr_unmapped hm (.sampleLow n)
    · exact exec_pollInstr_unmapped hm (.sampleHigh n)
  · exact exec_refused_of_pinOp (pinOp_pinAbove31 hm hp) hi
  · have hnone := pulseIndex_above40 hk
    obtain rfl | rfl := List.mem_pair.mp hi
    · show execCntlow k s = _
      unfold execCntlow
      rw [hnone]
    · show execCnthigh k s = _
      unfold execCnthigh
      rw [hnone]

end Sys2Proof.Machine
end

section
/-! The words of the register block: which operation reaches which (spec 20_memory.md R67). -/

namespace Sys2Proof.Machine

open Sys2Proof.Safety

theorem readFsel_congr {s t : State} (h : t.fsel = s.fsel) (n : Nat) : readFsel t n = readFsel s n := by
  unfold readFsel
  rw [h]

theorem latch_congr {s t : State} (h : t.out = s.out) (q : PinNo) : latch t q = latch s q := by
  unfold latch
  rw [h]

/-- A read-modify-write changes no other word than the one of its pin. -/
theorem readFsel_afterModify_other (s : State) {p : PinNo} (hp : pinLegal p) (f : Word → Word)
    {n : Nat} (hn : n ≠ regIndex p) : readFsel (afterModify s p f) n = readFsel s n := by
  rw [readFsel_afterModify hp, if_neg hn]

theorem exec_changes_fsel {s t : State} {i : Instr} (h : exec i s = .next t) {n : Nat}
    (hn : readFsel t n ≠ readFsel s n) :
    ∃ p, regIndex p = n ∧ (i = .setinput p ∨ i = .setoutput p) := by
  cases exec_effect h with
  | setinput p hm hp =>
    refine ⟨p, ?_, .inl rfl⟩
    by_contra hne
    exact hn (readFsel_afterModify_other s hp _ (Ne.symm hne))
  | setoutput p hm hp =>
    refine ⟨p, ?_, .inr rfl⟩
    by_contra hne
    exact hn ((readFsel_afterModify_other _ hp _ (Ne.symm hne)).trans
      (readFsel_afterModify_other s hp _ (Ne.symm hne)))
  | _ => exact absurd (readFsel_congr (by simp) n) hn

theorem exec_changes_latch {s t : State} {i : Instr} (h : exec i s = .next t) {q : PinNo}
    (hq : latch t q ≠ latch s q) : i = .sethigh q ∨ i = .setlow q := by
  cases exec_effect h with
  | sethigh p hm hp =>
    obtain rfl : q = p := by
      by_contra hne
      exact hq (by simp [latch_set hp, hne])
    exact .inl rfl
  | setlow p hm hp =>
    obtain rfl : q = p := by
      by_contra hne
      exact hq (by simp [latch_clear hp, hne])
    exact .inr rfl
  | _ => exact absurd (latch_congr (by simp) q) hq

/-- Only `READINPUT` and the operations of the polling phases read `LEV` (R105, R126). -/
theorem exec_reads_lev {s t : State} {i : Instr} (h : exec i s = .next t)
    (hl : t.lineReads ≠ s.lineReads) : (∃ p, i = .readinput p) ∨ ∃ ph, i = pollInstr ph := by
  cases exec_effect h with
  | readinput p => exact .inl ⟨p, rfl⟩
  | pollEnds ph | pollTimesOut ph => exact .inr ⟨ph, rfl⟩
  | _ => exact absurd (by simp) hl

/-- Settles O42: by the effect of each operation on the function-select words, the latch and the count
of `LEV` reads. -/
theorem writersOfRegisterBlock : Obligations.WritersOfRegisterBlock := by
  unfold Obligations.WritersOfRegisterBlock
  intro s t i h
  refine ⟨fun n hn => exec_changes_fsel h hn, fun q hq => exec_changes_latch h hq, fun hl => ?_⟩
  obtain hread | ⟨ph, rfl⟩ := exec_reads_lev h hl
  · exact .inl hread
  · cases ph with
    | waitResponse => exact .inr (.inl rfl)
    | sampleLow n => exact .inr (.inr (.inl ⟨_, rfl⟩))
    | sampleHigh n => exact .inr (.inr (.inr ⟨_, rfl⟩))

end Sys2Proof.Machine
end

section
/-! The step at rest, and a step of a driver instance in public use (spec 20_memory.md R64, R66;
42_protocol_sequencer.md R115). -/

namespace Sys2Proof.Machine

open Sys2Proof.Safety

theorem step_of_rest {s : State} (hr : s.running = false) : step s = runCall s :=
  if_neg (by simp [hr])

theorem runCall_of_op {s : State} {w : OpWord} {rest : List OpWord} {i : Instr}
    (hc : s.calls = w :: rest) (hd : decode w = .op i) :
    runCall s = exec i { s with calls := rest } := by
  unfold runCall
  rw [hc]
  simp only [hd]

theorem runCall_of_nil {s : State} (hc : s.calls = []) : runCall s = .next s := by
  unfold runCall
  rw [hc]

/-- Settles O5: a step at rest is the oldest invocation, if there is one. -/
theorem stepRunsInvokedWord : Obligations.StepRunsInvokedWord := by
  unfold Obligations.StepRunsInvokedWord
  exact ⟨fun _ _ _ _ hr hc hd => (step_of_rest hr).trans (runCall_of_op hc hd),
    fun _ hr hc => (step_of_rest hr).trans (runCall_of_nil hc)⟩

/-- Settles O46: in an attempt every slot runs, at rest the only word invoked is `READDATA`. -/
theorem publicUseNeverStops : Obligations.PublicUseNeverStops := by
  unfold Obligations.PublicUseNeverStops
  intro s hI
  cases hr : s.running with
  | true =>
    obtain ⟨u, -, hs⟩ := slot_runs hI hr
    exact ⟨_, hs⟩
  | false =>
    obtain ⟨-, hs⟩ | ⟨rest, -, hs⟩ := rest_step hI hr
    · exact ⟨_, hs⟩
    · exact ⟨_, hs⟩

end Sys2Proof.Machine
end

section
/-! The decoder against the encoder (spec 30_encoding.md R72, R80), format by format. -/

namespace Sys2Proof

/-! ### The fields of an encoded word -/

@[simp] theorem opField_encodeLow (op : BitVec 5) (x : BitVec 6) : opField (encodeLow op x) = op := by
  apply BitVec.eq_of_toNat_eq
  rw [opField_toNat, encodeLow_toNat]
  omega

@[simp] theorem opField_encodeT (op : BitVec 5) (ms : Millis) : opField (encodeT op ms) = op := by
  apply BitVec.eq_of_toNat_eq
  rw [opField_toNat, encodeT_toNat]
  omega

@[simp] theorem midField_encodeLow (op : BitVec 5) (x : BitVec 6) : midField (encodeLow op x) = 0 := by
  apply BitVec.eq_of_toNat_eq
  show _ = 0
  rw [midField_toNat, encodeLow_toNat]
  omega

@[simp] theorem lowField_encodeLow (op : BitVec 5) (x : BitVec 6) : lowField (encodeLow op x) = x := by
  apply BitVec.eq_of_toNat_eq
  rw [lowField_toNat, encodeLow_toNat]
  omega

@[simp] theorem argField_encodeT (op : BitVec 5) (ms : Millis) : argField (encodeT op ms) = ms := by
  apply BitVec.eq_of_toNat_eq
  rw [argField_toNat, encodeT_toNat]
  omega

theorem argField_eq_zero_iff (w : OpWord) : argField w = 0 ↔ w.toNat % 2048 = 0 := by
  rw [← BitVec.toNat_inj, argField_toNat]
  rfl

theorem midField_eq_zero_iff (w : OpWord) : midField w = 0 ↔ w.toNat / 64 % 32 = 0 := by
  rw [← BitVec.toNat_inj, midField_toNat]
  rfl

/-! ### The fields of a word give the word back -/

theorem encodeZ_opField {w : OpWord} (h : argField w = 0) : encodeZ (opField w) = w := by
  apply BitVec.eq_of_toNat_eq
  rw [encodeZ_toNat, opField_toNat]
  have := (argField_eq_zero_iff w).mp h
  omega

theorem encodeLow_opField_lowField {w : OpWord} (h : midField w = 0) :
    encodeLow (opField w) (lowField w) = w := by
  apply BitVec.eq_of_toNat_eq
  rw [encodeLow_toNat, opField_toNat, lowField_toNat]
  have := (midField_eq_zero_iff w).mp h
  omega

theorem encodeT_opField_argField (w : OpWord) : encodeT (opField w) (argField w) = w := by
  apply BitVec.eq_of_toNat_eq
  rw [encodeT_toNat, opField_toNat, argField_toNat]
  omega

/-! ### What each format answers -/

theorem decodeP_of_legal {w : OpWord} (hm : midField w = 0) (hp : pinLegal (lowField w))
    (mk : PinNo → Instr) : decodeP w mk = .op (mk (lowField w)) := by
  rw [decodeP, if_neg (not_not_intro hm), if_pos hp]

theorem decodeI_of_legal {w : OpWord} (hm : midField w = 0) (hk : pulseLegal (lowField w))
    (mk : PulseNo → Instr) : decodeI w mk = .op (mk (lowField w)) := by
  rw [decodeI, if_neg (not_not_intro hm), if_pos hk]

theorem decodeP_encodeLow (op : BitVec 5) {p : PinNo} (hp : pinLegal p) (mk : PinNo → Instr) :
    decodeP (encodeLow op p) mk = .op (mk p) := by
  rw [decodeP_of_legal (by simp) (by simpa using hp), lowField_encodeLow]

theorem decodeI_encodeLow (op : BitVec 5) {k : PulseNo} (hk : pulseLegal k) (mk : PulseNo → Instr) :
    decodeI (encodeLow op k) mk = .op (mk k) := by
  rw [decodeI_of_legal (by simp) (by simpa using hk), lowField_encodeLow]

theorem decodeT_encodeT (op : BitVec 5) (ms : Millis) (mk : Millis → Instr) :
    decodeT (encodeT op ms) mk = .op (mk ms) := by
  rw [decodeT, argField_encodeT]

theorem decodeZ_of_argument {w : OpWord} (ha : argField w ≠ 0) (i : Instr) :
    decodeZ w i = .bad .argumentNotZero :=
  if_neg ha

theorem decodeP_of_middle {w : OpWord} (hm : midField w ≠ 0) (mk : PinNo → Instr) :
    decodeP w mk = .bad .middleNotZero :=
  if_pos hm

theorem decodeI_of_middle {w : OpWord} (hm : midField w ≠ 0) (mk : PulseNo → Instr) :
    decodeI w mk = .bad .middleNotZero :=
  if_pos hm

theorem decodeP_of_above31 {w : OpWord} (hm : midField w = 0) (hp : ¬ pinLegal (lowField w))
    (mk : PinNo → Instr) : decodeP w mk = .bad .pinAbove31 := by
  rw [decodeP, if_neg (not_not_intro hm), if_neg hp]

theorem decodeI_of_above40 {w : OpWord} (hm : midField w = 0) (hk : ¬ pulseLegal (lowField w))
    (mk : PulseNo → Instr) : decodeI w mk = .bad .indexAbove40 := by
  rw [decodeI, if_neg (not_not_intro hm), if_neg hk]

theorem decodeZ_eq_op {w : OpWord} {i j : Instr} (h : decodeZ w i = .op j) :
    argField w = 0 ∧ i = j := by
  unfold decodeZ at h
  split at h
  · exact ⟨‹_›, Decoded.op.inj h⟩
  · cases h

theorem decodeP_eq_op {w : OpWord} {mk : PinNo → Instr} {j : Instr} (h : decodeP w mk = .op j) :
    midField w = 0 ∧ pinLegal (lowField w) ∧ mk (lowField w) = j := by
  by_cases hm : midField w = 0
  · by_cases hp : pinLegal (lowField w)
    · rw [decodeP_of_legal hm hp] at h
      exact ⟨hm, hp, Decoded.op.inj h⟩
    · rw [decodeP_of_above31 hm hp] at h
      cases h
  · rw [decodeP_of_middle hm] at h
    cases h

theorem decodeI_eq_op {w : OpWord} {mk : PulseNo → Instr} {j : Instr} (h : decodeI w mk = .op j) :
    midField w = 0 ∧ pulseLegal (lowField w) ∧ mk (lowField w) = j := by
  by_cases hm : midField w = 0
  · by_cases hk : pulseLegal (lowField w)
    · rw [decodeI_of_legal hm hk] at h
      exact ⟨hm, hk, Decoded.op.inj h⟩
    · rw [decodeI_of_above40 hm hk] at h
      cases h
  · rw [decodeI_of_middle hm] at h
    cases h

/-- Settles O1, by the format of the operation's word. -/
theorem decodeOfEncode : Obligations.DecodeOfEncode := by
  unfold Obligations.DecodeOfEncode
  intro i hi
  cases i with
  | ensuremapped | readdata | settle | prioup | priodn | waitresp | thresh | decbits | chksum => rfl
  | setinput p | setoutput p | sethigh p | setlow p | readinput p =>
    rw [encode, decode, opField_encodeLow]
    exact decodeP_encodeLow _ (of_decide_eq_true hi) _
  | sleepc ms | waitp ms =>
    rw [encode, decode, opField_encodeT]
    exact decodeT_encodeT _ ms _
  | cntlow k | cnthigh k =>
    rw [encode, decode, opField_encodeLow]
    exact decodeI_encodeLow _ (of_decide_eq_true hi) _

/-! ### The format of each operation code (the table of R72) -/

/-- The operation codes of format Z (R72). -/
def zCodes : List (BitVec 5) := [0, 6, 10, 11, 12, 13, 16, 17, 18]

/-- The operation codes of format P (R72). -/
def pCodes : List (BitVec 5) := [1, 2, 3, 4, 5]

/-- The operation codes of format I (R72). -/
def iCodes : List (BitVec 5) := [14, 15]

/-- The operation codes of format T (R72). -/
def tCodes : List (BitVec 5) := [8, 9]

/-- Every operation code has a format or is reserved (R72, R80 (a)). -/
theorem code_has_format (op : BitVec 5) :
    op ∈ zCodes ∨ op ∈ pCodes ∨ op ∈ iCodes ∨ op ∈ tCodes ∨ op.toNat = 7 ∨ 19 ≤ op.toNat := by
  revert op
  decide

/-- An operation code named as a number, as a field of the word. -/
theorem opField_mem {w : OpWord} {codes : List (BitVec 5)}
    (h : w.toNat / 2048 ∈ codes.map BitVec.toNat) : opField w ∈ codes := by
  rw [← opField_toNat] at h
  obtain ⟨op, hop, he⟩ := List.mem_map.mp h
  rwa [← BitVec.eq_of_toNat_eq he]

theorem decode_zCode {w : OpWord} (h : opField w ∈ zCodes) :
    ∃ i : Instr, i.wellFormed = true ∧ encode i = encodeZ (opField w) ∧ decode w = decodeZ w i := by
  simp only [zCodes, List.mem_cons, List.not_mem_nil, or_false] at h
  rcases h with h | h | h | h | h | h | h | h | h <;> rw [decode, h]
  exacts [⟨.ensuremapped, rfl, rfl, rfl⟩, ⟨.readdata, rfl, rfl, rfl⟩, ⟨.settle, rfl, rfl, rfl⟩,
    ⟨.prioup, rfl, rfl, rfl⟩, ⟨.priodn, rfl, rfl, rfl⟩, ⟨.waitresp, rfl, rfl, rfl⟩,
    ⟨.thresh, rfl, rfl, rfl⟩, ⟨.decbits, rfl, rfl, rfl⟩, ⟨.chksum, rfl, rfl, rfl⟩]

theorem decode_pCode {w : OpWord} (h : opField w ∈ pCodes) :
    ∃ mk : PinNo → Instr, (∀ p, (mk p).wellFormed = decide (pinLegal p)) ∧
      (∀ p, encode (mk p) = encodeLow (opField w) p) ∧ decode w = decodeP w mk := by
  simp only [pCodes, List.mem_cons, List.not_mem_nil, or_false] at h
  rcases h with h | h | h | h | h <;> rw [decode, h]
  exacts [⟨.setinput, fun _ => rfl, fun _ => rfl, rfl⟩, ⟨.setoutput, fun _ => rfl, fun _ => rfl, rfl⟩,
    ⟨.sethigh, fun _ => rfl, fun _ => rfl, rfl⟩, ⟨.setlow, fun _ => rfl, fun _ => rfl, rfl⟩,
    ⟨.readinput, fun _ => rfl, fun _ => rfl, rfl⟩]

theorem decode_iCode {w : OpWord} (h : opField w ∈ iCodes) :
    ∃ mk : PulseNo → Instr, (∀ k, (mk k).wellFormed = decide (pulseLegal k)) ∧
      (∀ k, encode (mk k) = encodeLow (opField w) k) ∧ decode w = decodeI w mk := by
  simp only [iCodes, List.mem_cons, List.not_mem_nil, or_false] at h
  rcases h with h | h <;> rw [decode, h]
  exacts [⟨.cntlow, fun _ => rfl, fun _ => rfl, rfl⟩, ⟨.cnthigh, fun _ => rfl, fun _ => rfl, rfl⟩]

theorem decode_tCode {w : OpWord} (h : opField w ∈ tCodes) :
    ∃ mk : Millis → Instr, (∀ ms, (mk ms).wellFormed = true) ∧
      (∀ ms, encode (mk ms) = encodeT (opField w) ms) ∧ decode w = decodeT w mk := by
  simp only [tCodes, List.mem_cons, List.not_mem_nil, or_false] at h
  rcases h with h | h <;> rw [decode, h]
  exacts [⟨.sleepc, fun _ => rfl, fun _ => rfl, rfl⟩, ⟨.waitp, fun _ => rfl, fun _ => rfl, rfl⟩]

theorem decode_reservedCode {w : OpWord} (h : (opField w).toNat = 7 ∨ 19 ≤ (opField w).toNat) :
    decode w = .bad .reservedOp := by
  obtain h | h := h
  · rw [decode, h]
    rfl
  · obtain ⟨n, hn⟩ := Nat.exists_eq_add_of_le' h
    rw [decode, hn]
    rfl

/-- Settles O2, by the format of the word's operation code. -/
theorem encodeOfDecode : Obligations.EncodeOfDecode := by
  unfold Obligations.EncodeOfDecode
  intro w i h
  obtain hz | hp | hi | ht | hr := code_has_format (opField w)
  · obtain ⟨j, hwf, he, hd⟩ := decode_zCode hz
    obtain ⟨ha, rfl⟩ := decodeZ_eq_op (hd.symm.trans h)
    exact ⟨hwf, he.trans (encodeZ_opField ha)⟩
  · obtain ⟨mk, hwf, he, hd⟩ := decode_pCode hp
    obtain ⟨hm, hleg, rfl⟩ := decodeP_eq_op (hd.symm.trans h)
    exact ⟨(hwf _).trans (decide_eq_true hleg), (he _).trans (encodeLow_opField_lowField hm)⟩
  · obtain ⟨mk, hwf, he, hd⟩ := decode_iCode hi
    obtain ⟨hm, hleg, rfl⟩ := decodeI_eq_op (hd.symm.trans h)
    exact ⟨(hwf _).trans (decide_eq_true hleg), (he _).trans (encodeLow_opField_lowField hm)⟩
  · obtain ⟨mk, hwf, he, hd⟩ := decode_tCode ht
    obtain rfl : mk (argField w) = i := Decoded.op.inj (hd.symm.trans h)
    exact ⟨hwf _, (he _).trans (encodeT_opField_argField w)⟩
  · rw [decode_reservedCode hr] at h
    cases h

/-! ### Words that spell no operation -/

theorem Machine.runCall_of_bad {s : Machine.State} {w : OpWord} {rest : List OpWord}
    {e : DecodeError} (hc : s.calls = w :: rest) (hd : decode w = .bad e) :
    Machine.runCall s = .refused (.illegalWord e) := by
  unfold Machine.runCall
  rw [hc]
  simp only [hd]

/-- Settles O4: the decoder by the format of the code, the step by the word it reads. -/
theorem illegalWordsRefused : Obligations.IllegalWordsRefused := by
  unfold Obligations.IllegalWordsRefused
  refine ⟨fun w hr => ?_, fun w hz ha => ?_, fun w hpi hm => ?_, fun w hp hm hlow => ?_,
    fun w hi hm hlow => ?_, fun s w rest e hr hc hd => ?_⟩
  · exact decode_reservedCode (opField_toNat w ▸ hr)
  · obtain ⟨i, -, -, hd⟩ := decode_zCode (opField_mem hz)
    rw [hd, decodeZ_of_argument (mt (argField_eq_zero_iff w).mp ha)]
  · have hm' : midField w ≠ 0 := mt (midField_eq_zero_iff w).mp hm
    obtain hp | hi := List.mem_append.mp (opField_mem (codes := pCodes ++ iCodes) hpi)
    · obtain ⟨mk, -, -, hd⟩ := decode_pCode hp
      rw [hd, decodeP_of_middle hm']
    · obtain ⟨mk, -, -, hd⟩ := decode_iCode hi
      rw [hd, decodeI_of_middle hm']
  · obtain ⟨mk, -, -, hd⟩ := decode_pCode (opField_mem hp)
    rw [hd, decodeP_of_above31 ((midField_eq_zero_iff w).mpr hm)
      (by rw [pinLegal, lowField_toNat]; omega)]
  · obtain ⟨mk, -, -, hd⟩ := decode_iCode (opField_mem hi)
    rw [hd, decodeI_of_above40 ((midField_eq_zero_iff w).mpr hm)
      (by rw [pulseLegal, lowField_toNat]; omega)]
  · exact (Machine.step_of_rest hr).trans (Machine.runCall_of_bad hc hd)

/-- Settles O3: each word is what the encoder makes of its operation. -/
theorem specWordsDecode : Obligations.SpecWordsDecode :=
  ⟨decodeOfEncode .ensuremapped rfl, decodeOfEncode (.setinput 31) rfl,
    decodeOfEncode (.setoutput 4) rfl, decodeOfEncode (.sethigh 4) rfl,
    decodeOfEncode (.setlow 4) rfl, decodeOfEncode (.readinput 22) rfl,
    decodeOfEncode .readdata rfl, decodeOfEncode (.sleepc 500) rfl,
    decodeOfEncode (.sleepc 2047) rfl, decodeOfEncode (.waitp 20) rfl,
    decodeOfEncode .settle rfl, decodeOfEncode .prioup rfl, decodeOfEncode .priodn rfl,
    decodeOfEncode .waitresp rfl, decodeOfEncode (.cntlow 20) rfl,
    decodeOfEncode (.cnthigh 40) rfl, decodeOfEncode .thresh rfl,
    decodeOfEncode .decbits rfl, decodeOfEncode .chksum rfl⟩

end Sys2Proof
end

section
/-! The fixed sequence of an attempt (spec 30_encoding.md R79; 42_protocol_sequencer.md R115). -/

namespace Sys2Proof.Machine

open Sys2Proof.Safety

theorem slotInstr_cntlow (p : PinNo) {i : Nat} (hi : i ≤ 40) :
    slotInstr p (10 + 2 * i) = some (.cntlow (BitVec.ofNat 6 i)) :=
  slotInstr_poll p (.sampleLow ⟨i, by omega⟩)

theorem slotInstr_cnthigh (p : PinNo) {i : Nat} (hi : i ≤ 40) :
    slotInstr p (11 + 2 * i) = some (.cnthigh (BitVec.ofNat 6 i)) :=
  slotInstr_poll p (.sampleHigh ⟨i, by omega⟩)

theorem encode_cntlow_ofNat {i : Nat} (hi : i ≤ 40) :
    encode (.cntlow (BitVec.ofNat 6 i)) = BitVec.ofNat 16 (0x7000 + i) := by
  apply BitVec.eq_of_toNat_eq
  rw [encode, encodeLow_toNat, BitVec.toNat_ofNat, BitVec.toNat_ofNat]
  show 14 * 2048 + _ = _
  omega

theorem encode_cnthigh_ofNat {i : Nat} (hi : i ≤ 40) :
    encode (.cnthigh (BitVec.ofNat 6 i)) = BitVec.ofNat 16 (0x7800 + i) := by
  apply BitVec.eq_of_toNat_eq
  rw [encode, encodeLow_toNat, BitVec.toNat_ofNat, BitVec.toNat_ofNat]
  show 15 * 2048 + _ = _
  omega

theorem phaseOf_handshake {u : Nat} (h1 : 1 ≤ u) (h8 : u ≤ 8) : phaseOf u = .handshake := by
  rw [phaseOf, if_neg (by omega), if_pos h8]

theorem phaseOf_decode {u : Nat} (h : 93 ≤ u) : phaseOf u = .decode := by
  rw [phaseOf, if_neg (by omega), if_neg (by omega), if_neg (by omega), if_neg (by omega),
    if_neg (by omega)]

theorem phaseOf_sample : ∀ i : Fin 41, phaseOf (10 + 2 * i.val) = .sampleLow i ∧
    phaseOf (11 + 2 * i.val) = .sampleHigh i := by
  decide

/-- Settles O7: the 14 single slots by evaluation, the 82 sampling slots by `slotInstr_poll`. -/
theorem slotSequence : Obligations.SlotSequence := by
  unfold Obligations.SlotSequence
  refine ⟨fun p => ⟨rfl, rfl, rfl, rfl, rfl, rfl, rfl, rfl, rfl, rfl, fun i hi => ?_,
    rfl, rfl, rfl, rfl, rfl⟩, rfl, fun i hi => ?_, rfl, fun _ => phaseOf_handshake, rfl, phaseOf_sample,
    rfl, fun _ h _ => phaseOf_decode h⟩
  · exact ⟨slotInstr_cntlow p hi, slotInstr_cnthigh p hi⟩
  · rw [slotInstr_cntlow 4 hi, slotInstr_cnthigh 4 hi]
    exact ⟨congrArg some (encode_cntlow_ofNat hi), congrArg some (encode_cnthigh_ofNat hi)⟩

end Sys2Proof.Machine
end

section
/-! The quantities derived from a pin (spec 30_encoding.md R73). -/

namespace Sys2Proof.Machine

theorem regIndex_le_three {p : PinNo} (h : pinLegal p) : regIndex p ≤ 3 := by
  have h31 : p.toNat ≤ 31 := h
  unfold regIndex fselPerWord
  omega

theorem pinBit_above31 {p : PinNo} (h : 31 < p.toNat) : pinBit p = 0 :=
  BitVec.shiftLeft_eq_zero h

/-- Settles O14, by the bits of `pinBit` and the ranges of the two quotients. -/
theorem pinArithmetic : Obligations.PinArithmetic := by
  unfold Obligations.PinArithmetic
  refine ⟨fun p hp => ?_, fun p => pinBit_above31, ?_, ?_⟩
  · exact ⟨rfl, rfl, rfl, rfl, rfl, pinBit_bit hp, regIndex_le_three hp, bitOffset_le p⟩
  · decide
  · decide

end Sys2Proof.Machine
end

section
/-! The Register Mapper (spec 40_register_mapper.md R90 to R93): what the service decides, what one
request does, and that mapping happens once in the life of an instance. -/

namespace Sys2Proof.Machine

open Sys2Proof.Safety

/-! ### The decision of the mapper service (R91) -/

/-- With either device open, the mapping decides. -/
theorem mapperResponse_of_open {a : MapperAnswer}
    (h : a.restrictedOpens = true ∨ a.privilegedOpens = true) :
    mapperResponse a = if a.mappingSucceeds then .ok else .mappingError :=
  if_pos (by simpa using h)

theorem mapperResponse_of_closed {a : MapperAnswer} (hr : a.restrictedOpens = false)
    (hp : a.privilegedOpens = false) : mapperResponse a = .deviceOpenError :=
  if_neg (by simp [hr, hp])

/-- Settles O12: with no device open the answer is decided, with one open the mapping decides it. -/
theorem mapperDecidesInOrder : Obligations.MapperDecidesInOrder := by
  unfold Obligations.MapperDecidesInOrder
  intro a
  refine ⟨mapperResponse_of_closed, fun hopen hm => ?_, fun hopen hm => ?_⟩
  · rw [mapperResponse_of_open hopen, hm]
    rfl
  · rw [mapperResponse_of_open hopen, hm]
    rfl

/-! ### `ENSUREMAPPED` (R90) -/

theorem exec_ensuremapped (s : State) : exec .ensuremapped s = .next (ensureMapped s) := rfl

/-- With a map present nothing happens (R93). -/
theorem exec_ensuremapped_mapped {s : State} (h : s.mapped = true) :
    exec .ensuremapped s = .next s := by
  rw [exec_ensuremapped, ensureMapped_keeps_map h]

/-! Without a map the answer of the service decides between the map and the error entry. -/

theorem ensureMapped_granted {s : State} (h : s.mapped = false)
    (hr : mapperResponse (nextMapper s) = .ok) :
    ensureMapped s = { askMapper s with mapped := true } := by
  simp [ensureMapped, h, hr]

theorem ensureMapped_deviceOpenError {s : State} (h : s.mapped = false)
    (hr : mapperResponse (nextMapper s) = .deviceOpenError) :
    ensureMapped s = raiseError .deviceOpenError none (askMapper s) := by
  simp [ensureMapped, h, hr]

theorem ensureMapped_mappingError {s : State} (h : s.mapped = false)
    (hr : mapperResponse (nextMapper s) = .mappingError) :
    ensureMapped s = raiseError .mappingError none (askMapper s) := by
  simp [ensureMapped, h, hr]

/-- The error entry is the state R166 writes out. -/
theorem raiseError_eq_errorState (e : ErrKind) (place : Option PollPhase) (s : State) :
    raiseError e place s = errorState e place s := by
  cases hp : s.prio <;> simp [raiseError, errorState, lowerPrio, emit, hp]

/-- One request takes one answer of the service and performs two events. -/
theorem askMapper_eq (s : State) :
    askMapper s = { s with
      mapper := s.mapper.tail
      mapReqs := s.mapReqs + 1
      trace := s.trace ++ [.mapReq, .mapResp (mapperResponse (nextMapper s))] } := by
  simp [askMapper, emit]

/-- Settles O11: with a map nothing happens; without one each answer of the service has its own end. -/
theorem ensureMappedAsksOnce : Obligations.EnsureMappedAsksOnce := by
  unfold Obligations.EnsureMappedAsksOnce
  refine ⟨rfl, fun s => ⟨exec_ensuremapped_mapped, fun hm asked hasked => ?_⟩⟩
  obtain rfl : asked = askMapper s := hasked.trans (askMapper_eq s).symm
  refine ⟨fun hr => ?_, fun hr => ?_, fun hr => ?_⟩
  · rw [exec_ensuremapped, ensureMapped_granted hm hr]
  · rw [exec_ensuremapped, ensureMapped_deviceOpenError hm hr, raiseError_eq_errorState]
  · rw [exec_ensuremapped, ensureMapped_mappingError hm hr, raiseError_eq_errorState]

/-! ### What does not concern the mapper service -/

/-- The events of the handshake with the mapper service (R12). -/
def isMapperEvent (e : Event) : Bool :=
  match e with
  | .mapReq | .mapResp _ => true
  | .busRead _ _ | .busWrite _ _ | .sleep _ | .busyWait _ | .settle _ | .prioUp | .prioDown
  | .result _ => false

/-- From `s` to `t` the map is as it was and the mapper service is not asked. -/
structure MapperIdle (s t : State) : Prop where
  mapped : t.mapped = s.mapped
  trace : ∃ es, t.trace = s.trace ++ es ∧ ∀ e ∈ es, isMapperEvent e = false

theorem MapperIdle.of_eq {s t : State} (hmapped : t.mapped = s.mapped) (htrace : t.trace = s.trace) :
    MapperIdle s t :=
  ⟨hmapped, [], by rw [htrace, List.append_nil], List.forall_mem_nil _⟩

theorem MapperIdle.trans {s t u : State} (h : MapperIdle s t) (h' : MapperIdle t u) :
    MapperIdle s u := by
  obtain ⟨hm, es, htr, hes⟩ := h
  obtain ⟨hm', es', htr', hes'⟩ := h'
  refine ⟨hm'.trans hm, es ++ es', by rw [htr', htr, List.append_assoc], fun e he => ?_⟩
  exact (List.mem_append.mp he).elim (hes e) (hes' e)

/-- One event, and nothing that concerns the map. -/
theorem MapperIdle.of_event {s t : State} {e : Event} (hmapped : t.mapped = s.mapped)
    (htrace : t.trace = s.trace ++ [e]) (he : isMapperEvent e = false) : MapperIdle s t :=
  ⟨hmapped, [e], htrace, by simpa using he⟩

theorem mapperIdle_afterModify (s : State) (p : PinNo) (f : Word → Word) :
    MapperIdle s (afterModify s p f) :=
  have hread : MapperIdle s (emit (.busRead (regIndex p) (readFsel s (regIndex p))) s) :=
    .of_event rfl rfl rfl
  hread.trans (.of_event rfl rfl rfl)

/-- Every event of a poll is a read. -/
theorem mapperIdle_afterReads (s : State) (n : Nat) : MapperIdle s (afterReads s n) :=
  ⟨rfl, _, rfl, fun e he => by
    obtain ⟨k, -, rfl⟩ := List.mem_map.mp he
    rfl⟩

theorem mapperIdle_polled (s : State) (n : Nat) (ph : PollPhase) (v : Count) :
    MapperIdle s (writeCounter (afterReads s n) ph v) :=
  (mapperIdle_afterReads s n).trans (.of_eq (by simp) (by simp))

theorem mapperIdle_raiseError (e : ErrKind) (place : Option PollPhase) (s : State) :
    MapperIdle s (raiseError e place s) := by
  refine ⟨by simp, ?_⟩
  rw [raiseError_trace]
  split
  · exact ⟨[.prioDown], rfl, by decide⟩
  · exact ⟨[], (List.append_nil _).symm, List.forall_mem_nil _⟩

theorem mapperIdle_attemptEnd (s : State) : MapperIdle s (attemptEnd s) :=
  .of_event rfl rfl rfl

theorem mapperIdle_afterSlot (s : State) : MapperIdle s (afterSlot s) := by
  have hnext : MapperIdle s (nextSlot s) := .of_eq (by simp) (by simp)
  rw [afterSlot_eq]
  split
  · exact hnext.trans (mapperIdle_attemptEnd _)
  · exact hnext

/-- `ENSUREMAPPED` is the only operation that asks the mapper service. -/
theorem exec_mapperIdle {s t : State} {i : Instr} (h : exec i s = .next t) (hi : i ≠ .ensuremapped) :
    MapperIdle s t := by
  cases exec_effect h with
  | ensuremapped => exact absurd rfl hi
  | setinput p => exact mapperIdle_afterModify s p _
  | setoutput p => exact (mapperIdle_afterModify s p _).trans (mapperIdle_afterModify _ p _)
  | sethigh p => exact .of_event rfl rfl rfl
  | setlow p => exact .of_event rfl rfl rfl
  | readinput p => exact (mapperIdle_afterReads s 1).trans (.of_eq rfl rfl)
  | readdata => exact .of_eq rfl rfl
  | sleepc ms => exact .of_event rfl rfl rfl
  | waitp ms => exact .of_event rfl rfl rfl
  | settle => exact .of_event rfl rfl rfl
  | prioup => exact .of_event rfl rfl rfl
  | priodn => exact .of_event rfl rfl rfl
  | pollEnds ph n v => exact mapperIdle_polled s (n + 1) ph v
  | pollTimesOut ph n v =>
    exact (mapperIdle_polled s (n + 1) ph v).trans (mapperIdle_raiseError _ _ _)
  | thresh => exact .of_eq rfl rfl
  | decbits => exact .of_eq rfl rfl
  | chksumValid => exact .of_eq rfl rfl
  | chksumInvalid => exact mapperIdle_raiseError _ _ s

/-! ### The mapping history (R93) -/

/-- A history without `MapResp(Ok)`. -/
theorem mapHistory_of_no_grant {s : State} (h : Event.mapResp .ok ∉ s.trace) : MapHistory s where
  none_before _ := h
  at_most_one := by rw [List.count_eq_zero_of_not_mem h]; omega
  no_request_after before after htr := absurd (by simp [htr]) h

/-- A history whose last event is its only `MapResp(Ok)`. -/
theorem mapHistory_of_last_grant {s : State} {es : List Event} (hm : s.mapped = true)
    (htr : s.trace = es ++ [.mapResp .ok]) (hes : Event.mapResp .ok ∉ es) : MapHistory s where
  none_before hm' := absurd hm (by simp [hm'])
  at_most_one := by simp [htr, List.count_eq_zero_of_not_mem hes]
  no_request_after before after h := by
    rw [htr, List.append_cons_inj_of_notMem hes (by simp)] at h
    obtain ⟨-, -, rfl⟩ := h
    simp

/-- Events that are not the mapper's do not disturb the history. -/
theorem mapHistory_of_idle {s t : State} (hs : MapHistory s) (h : MapperIdle s t) : MapHistory t := by
  obtain ⟨hm, es, htr, hes⟩ := h
  have hreq : Event.mapReq ∉ es := fun he => Bool.noConfusion (hes _ he)
  have hok : Event.mapResp .ok ∉ es := fun he => Bool.noConfusion (hes _ he)
  refine ⟨fun hf => ?_, ?_, fun before after hsplit => ?_⟩
  · rw [htr, List.mem_append]
    exact not_or.mpr ⟨hs.none_before (hm ▸ hf), hok⟩
  · rw [htr, List.count_append, List.count_eq_zero_of_not_mem hok]
    exact hs.at_most_one
  · rw [htr] at hsplit
    obtain ⟨mid, -, rfl⟩ | ⟨mid, htrace, hmid⟩ := List.append_eq_append_iff.mp hsplit
    · exact absurd (by simp) hok
    · obtain ⟨-, rfl⟩ | ⟨rest, rfl, rfl⟩ := List.cons_eq_append_iff.mp hmid
      · exact absurd (by simp) hok
      · rw [List.mem_append]
        exact not_or.mpr ⟨hs.no_request_after before rest htrace, hreq⟩

/-- A request that is not answered with the map leaves a history without one. -/
theorem mapHistory_askMapper {s : State} (hs : MapHistory s) (hm : s.mapped = false)
    (hr : mapperResponse (nextMapper s) ≠ .ok) : MapHistory (askMapper s) :=
  mapHistory_of_no_grant (by simp [hs.none_before hm, hr.symm])

theorem mapHistory_ensureMapped {s : State} (hs : MapHistory s) : MapHistory (ensureMapped s) := by
  cases hm : s.mapped with
  | true =>
    rw [ensureMapped_keeps_map hm]
    exact hs
  | false =>
    cases hr : mapperResponse (nextMapper s) with
    | ok =>
      rw [ensureMapped_granted hm hr]
      exact mapHistory_of_last_grant rfl (by rw [askMapper_trace, hr])
        (by simp [hs.none_before hm])
    | deviceOpenError =>
      rw [ensureMapped_deviceOpenError hm hr]
      exact mapHistory_of_idle (mapHistory_askMapper hs hm (by simp [hr]))
        (mapperIdle_raiseError ..)
    | mappingError =>
      rw [ensureMapped_mappingError hm hr]
      exact mapHistory_of_idle (mapHistory_askMapper hs hm (by simp [hr]))
        (mapperIdle_raiseError ..)

theorem exec_mapHistory {s t : State} {i : Instr} (hs : MapHistory s) (h : exec i s = .next t) :
    MapHistory t := by
  by_cases hi : i = .ensuremapped
  · subst hi
    cases h
    exact mapHistory_ensureMapped hs
  · exact mapHistory_of_idle hs (exec_mapperIdle h hi)

theorem step_mapHistory {s t : State} (hs : MapHistory s) (h : step s = .next t) : MapHistory t := by
  obtain ⟨-, -, rfl⟩ | ⟨-, i, u, -, hu, rfl⟩ | ⟨-, -, rfl⟩ | ⟨-, w, rest, i, -, -, hi⟩ :=
    step_cases h
  · exact mapHistory_of_idle hs (mapperIdle_attemptEnd s)
  · exact mapHistory_of_idle (exec_mapHistory hs hu) (mapperIdle_afterSlot u)
  · exact hs
  · have htaken : MapperIdle s { s with calls := rest } := .of_eq rfl rfl
    exact exec_mapHistory (mapHistory_of_idle hs htaken) hi

/-- Settles O13: only `ENSUREMAPPED` asks the mapper service, and only while no `MapResp(Ok)` has
occurred. -/
theorem mappingHappensOnce : Obligations.MappingHappensOnce := by
  unfold Obligations.MappingHappensOnce
  refine ⟨fun s => exec_ensuremapped_mapped, fun c pin u s h => ?_, fun s t => step_mapHistory⟩
  obtain ⟨-, hhistory, -, -⟩ := invariants_of_construct h
  exact hhistory

end Sys2Proof.Machine
end

section
/-! The Pin Controller (spec 41_pin_controller.md R101 to R106): the whole next state of each of the five
operations, what it does to the bits of its pin, and what none of them touches. -/

namespace Sys2Proof.Machine

open Sys2Proof.Safety

/-! ### Read-modify-write as one state (R101, R102) -/

theorem afterModify_eq (s : State) (p : PinNo) (f : Word → Word) :
    afterModify s p f =
      { s with
        fsel := s.fsel.setIfInBounds (regIndex p) (f (readFsel s (regIndex p)))
        trace := s.trace ++ [.busRead (regIndex p) (readFsel s (regIndex p)),
          .busWrite (regIndex p) (f (readFsel s (regIndex p)))] } := by
  rw [afterModify, List.append_assoc]
  rfl

/-- The second read returns the first write (R57), so the second write is the word of both changes. -/
theorem afterModify_afterModify (s : State) {p : PinNo} (hp : pinLegal p) (f g : Word → Word) :
    afterModify (afterModify s p f) p g =
      { s with
        fsel := s.fsel.setIfInBounds (regIndex p) (g (f (readFsel s (regIndex p))))
        trace := s.trace ++ [.busRead (regIndex p) (readFsel s (regIndex p)),
          .busWrite (regIndex p) (f (readFsel s (regIndex p))),
          .busRead (regIndex p) (f (readFsel s (regIndex p))),
          .busWrite (regIndex p) (g (f (readFsel s (regIndex p))))] } := by
  rw [afterModify_eq (afterModify s p f), readFsel_afterModify hp, if_pos rfl, afterModify_eq]
  simp only [Vector.setIfInBounds_setIfInBounds, List.append_assoc, List.cons_append,
    List.nil_append]

/-- Two read-modify-writes of one word leave every other word alone. -/
theorem readFsel_afterModify_afterModify {s : State} {p : PinNo} (hp : pinLegal p)
    (f g : Word → Word) (n : Nat) :
    readFsel (afterModify (afterModify s p f) p g) n =
      if n = regIndex p then g (f (readFsel s (regIndex p))) else readFsel s n := by
  rw [readFsel_afterModify hp, readFsel_afterModify hp, if_pos rfl, readFsel_afterModify hp]
  split <;> rfl

/-! ### The five operations on a ready register block -/

theorem exec_readinput_ready {s : State} (h : Ready s) {p : PinNo} (hp : pinLegal p) :
    exec (.readinput p) s =
      .next { emit (.busRead levOff (nextLev s)) (dropLev s) with
        readback := some ((nextLev s).getLsbD p.toNat) } := by
  show execReadinput p s = _
  rw [execReadinput, readInput_ready h hp]

theorem nextLev_listed {s : State} {v : Word} {rest : List Word} (h : s.line = v :: rest) :
    nextLev s = v := by
  rw [nextLev, h]

/-- Settles O15: the whole effect is one read-modify-write with the field's mask cleared. -/
theorem setInputClearsField : Obligations.SetInputClearsField := by
  unfold Obligations.SetInputClearsField
  intro s p hs hp
  exact ⟨encodeLow_toNat 1 p, _, _, rfl, exec_setinput_ready hs hp, afterModify_eq s p _,
    pinFunction_after_setinput hp, clear_keeps p _, fun n _ => readFsel_afterModify hp _ n⟩

/-- Settles O16: the whole effect is two read-modify-writes of the same word. -/
theorem setOutputSetsField : Obligations.SetOutputSetsField := by
  unfold Obligations.SetOutputSetsField
  intro s p hs hp
  refine ⟨encodeLow_toNat 2 p, _, _, _, rfl, rfl, exec_setoutput_ready hs hp,
    afterModify_afterModify s hp _ _, pinFunction_after_setoutput hp, fun n hn => ?_,
    fun n _ => readFsel_afterModify_afterModify hp _ _ n⟩
  exact (set_keeps p _ n hn).trans (clear_keeps p _ n hn)

/-- Settles O17: `SET` sets exactly the latch bit of the one bit written. -/
theorem setHighSetsLatch : Obligations.SetHighSetsLatch := by
  unfold Obligations.SetHighSetsLatch
  intro s p hs hp
  refine ⟨encodeLow_toNat 3 p, _, exec_sethigh_ready hs hp, rfl, ?_, fun q hq => ?_⟩
  · rw [latch_emit, latch_set hp, decide_eq_true rfl, Bool.or_true]
  · rw [latch_emit, latch_set hp, decide_eq_false hq, Bool.or_false]

/-- Settles O18: `CLR` clears exactly the latch bit of the one bit written. -/
theorem setLowClearsLatch : Obligations.SetLowClearsLatch := by
  unfold Obligations.SetLowClearsLatch
  intro s p hs hp
  refine ⟨encodeLow_toNat 4 p, _, exec_setlow_ready hs hp, rfl, ?_, fun q hq => ?_⟩
  · rw [latch_emit, latch_clear hp, decide_eq_true rfl, Bool.not_true, Bool.and_false]
  · rw [latch_emit, latch_clear hp, decide_eq_false hq, Bool.not_false, Bool.and_true]

/-- Settles O19: one `LEV` read of a ready block, its word the first listed answer. -/
theorem readInputSamplesPin : Obligations.ReadInputSamplesPin := by
  unfold Obligations.ReadInputSamplesPin
  intro s p hs hp
  exact ⟨encodeLow_toNat 5 p, exec_readinput_ready hs hp, fun v rest => nextLev_listed⟩

/-! ### The frame of the five operations (R106) -/

/-- From `s` to `t` the register block has been accessed: its words, its latch, the line, the trace and
the bit read may differ, the engine does not, and every event is an access. -/
def AccessesOnly (s t : State) : Prop :=
  ∃ fsel out line lineReads readback es,
    t = { s with
      fsel := fsel
      out := out
      line := line
      lineReads := lineReads
      readback := readback
      trace := s.trace ++ es } ∧
    ∀ e ∈ es, isBusEvent e = true

theorem AccessesOnly.trans {s t u : State} (h : AccessesOnly s t) (h' : AccessesOnly t u) :
    AccessesOnly s u := by
  obtain ⟨_, _, _, _, _, es, rfl, hes⟩ := h
  obtain ⟨_, _, _, _, _, es', rfl, hes'⟩ := h'
  exact ⟨_, _, _, _, _, es ++ es', by rw [List.append_assoc],
    List.forall_mem_append.mpr ⟨hes, hes'⟩⟩

theorem accessesOnly_afterModify (s : State) (p : PinNo) (f : Word → Word) :
    AccessesOnly s (afterModify s p f) :=
  ⟨_, _, _, _, _, _, afterModify_eq s p f, by simp [isBusEvent]⟩

/-- The pin an operation names, if its word has format P (R72). -/
def pinOperand (i : Instr) : Option PinNo :=
  match i with
  | .setinput p | .setoutput p | .sethigh p | .setlow p | .readinput p => some p
  | .ensuremapped | .readdata | .sleepc _ | .waitp _ | .settle | .prioup | .priodn | .waitresp
  | .cntlow _ | .cnthigh _ | .thresh | .decbits | .chksum => none

theorem pinOperand_of_mem {i : Instr} {p : PinNo}
    (hi : i ∈ [Instr.setinput p, .setoutput p, .sethigh p, .setlow p, .readinput p]) :
    pinOperand i = some p := by
  simp only [List.mem_cons, List.not_mem_nil, or_false] at hi
  obtain rfl | rfl | rfl | rfl | rfl := hi <;> rfl

@[simp] theorem pinOperand_pollInstr (ph : PollPhase) : pinOperand (pollInstr ph) = none := by
  cases ph <;> rfl

/-- An operation that names a pin makes accesses only. -/
theorem exec_accessesOnly {s t : State} {i : Instr} {p : PinNo} (h : exec i s = .next t)
    (hi : pinOperand i = some p) : AccessesOnly s t := by
  cases exec_effect h with
  | setinput p => exact accessesOnly_afterModify s p _
  | setoutput p => exact (accessesOnly_afterModify s p _).trans (accessesOnly_afterModify _ p _)
  | sethigh p | setlow p => exact ⟨_, _, _, _, _, [_], rfl, by simp [isBusEvent]⟩
  | readinput p =>
    rw [afterReads_one]
    exact ⟨_, _, _, _, _, [_], rfl, by simp [isBusEvent]⟩
  | pollEnds ph | pollTimesOut ph =>
    rw [pinOperand_pollInstr] at hi
    cases hi
  | _ => cases hi

/-- Settles O20: each of the five operations makes accesses only. -/
theorem pinControllerFrame : Obligations.PinControllerFrame := by
  unfold Obligations.PinControllerFrame
  intro s t p i hi h
  obtain ⟨_, _, _, _, _, es, rfl, hes⟩ := exec_accessesOnly h (pinOperand_of_mem hi)
  exact ⟨rfl, rfl, rfl, rfl, rfl, rfl, rfl, rfl, rfl, rfl, rfl, rfl, rfl, rfl, rfl, rfl, rfl,
    es, rfl, hes⟩

end Sys2Proof.Machine
end

section
/-! The other pins during an attempt (spec 41_pin_controller.md R101 to R104): an operation reaches the
function and the latch of its own pin only, and an attempt names no pin but `PIN` (R79). -/

namespace Sys2Proof.Machine

open Sys2Proof.Safety

theorem slotInstr_pinOperand {pin p : PinNo} {u : Nat} {i : Instr} (h : slotInstr pin u = some i)
    (hp : pinOperand i = some p) : p = pin := by
  unfold slotInstr at h
  split at h
  case h_15 =>
    split at h
    · split at h <;> cases h <;> cases hp
    · cases h
  case h_2 | h_3 | h_5 | h_7 =>
    cases h
    exact (Option.some.inj hp).symm
  all_goals
    cases h
    cases hp

theorem pinFunction_congr {s t : State} (h : t.fsel = s.fsel) (q : PinNo) :
    pinFunction t q = pinFunction s q := by
  rw [pinFunction, readFsel_congr h, pinFunction]

theorem exec_keeps_other_function {s t : State} {i : Instr} {q : PinNo} (h : exec i s = .next t)
    (hq : pinOperand i ≠ some q) : pinFunction t q = pinFunction s q := by
  cases exec_effect h with
  | setinput p hm hp =>
    have hne : q ≠ p := fun e => hq (congrArg some e.symm)
    exact pinFunction_afterModify_other hp hne (clear_keeps p)
  | setoutput p hm hp =>
    have hne : q ≠ p := fun e => hq (congrArg some e.symm)
    exact (pinFunction_afterModify_other hp hne (set_keeps p)).trans
      (pinFunction_afterModify_other hp hne (clear_keeps p))
  | _ => exact pinFunction_congr (by simp) q

theorem exec_keeps_other_latch {s t : State} {i : Instr} {q : PinNo} (h : exec i s = .next t)
    (hq : pinOperand i ≠ some q) : latch t q = latch s q := by
  by_contra hne
  obtain rfl | rfl := exec_changes_latch h hne <;> exact hq rfl

theorem afterSlot_fsel (s : State) : (afterSlot s).fsel = s.fsel := by
  rw [afterSlot_eq]
  split <;> simp

theorem afterSlot_out (s : State) : (afterSlot s).out = s.out := by
  rw [afterSlot_eq]
  split <;> simp

/-- Settles O43: the operation of a slot names no pin but `PIN`, and the advance after it reaches no
register of the block. -/
theorem attemptLeavesOtherPinsAlone : Obligations.AttemptLeavesOtherPinsAlone := by
  unfold Obligations.AttemptLeavesOtherPinsAlone
  intro s t q hr h hq _
  obtain ⟨-, -, rfl⟩ | ⟨-, i, u, hi, hu, rfl⟩ | ⟨hr', -, -⟩ | ⟨hr', -⟩ := step_cases h
  · exact ⟨rfl, rfl⟩
  · have hother : pinOperand i ≠ some q := fun e => hq (slotInstr_pinOperand hi e)
    exact ⟨(pinFunction_congr (afterSlot_fsel u) q).trans (exec_keeps_other_function hu hother),
      (latch_congr (afterSlot_out u) q).trans (exec_keeps_other_latch hu hother)⟩
  · simp [hr] at hr'
  · simp [hr] at hr'

end Sys2Proof.Machine
end

section
/-! `SETOUTPUT` event by event (spec 41_pin_controller.md R102; 20_memory.md R59). -/

namespace Sys2Proof.Machine

open Sys2Proof.Safety

/-- A read-modify-write is two event steps: the read, then the write of the word it is to make. -/
theorem runEvents_modify {b : Bool} {s : State} {p : PinNo} {f : EventState} {k : Word → Pending}
    {g : Word → Word} {next : Option Pending} (hs : Ready s) (hp : pinLegal p) (hb : s.running = b)
    (hf : eventStep f = closeEvent b (readField p k s))
    (hk : ∀ v u, continueOperation (k v) u = writeField p (g v) next u) :
    runEvents 2 f = closeEvent b (.ok (afterModify s p g, next)) := by
  have hread : eventStep f =
      .ok { st := afterFieldRead s p, pending := some (k (readFsel s (regIndex p))) } := by
    rw [hf, readField_ready hs hp]
    rfl
  have hrunning : (afterFieldRead s p).running = b := hb
  rw [runEvents_succ hread, runEvents_one, eventStep_continue, hrunning, hk, writeField_ready hs hp]

/-- The first two events of an invoked `SETOUTPUT p` (R102): those of `SETINPUT p`. -/
theorem runEvents_setoutput_clears {s : State} {p : PinNo} {rest : List OpWord} (hs : Ready s)
    (hp : pinLegal p) (hr : s.running = false) (hc : s.calls = encode (.setoutput p) :: rest) :
    runEvents 2 { st := s, pending := none } =
      .ok { st := afterModify { s with calls := rest } p fun v => v &&& ~~~fselMask p
            pending := some (.readAgain p) } := by
  have hready : Ready { s with calls := rest } := hs
  have hstart : startOperation (.setoutput p) { s with calls := rest } =
      readField p (fun v => .clearField p v true) { s with calls := rest } := pinOp_ready hready hp _
  have hfirst := eventStep_call hr hc (decodeOfEncode (.setoutput p) (decide_eq_true hp))
  rw [hstart] at hfirst
  exact runEvents_modify hready hp hr hfirst fun _ _ => rfl

/-- The last two events of an invoked `SETOUTPUT p` (R102). -/
theorem runEvents_setoutput_sets {s : State} {p : PinNo} (hs : Ready s) (hp : pinLegal p)
    (hr : s.running = false) :
    runEvents 2 { st := s, pending := some (.readAgain p) } =
      .ok { st := afterModify s p fun v => v ||| fselOut p, pending := none } := by
  have hagain : eventStep { st := s, pending := some (.readAgain p) } =
      closeEvent false (readField p (fun v => .setField p v) s) := by
    rw [eventStep_continue, hr]
    rfl
  exact runEvents_modify hs hp hr hagain fun _ _ => rfl

/-- Settles O57: after two events the state is the one `SETINPUT p` leaves, and two more events end the
operation. -/
theorem setOutputPassesThroughInput : Obligations.SetOutputPassesThroughInput := by
  unfold Obligations.SetOutputPassesThroughInput
  intro s p rest hs hp hr hc
  have hclears := runEvents_setoutput_clears hs hp hr hc
  have hinput := pinFunction_after_setinput (s := { s with calls := rest }) hp
  have hword := readFsel_afterModify (s := { s with calls := rest }) hp
    (fun v => v &&& ~~~fselMask p) (regIndex p)
  rw [if_pos rfl] at hword
  refine ⟨_, hclears, hinput, ?_, rfl, fun n hn => ?_, ?_, ?_⟩
  · rw [drivenLevel_eq_none_iff, hinput]
    decide
  · exact (congrArg (BitVec.getLsbD · n) hword).trans (clear_keeps p _ n hn)
  · change _ = s.trace ++ [.busRead (regIndex p) _, .busWrite (regIndex p) (readFsel _ (regIndex p))]
    rw [hword, afterModify_eq]
    rfl
  · have hsets := runEvents_setoutput_sets
      (s := afterModify { s with calls := rest } p fun v => v &&& ~~~fselMask p) hs hp hr
    rw [runEvents_add (k := 2) (m := 2) hclears, hsets]
    rfl

end Sys2Proof.Machine
end

section
/-! The scheduling class in public use (spec 10_state.md R29; 42_protocol_sequencer.md R123, R124, R130;
60_exceptions.md R166). -/

namespace Sys2Proof.Machine

open Sys2Proof.Safety

/-- From `s` to `t` the class is as it was and no event concerns it. -/
structure PrioIdle (s t : State) : Prop where
  prio : t.prio = s.prio
  ups : t.trace.count .prioUp = s.trace.count .prioUp
  downs : t.trace.count .prioDown = s.trace.count .prioDown

theorem PrioIdle.trans {s t u : State} (h : PrioIdle s t) (h' : PrioIdle t u) : PrioIdle s u :=
  ⟨h'.prio.trans h.prio, h'.ups.trans h.ups, h'.downs.trans h.downs⟩

theorem PrioIdle.of_eq {s t : State} (hprio : t.prio = s.prio) (htrace : t.trace = s.trace) :
    PrioIdle s t :=
  ⟨hprio, by rw [htrace], by rw [htrace]⟩

/-- Events other than `PrioUp` and `PrioDown`, with the class kept. -/
theorem PrioIdle.of_events {s t : State} {es : List Event} (hprio : t.prio = s.prio)
    (htrace : t.trace = s.trace ++ es) (hup : Event.prioUp ∉ es) (hdown : Event.prioDown ∉ es) :
    PrioIdle s t :=
  ⟨hprio, by simp [htrace, List.count_eq_zero_of_not_mem hup],
    by simp [htrace, List.count_eq_zero_of_not_mem hdown]⟩

theorem prioIdle_afterModify (s : State) (p : PinNo) (f : Word → Word) :
    PrioIdle s (afterModify s p f) :=
  .of_events (afterModify_prio s p f) (congrArg State.trace (afterModify_eq s p f)) (by simp) (by simp)

theorem prioIdle_polled (s : State) (n : Nat) (ph : PollPhase) (v : Count) :
    PrioIdle s (writeCounter (afterReads s n) ph v) :=
  .of_events (by simp) (by rw [writeCounter_trace, afterReads]) (by simp) (by simp)

theorem prioIdle_afterSlot (s : State) : PrioIdle s (afterSlot s) := by
  have hnext : PrioIdle s (nextSlot s) := .of_eq (by simp) (by simp)
  rw [afterSlot_eq]
  split
  · exact hnext.trans (.of_events (es := [.result (nextSlot s).res]) rfl rfl (by simp) (by simp))
  · exact hnext

theorem prioPaired_of_idle {s t : State} (hs : PrioPaired s) (h : PrioIdle s t) : PrioPaired t := by
  unfold PrioPaired
  rw [h.prio, h.ups, h.downs]
  exact hs

theorem prioPaired_iff_default {s : State} (h : s.prio = .default) :
    PrioPaired s ↔ s.trace.count .prioUp = s.trace.count .prioDown := by
  simp [PrioPaired, h]

theorem prioPaired_iff_realTime {s : State} (h : s.prio = .realTime) :
    PrioPaired s ↔ s.trace.count .prioUp = s.trace.count .prioDown + 1 := by
  simp [PrioPaired, h]

/-- `PrioUp` from the class `Default` is the one in force. -/
theorem prioPaired_raisePrio {s : State} (hs : PrioPaired s) (h : s.prio = .default) :
    PrioPaired (raisePrio s) := by
  rw [prioPaired_iff_default h] at hs
  rw [prioPaired_iff_realTime (raisePrio_prio s)]
  simpa using hs

/-- `PrioDown` from the class `RealTime` matches the one in force. -/
theorem prioPaired_lowerPrio {s : State} (hs : PrioPaired s) (h : s.prio = .realTime) :
    PrioPaired (lowerPrio s) := by
  rw [prioPaired_iff_realTime h] at hs
  rw [prioPaired_iff_default (lowerPrio_prio s)]
  simpa using hs

/-- The error entry lowers the class exactly if it was raised (R166). -/
theorem prioPaired_raiseError {s : State} (hs : PrioPaired s) (e : ErrKind)
    (place : Option PollPhase) : PrioPaired (raiseError e place s) := by
  unfold raiseError
  split
  · rename_i h
    exact prioPaired_of_idle (prioPaired_lowerPrio hs h) (.of_eq rfl rfl)
  · exact prioPaired_of_idle hs (.of_eq rfl rfl)

theorem prioPaired_ensureMapped {s : State} (hs : PrioPaired s) : PrioPaired (ensureMapped s) := by
  have hasked : PrioIdle s (askMapper s) :=
    .of_events rfl (congrArg State.trace (askMapper_eq s)) (by simp) (by simp)
  obtain ⟨-, he⟩ | he | ⟨e, -, he⟩ := ensureMapped_cases s <;> rw [he]
  · exact hs
  · exact prioPaired_of_idle hs (hasked.trans (.of_eq rfl rfl))
  · exact prioPaired_raiseError (prioPaired_of_idle hs hasked) e none

theorem prio_default_of_ne {s : State} (h : s.prio ≠ .realTime) : s.prio = .default := by
  cases hp : s.prio with
  | default => rfl
  | realTime => exact absurd hp h

/-- In an attempt `PRIOUP` meets the class `Default` and `PRIODN` the class `RealTime` (R29, R79). -/
theorem prioPaired_slot {s u : State} (hI : Inv s) (hr : s.running = true) (hs : PrioPaired s)
    (h : SlotEffect s u) : PrioPaired u := by
  have hraised := prio_realTime_iff_slot hI hr
  cases h with
  | ensuremapped => exact prioPaired_ensureMapped hs
  | setoutput =>
    exact prioPaired_of_idle hs ((prioIdle_afterModify s _ _).trans (prioIdle_afterModify _ _ _))
  | setinput => exact prioPaired_of_idle hs (prioIdle_afterModify s _ _)
  | sethigh | sleepc | setlow | waitp | settle =>
    exact prioPaired_of_idle hs (.of_events (es := [_]) rfl rfl (by simp) (by simp))
  | prioup h8 =>
    refine prioPaired_raisePrio hs (prio_default_of_ne fun hp => ?_)
    obtain ⟨h9, -⟩ := hraised.mp hp
    omega
  | priodn h92 => exact prioPaired_lowerPrio hs (hraised.mpr (by omega))
  | pollEnds ph n => exact prioPaired_of_idle hs (prioIdle_polled s (n + 1) ph _)
  | pollTimesOut ph n =>
    exact prioPaired_raiseError (prioPaired_of_idle hs (prioIdle_polled s (n + 1) ph _)) _ _
  | thresh | decbits | chksumValid => exact prioPaired_of_idle hs (.of_eq rfl rfl)
  | chksumInvalid => exact prioPaired_raiseError hs _ _

theorem prioPaired_step {s t : State} (hI : Inv s) (hs : PrioPaired s) (h : step s = .next t) :
    PrioPaired t := by
  cases hr : s.running with
  | true =>
    obtain ⟨u, hu, rfl⟩ := slot_effect_of_step hI hr h
    exact prioPaired_of_idle (prioPaired_slot hI hr hs hu) (prioIdle_afterSlot u)
  | false =>
    obtain ⟨-, hstep⟩ | ⟨rest, -, hstep⟩ := rest_step hI hr
    · cases hstep.symm.trans h
      exact hs
    · cases hstep.symm.trans h
      exact prioPaired_of_idle hs (.of_eq rfl rfl)

theorem prio_default_at_rest {s : State} (hI : Inv s) (hr : s.running = false) : s.prio = .default :=
  prio_default_of_ne (prio_ne_realTime_at_rest hI hr)

/-- Settles O47: `PRIOUP` runs in the class `Default` only and `PRIODN` in `RealTime` only, the error
entry lowers what is raised, and no other slot touches the class. -/
theorem priorityIsAlwaysRestored : Obligations.PriorityIsAlwaysRestored := by
  unfold Obligations.PriorityIsAlwaysRestored
  exact ⟨fun _ _ => prioPaired_step, fun _ => prio_default_at_rest,
    fun _ hs hp => (prioPaired_iff_default hp).mp hs⟩

end Sys2Proof.Machine
end

section
/-! The step of an attempt, its start, and the operations that only emit an event (spec
42_protocol_sequencer.md R112, R113, R115, R120 to R124, R131). -/

namespace Sys2Proof.Machine

open Sys2Proof.Safety

/-- Settles O6: the three cases of the advance after a slot. -/
theorem stepRunsSlot : Obligations.StepRunsSlot := by
  unfold Obligations.StepRunsSlot
  intro s t i hr hi he
  have hstep := step_of_slot hr hi he
  refine ⟨fun h96 => ?_, fun h95 => ?_, fun hlt => ⟨_, upc_succ (by omega), ?_⟩⟩
  · rw [hstep, afterSlot_error h96]
    rfl
  · rw [hstep, afterSlot_last h95]
    rfl
  · rw [hstep, afterSlot_next hlt]

theorem restingPhase_iff (pc : Phase) :
    restingPhase pc = true ↔ pc = .idle ∨ pc = .done ∨ pc = .failed := by
  cases pc <;> simp [restingPhase]

theorem attemptRunning_iff (s : State) :
    attemptRunning s = true ↔ s.running = true ∨ ¬(s.pc = .idle ∨ s.pc = .done ∨ s.pc = .failed) := by
  rw [← restingPhase_iff]
  simp [attemptRunning]

theorem exec_readdata_accepted {s : State} (h : attemptRunning s = false) :
    exec .readdata s = .next (attemptStart s) := by
  show execReaddata s = _
  simp [execReaddata, h]

theorem exec_readdata_refused {s : State} (h : attemptRunning s = true) :
    exec .readdata s = .refused .overlappingAttempt := by
  show execReaddata s = _
  simp [execReaddata, h]

/-- Settles O25: acceptance is `attemptRunning`, and at rest in public use a step either waits or accepts
`READDATA`. -/
theorem readDataStartsAttempt : Obligations.ReadDataStartsAttempt := by
  unfold Obligations.ReadDataStartsAttempt
  refine ⟨fun s => ⟨fun hr hpc => exec_readdata_accepted ?_,
    fun h => exec_readdata_refused ((attemptRunning_iff s).mpr h)⟩, fun s t hI hr _ h => ?_⟩
  · rw [Bool.eq_false_iff, Ne, attemptRunning_iff]
    simp [hr, hpc]
  · obtain ⟨hc, hstep⟩ | ⟨rest, hc, hstep⟩ := rest_step hI hr
    · cases hstep.symm.trans h
      exact .inl ⟨hc, rfl⟩
    · cases hstep.symm.trans h
      exact .inr ⟨rest, hc, rfl, rfl⟩

/-- Settles O26: the words by the place of the time in format T (`encodeT_toNat`), the effects as the
operations are defined. -/
theorem delaysEmitTheirEvent : Obligations.DelaysEmitTheirEvent := by
  unfold Obligations.DelaysEmitTheirEvent
  exact ⟨rfl, fun s ms => ⟨encodeT_toNat 8 ms, encodeT_toNat 9 ms, rfl, rfl, rfl⟩⟩

/-- Settles O27: both operations are one event and one write of the class, as they are defined. -/
theorem priorityOperations : Obligations.PriorityOperations := by
  unfold Obligations.PriorityOperations
  exact ⟨rfl, rfl, fun s => ⟨rfl, rfl⟩⟩

end Sys2Proof.Machine
end

section
/-! The polling operations on a known line (spec 42_protocol_sequencer.md R125 to R129): the samples and
the ceiling decide where the loop ends. -/

namespace Sys2Proof.Machine

open Sys2Proof.Safety

/-! ### The end of the loop -/

section Loop

variable {s : State} {ph : PollPhase} {n : Nat} (hs : Ready s) (hp : pinLegal s.pin)
  (hrun : ∀ k, k < n → levelAt s k = pollLevel ph)
  (hbelow : n = 0 ∨ (readCounter s ph).toNat + n < s.params.maxCount)

include hs hp hrun hbelow

/-- A run of `n` samples that ends below the ceiling is counted. -/
theorem exec_pollInstr_ends (hend : levelAt s n ≠ pollLevel ph) :
    exec (pollInstr ph) s = .next (writeCounter (afterReads s (n + 1)) ph
      (BitVec.ofNat 32 ((readCounter s ph).toNat + n))) := by
  obtain ⟨m, hm, hmbelow, ⟨hlevel, he⟩ | ⟨hlevel, hceil, he⟩⟩ :=
    pollPhase_spec (level := pollLevel ph) (ph := ph) hs hp
  · obtain rfl : m = n := by
      by_contra hne
      obtain hlt | hgt := Nat.lt_or_gt_of_ne hne
      · exact hlevel (hrun m hlt)
      · exact hend (hm n hgt)
    rw [exec_pollInstr, he]
    rfl
  · have hmn : m < n := by
      by_contra hge
      obtain rfl | hlt := Nat.eq_or_lt_of_le (Nat.not_lt.mp hge)
      · exact hend hlevel
      · exact hend (hm n hlt)
    omega

/-- A run that reaches the ceiling with its sample `n` times out at that read. -/
theorem exec_pollInstr_timesOut (hlast : levelAt s n = pollLevel ph)
    (hceil : s.params.maxCount ≤ (readCounter s ph).toNat + n + 1) :
    exec (pollInstr ph) s = .next (raiseError .timeoutError (some ph)
      (writeCounter (afterReads s (n + 1)) ph
        (BitVec.ofNat 32 ((readCounter s ph).toNat + n + 1)))) := by
  obtain ⟨m, hm, hmbelow, ⟨hlevel, he⟩ | ⟨hlevel, hmceil, he⟩⟩ :=
    pollPhase_spec (level := pollLevel ph) (ph := ph) hs hp
  · have hnm : n < m := by
      by_contra hge
      obtain rfl | hlt := Nat.eq_or_lt_of_le (Nat.not_lt.mp hge)
      · exact hlevel hlast
      · exact hlevel (hrun m hlt)
    omega
  · obtain rfl : m = n := by omega
    rw [exec_pollInstr, he]
    rfl

end Loop

/-! ### The counters -/

theorem encode_sampleLow (i : Fin 41) :
    (encode (pollInstr (.sampleLow i))).toNat = 0x7000 + i.val := by
  show (encode (.cntlow (BitVec.ofNat 6 i.val))).toNat = _
  rw [encode_cntlow_ofNat (by omega), BitVec.toNat_ofNat]
  omega

theorem encode_sampleHigh (i : Fin 41) :
    (encode (pollInstr (.sampleHigh i))).toNat = 0x7800 + i.val := by
  show (encode (.cnthigh (BitVec.ofNat 6 i.val))).toNat = _
  rw [encode_cnthigh_ofNat (by omega), BitVec.toNat_ofNat]
  omega

theorem readCounter_congr {s t : State} (hcnt : t.cnt = s.cnt) (hwcnt : t.wcnt = s.wcnt)
    (ph : PollPhase) : readCounter t ph = readCounter s ph := by
  cases ph with
  | waitResponse => exact hwcnt
  | sampleLow i => exact readCnt_congr hcnt _
  | sampleHigh i => exact readCnt_congr hcnt _

/-- Settles O28: the loop by `exec_pollInstr_ends` and `exec_pollInstr_timesOut`, the rest by the
counter each phase names. -/
theorem pollingOperation : Obligations.PollingOperation := by
  unfold Obligations.PollingOperation
  refine ⟨⟨rfl, rfl, rfl⟩, fun i => ⟨encode_sampleLow i, encode_sampleHigh i, rfl, rfl, rfl, rfl⟩,
    fun s v => ⟨rfl, rfl⟩, fun s v i k => ⟨rfl, rfl, readCnt_writeCounter s (.sampleLow i) v k,
      readCnt_writeCounter s (.sampleHigh i) v k, rfl, rfl⟩, ?_⟩
  rintro s ph c n hs hp rfl hrun hbelow
  refine ⟨exec_pollInstr_ends hs hp hrun hbelow, fun hlast hceil => ?_⟩
  rw [exec_pollInstr_timesOut hs hp hrun hbelow hlast hceil, raiseError_eq_errorState]

/-- Settles O29: the three families of polling operations are the three kinds of phase. -/
theorem pollsCountTheRun : Obligations.PollsCountTheRun := by
  unfold Obligations.PollsCountTheRun
  intro s n hs hp
  refine ⟨fun hrun hend hbelow => ?_, fun i hi hrun hend hbelow => ?_,
    fun i hi hrun hend hbelow => ?_⟩
  · exact exec_pollInstr_ends (ph := .waitResponse) hs hp hrun (.inr hbelow)
      (by simp [hend, pollLevel])
  · exact exec_pollInstr_ends (ph := .sampleLow ⟨i, by omega⟩) hs hp hrun (.inr hbelow)
      (by simp [hend, pollLevel])
  · exact exec_pollInstr_ends (ph := .sampleHigh ⟨i, by omega⟩) hs hp hrun (.inr hbelow)
      (by simp [hend, pollLevel])

/-! ### A timeout in an attempt (R129) -/

/-- The state in which a timeout at the slot of `ph` leaves an attempt. -/
def timedOut (s : State) (ph : PollPhase) : State :=
  attemptEnd (raiseError .timeoutError (some ph)
    (writeCounter (afterReads s s.params.maxCount) ph (BitVec.ofNat 32 s.params.maxCount)))

theorem step_timedOut {s : State} {ph : PollPhase} (hI : Inv s) (hr : s.running = true)
    (hslot : s.upc.val = pollSlot ph) (hrun : ∀ k, k < s.params.maxCount → levelAt s k = pollLevel ph) :
    step s = .next (timedOut s ph) := by
  have hbounds := pollSlot_bounds ph
  have hzero := counter_zero hI hr hslot
  obtain ⟨hp, hmin, -⟩ := hI.admissible
  obtain ⟨n, hn⟩ := Nat.exists_eq_add_of_le' hmin
  have he := exec_pollInstr_timesOut (ph := ph) (n := n) (ready_of_inv hI hr (by omega)) hp
    (fun k hk => hrun k (by omega)) (by omega) (hrun n (by omega)) (by omega)
  rw [hzero, Nat.zero_add, ← hn] at he
  rw [step_of_slot hr (by rw [hslot, slotInstr_poll]) he, afterSlot_error rfl]
  rfl

theorem timedOut_trace {s : State} {ph : PollPhase} (h : s.prio = .realTime) :
    (timedOut s ph).trace = s.trace ++
      ((List.range s.params.maxCount).map fun k => Event.busRead 13 (levAt s k)) ++
      [.prioDown, .result none] := by
  simp [timedOut, h, afterReads, levOff]

theorem readCounter_timedOut (s : State) (ph : PollPhase) :
    readCounter (timedOut s ph) ph = BitVec.ofNat 32 s.params.maxCount :=
  (readCounter_congr (by simp [timedOut]) (by simp [timedOut]) ph).trans
    (readCounter_writeCounter (afterReads s s.params.maxCount) ph _)

theorem readCnt_timedOut (s : State) (ph : PollPhase) (k : Nat) :
    readCnt (timedOut s ph) k =
      if 10 + k = pollSlot ph then BitVec.ofNat 32 s.params.maxCount else readCnt s k :=
  (readCnt_congr (by simp [timedOut]) k).trans
    (readCnt_writeCounter_slot (afterReads s s.params.maxCount) ph _ k)

theorem wcnt_timedOut (s : State) {ph : PollPhase} (h : ph ≠ .waitResponse) :
    (timedOut s ph).wcnt = s.wcnt := by
  rw [timedOut, attemptEnd_wcnt, raiseError_wcnt]
  cases ph with
  | waitResponse => exact absurd rfl h
  | sampleLow i => rfl
  | sampleHigh i => rfl

/-- Settles O30: the state a timeout leaves, field by field. -/
theorem timeoutAbortsAttempt : Obligations.TimeoutAbortsAttempt := by
  unfold Obligations.TimeoutAbortsAttempt
  intro s ph hI hr hslot hrun
  have hbounds := pollSlot_bounds ph
  have hmapped := (hI.running hr).mapped_after_slot0 (by omega)
  have hraised := (prio_realTime_iff_slot hI hr).mpr (by omega)
  exact ⟨timedOut s ph, step_timedOut hI hr hslot hrun, rfl, by simp [timedOut], by simp [timedOut],
    by simp [timedOut], by simp [timedOut], rfl, rfl, by simp [timedOut, hmapped], by simp [timedOut],
    by simp [timedOut], by simp [timedOut], by rw [readCounter_timedOut, toNat_ofNat_count hI le_rfl],
    fun k _ hk => (readCnt_timedOut s ph k).trans (if_neg hk), wcnt_timedOut s,
    timedOut_trace hraised⟩

end Sys2Proof.Machine
end

section
/-! Inside an operation (spec 42_protocol_sequencer.md R115, R126): what an event that does not end its
operation leaves, and one iteration of a poll loop. -/

namespace Sys2Proof.Machine

open Sys2Proof.Safety

/-- From `s` to `t` the place in the attempt is as it was. -/
structure SamePlace (s t : State) : Prop where
  pc : t.pc = s.pc
  upc : t.upc = s.upc
  running : t.running = s.running

/-- Whatever is left to do after `r`, the place is still that of `s`. -/
def KeepsPlace (s : State) (r : Access Progress) : Prop :=
  ∀ t w, r = .ok (t, some w) → SamePlace s t

theorem keepsPlace_of_done (s t : State) : KeepsPlace s (.ok (t, none)) := by
  intro u w h
  cases h

theorem KeepsPlace.pinOp {s : State} {r : Access Progress} (h : KeepsPlace s r) (p : PinNo) :
    KeepsPlace s (pinOp p s r) := by
  intro t w ht
  obtain ⟨-, -, hr⟩ := pinOp_ok ht
  exact h t w hr

theorem keepsPlace_wholeOperation (i : Instr) (s : State) : KeepsPlace s (wholeOperation i s) := by
  intro t w h
  unfold wholeOperation at h
  split at h <;> cases h

theorem keepsPlace_readField (p : PinNo) (k : Word → Pending) (s : State) :
    KeepsPlace s (readField p k s) := by
  intro t w h
  unfold readField at h
  split at h
  · cases h
  · rename_i v u hu
    cases h
    obtain ⟨-, ⟨-, -, rfl⟩ | ⟨-, -, rfl⟩⟩ := regRead_cases hu <;> exact ⟨rfl, rfl, rfl⟩

theorem keepsPlace_writeField (p : PinNo) (v : Word) (next : Option Pending) (s : State) :
    KeepsPlace s (writeField p v next s) := by
  intro t w h
  unfold writeField at h
  split at h
  · cases h
  · rename_i u hu
    cases h
    obtain ⟨-, ⟨-, rfl⟩ | ⟨-, rfl⟩ | ⟨-, rfl⟩⟩ := regWrite_cases hu <;> exact ⟨rfl, rfl, rfl⟩

/-- The error entry is still to come, so the phase has not changed. -/
theorem keepsPlace_raiseNext {s u : State} (h : SamePlace s u) (e : ErrKind)
    (place : Option PollPhase) : KeepsPlace s (.ok (raiseNext e place u)) := by
  intro t w ht
  unfold raiseNext at ht
  split at ht
  · cases ht
    exact h
  · cases ht

theorem keepsPlace_mapEvent (s : State) : KeepsPlace s (.ok (mapEvent s)) := by
  have hasked : SamePlace s (askMapper s) := ⟨rfl, rfl, rfl⟩
  unfold mapEvent
  split
  · exact keepsPlace_of_done s s
  · split
    · exact keepsPlace_of_done s _
    · exact keepsPlace_raiseNext hasked _ _
    · exact keepsPlace_raiseNext hasked _ _

theorem keepsPlace_pollEvent (level : Bool) (ph : PollPhase) (s : State) :
    KeepsPlace s (pollEvent level ph s) := by
  unfold pollEvent
  cases hread : readInput s.pin s with
  | error r =>
    intro t w h
    cases h
  | ok x =>
    obtain ⟨b, u⟩ := x
    obtain ⟨-, -, -, rfl⟩ := readInput_cases hread
    have hcounted (v : Count) : SamePlace s
        (writeCounter (emit (.busRead levOff (nextLev s)) (dropLev s)) ph v) := by
      constructor <;> simp
    simp only
    split
    · exact keepsPlace_of_done s _
    · split
      · exact keepsPlace_raiseNext (hcounted _) _ _
      · intro t w h
        cases h
        exact hcounted _

theorem keepsPlace_startOperation (i : Instr) (s : State) : KeepsPlace s (startOperation i s) := by
  cases i with
  | ensuremapped => exact keepsPlace_mapEvent s
  | setinput p | setoutput p => exact (keepsPlace_readField p _ s).pinOp p
  | waitresp => exact keepsPlace_pollEvent _ _ s
  | cntlow k | cnthigh k =>
    simp only [startOperation]
    split
    · exact keepsPlace_pollEvent _ _ s
    · intro t w h
      cases h
  | _ =>
    simp only [startOperation]
    exact keepsPlace_wholeOperation _ s

theorem keepsPlace_continueOperation (w : Pending) (s : State) :
    KeepsPlace s (continueOperation w s) := by
  cases w with
  | clearField p v output => exact keepsPlace_writeField p _ _ s
  | readAgain p => exact keepsPlace_readField p _ s
  | setField p v => exact keepsPlace_writeField p _ none s
  | poll level ph => exact keepsPlace_pollEvent level ph s
  | errorEntry e place => exact keepsPlace_of_done s _

theorem samePlace_closeEvent {s : State} {b : Bool} {r : Access Progress} {g : EventState}
    (h : KeepsPlace s r) (hg : closeEvent b r = .ok g) (hp : g.pending ≠ none) :
    SamePlace s g.st := by
  unfold closeEvent at hg
  split at hg
  · cases hg
  · cases hg
    exact h _ _ rfl
  · cases hg
    exact absurd rfl hp

theorem samePlace_eventStep {f g : EventState} (h : eventStep f = .ok g) (hp : g.pending ≠ none) :
    SamePlace f.st g.st := by
  unfold eventStep at h
  split at h
  · exact samePlace_closeEvent (keepsPlace_continueOperation _ _) h hp
  · rename_i hf
    split at h
    · split at h
      · cases h
        exact absurd rfl hp
      · exact samePlace_closeEvent (keepsPlace_startOperation _ _) h hp
    · split at h
      · cases h
        exact absurd hf hp
      · split at h
        · cases h
        · obtain ⟨hpc, hupc, hrunning⟩ :=
            samePlace_closeEvent (keepsPlace_startOperation _ _) h hp
          exact ⟨hpc, hupc, hrunning⟩

/-- Settles O56: no event that leaves something pending moves the place. -/
theorem subStepKeepsIndex : Obligations.SubStepKeepsIndex := by
  unfold Obligations.SubStepKeepsIndex
  intro f g h hp
  obtain ⟨hpc, hupc, hrunning⟩ := samePlace_eventStep h hp
  exact ⟨hpc, hupc, hrunning⟩

/-- Settles O58: the three branches of one poll iteration (`pollEvent_ready`). -/
theorem pollIteration : Obligations.PollIteration := by
  unfold Obligations.PollIteration
  intro s ph hs hp
  have hevent : eventStep { st := s, pending := some (.poll (pollLevel ph) ph) } =
      closeEvent s.running (pollEvent (pollLevel ph) ph s) := eventStep_continue
  rw [hevent, pollEvent_ready hs hp]
  refine ⟨fun hend => ?_, fun hlevel hbelow => ?_, fun hlevel hceil hprio => ?_⟩
  · rw [if_pos hend]
    rfl
  · rw [if_neg (not_not.mpr hlevel)]
    simp only [if_neg (Nat.not_le.mpr hbelow)]
    rfl
  · rw [if_neg (not_not.mpr hlevel)]
    simp only [if_pos hceil, raiseNext, writeCounter_prio, afterReads_prio, hprio, if_true]
    rfl

end Sys2Proof.Machine
end

section
/-! Every attempt ends (spec 42_protocol_sequencer.md R110, R112, R115, R133): a step of an attempt
advances the index or is the last, and only the last performs `Result`. -/

namespace Sys2Proof.Machine

open Sys2Proof.Safety

theorem inv_runSteps {k : Nat} {s t : State} (hI : Inv s) (h : runSteps k s = .next t) : Inv t := by
  induction k generalizing s with
  | zero =>
    cases h
    exact hI
  | succ k ih =>
    obtain ⟨u, hu⟩ := publicUseNeverStops s hI
    rw [runSteps_next hu] at h
    exact ih (stepKeepsInvariant s u hI hu) h

theorem slotInstr_ne_none (p : PinNo) {u : Nat} (hu : u < 96) : slotInstr p u ≠ none := by
  by_cases hpoll : 9 ≤ u ∧ u ≤ 91
  · obtain ⟨ph, rfl⟩ := exists_pollSlot hpoll.1 hpoll.2
    simp [slotInstr_poll]
  · obtain hlow | hhigh : u < 9 ∨ 92 ≤ u := by omega
    · interval_cases u <;> exact Option.some_ne_none _
    · interval_cases u <;> exact Option.some_ne_none _

/-! ### `Result` is performed at the end only -/

def isResult (e : Event) : Bool :=
  match e with
  | .result _ => true
  | .mapReq | .mapResp _ | .busRead _ _ | .busWrite _ _ | .sleep _ | .busyWait _ | .settle _ | .prioUp
  | .prioDown => false

@[simp] theorem filter_isResult_reads (s : State) (l : List Nat) :
    (l.map fun k => Event.busRead levOff (levAt s k)).filter isResult = [] := by
  simp [List.filter_eq_nil_iff, isResult]

theorem afterReads_results (s : State) (n : Nat) :
    (afterReads s n).trace.filter isResult = s.trace.filter isResult := by
  simp [afterReads]

theorem raiseError_results (e : ErrKind) (place : Option PollPhase) (s : State) :
    (raiseError e place s).trace.filter isResult = s.trace.filter isResult := by
  rw [raiseError_trace]
  split <;> simp [isResult]

theorem ensureMapped_results (s : State) :
    (ensureMapped s).trace.filter isResult = s.trace.filter isResult := by
  obtain ⟨-, he⟩ | he | ⟨e, -, he⟩ := ensureMapped_cases s <;> rw [he]
  · simp [isResult]
  · rw [raiseError_results]
    simp [isResult]

theorem exec_results {s t : State} {i : Instr} (h : exec i s = .next t) :
    t.trace.filter isResult = s.trace.filter isResult := by
  cases exec_effect h with
  | ensuremapped => exact ensureMapped_results s
  | setinput p => simp [afterModify, isResult]
  | setoutput p => simp [afterModify, isResult]
  | readinput p => exact afterReads_results s 1
  | pollEnds ph n => rw [writeCounter_trace, afterReads_results]
  | pollTimesOut ph n => rw [raiseError_results, writeCounter_trace, afterReads_results]
  | chksumInvalid => exact raiseError_results _ _ s
  | _ => simp [isResult]

/-- The events an operation performs, none of them `Result`. -/
theorem exec_events {s t : State} {i : Instr} (h : exec i s = .next t) :
    ∃ es, t.trace = s.trace ++ es ∧ ∀ o, Event.result o ∉ es := by
  obtain ⟨es, hes⟩ := (exec_persists h).trace
  refine ⟨es, hes.symm, fun o ho => ?_⟩
  have hresults := exec_results h
  rw [← hes, List.filter_append, List.append_right_eq_self, List.filter_eq_nil_iff] at hresults
  exact hresults _ ho rfl

/-! ### The index (R115) -/

/-- An operation of an attempt keeps the index, or an error puts it to 96 (R166). -/
theorem exec_upc {s t : State} {i : Instr} (h : exec i s = .next t) (hr : s.running = true) :
    t.upc = s.upc ∨ t.upc.val = 96 := by
  cases exec_effect h with
  | ensuremapped =>
    obtain ⟨-, he⟩ | he | ⟨e, -, he⟩ := ensureMapped_cases s <;> rw [he]
    · exact .inl rfl
    · exact .inl rfl
    · exact .inr rfl
  | readdata hidle => simp [attemptRunning, hr] at hidle
  | pollTimesOut | chksumInvalid => exact .inr rfl
  | _ => exact .inl (by simp)

theorem nextSlot_upc (s : State) :
    (nextSlot s).upc.val = if s.upc.val < 95 then s.upc.val + 1 else 96 := by
  unfold nextSlot
  by_cases h96 : s.upc.val = 96
  · simp [h96]
  · by_cases h95 : s.upc.val = 95
    · simp [h95]
    · rw [if_neg h96, if_neg h95, if_pos (by omega)]
      exact upc_succ (by omega)

/-- An attempt that stands at its next slot, or has ended with `Result`, after the events `es`. -/
def AttemptAdvances (s t : State) (es : List Event) : Prop :=
  (t.running = true ∧ t.upc.val = s.upc.val + 1 ∧ t.trace = s.trace ++ es) ∨
    (t.running = false ∧ t.upc.val = 96 ∧ t.trace = s.trace ++ es ++ [.result t.res])

theorem attempt_step {s : State} (hI : Inv s) (hr : s.running = true) :
    ∃ t es, step s = .next t ∧ AttemptAdvances s t es ∧ ∀ o, Event.result o ∉ es := by
  obtain ⟨t, ht⟩ := publicUseNeverStops s hI
  obtain ⟨-, hnone, -⟩ | ⟨-, i, u, -, hu, rfl⟩ | ⟨hr', -⟩ | ⟨hr', -⟩ := step_cases ht
  · exact absurd hnone (slotInstr_ne_none s.pin (hI.running hr).upc_lt)
  · obtain ⟨es, htrace, hes⟩ := exec_events hu
    refine ⟨_, es, ht, ?_, hes⟩
    have hupc := exec_upc hu hr
    have hnext := nextSlot_upc u
    rw [afterSlot_eq]
    by_cases hlast : (nextSlot u).upc.val = 96
    · rw [if_pos hlast]
      exact .inr ⟨rfl, hlast, by simp [htrace]⟩
    · rw [if_neg hlast]
      refine .inl ⟨by simp [exec_keeps_running hu hr], ?_, by simp [htrace]⟩
      split at hnext
      · obtain hsame | h96 := hupc
        · rw [hnext, hsame]
        · omega
      · exact absurd hnext hlast
  · simp [hr] at hr'
  · simp [hr] at hr'

/-- From any slot an attempt runs to its end, one step for each slot at most. -/
theorem attempt_ends {s : State} (hI : Inv s) (hr : s.running = true) :
    ∃ k t es, k ≤ 96 - s.upc.val ∧ runSteps k s = .next t ∧ t.running = false ∧ t.upc.val = 96 ∧
      t.trace = s.trace ++ es ++ [.result t.res] ∧ ∀ o, Event.result o ∉ es := by
  have hlt := (hI.running hr).upc_lt
  generalize hm : 96 - s.upc.val = m
  induction m generalizing s with
  | zero => omega
  | succ m ih =>
    obtain ⟨t, es, hstep, ⟨hrun, hupc, htrace⟩ | ⟨hrun, hupc, htrace⟩, hes⟩ := attempt_step hI hr
    · have hIt := stepKeepsInvariant s t hI hstep
      obtain ⟨k, v, es', hk, hv, hvr, hvu, hvt, hes'⟩ :=
        ih hIt hrun (hIt.running hrun).upc_lt (by omega)
      refine ⟨k + 1, v, es ++ es', by omega, by rw [runSteps_next hstep, hv], hvr, hvu,
        by simp [hvt, htrace], fun o ho => ?_⟩
      exact (List.mem_append.mp ho).elim (hes o) (hes' o)
    · exact ⟨1, t, es, by omega, by rw [runSteps_next hstep, runSteps_zero], hrun, hupc, htrace, hes⟩

/-! ### How an attempt has ended (R131, R166) -/

/-- At rest after an attempt the phase is one of the two ends. -/
theorem ended_phase {t : State} (hI : Inv t) (hr : t.running = false) (hu : t.upc.val = 96) :
    t.pc = .done ∨ t.pc = .failed := by
  have hR := hI.resting hr
  obtain hidle | hend := (restingPhase_iff t.pc).mp hR.phase
  · obtain ⟨h0, -⟩ := hR.idle hidle
    omega
  · exact hend

theorem done_iff {t : State} (hI : Inv t) (hr : t.running = false) (hu : t.upc.val = 96) :
    (t.res ≠ none ↔ t.pc = .done) ∧ (t.err = .noError ↔ t.pc = .done) := by
  have hR := hI.resting hr
  obtain hpc | hpc := ended_phase hI hr hu
  · obtain ⟨-, herr, hres, -⟩ := hR.done hpc
    simp [hpc, herr, hres]
  · obtain ⟨-, herr, hres⟩ := hR.failed hpc
    simp [hpc, herr, hres]

/-- Settles O49: the run by `attempt_ends`, its end by the invariant at rest. -/
theorem everyAttemptEnds : Obligations.EveryAttemptEnds := by
  unfold Obligations.EveryAttemptEnds
  intro s hI hr
  obtain ⟨k, t, es, hk, hrun, htr, htu, htrace, hes⟩ := attempt_ends hI hr
  have hIt := inv_runSteps hI hrun
  obtain ⟨hres, herr⟩ := done_iff hIt htr htu
  exact ⟨k, t, hk, hrun, htr, htu, ended_phase hIt htr htu, prio_default_at_rest hIt htr, hres, herr,
    es, htrace, hes⟩

end Sys2Proof.Machine
end

section
/-! Runs of consecutive steps of an attempt: their events, and the samples they consume (spec
42_protocol_sequencer.md R111, R132). -/

namespace Sys2Proof.Machine

open Sys2Proof.Safety

/-- `k` steps lead from `s` to `t`, perform the events `es`, consume `n` line samples and start no
invoked operation. -/
structure Leads (k : Nat) (s t : State) (es : List Event) (n : Nat) : Prop where
  run : runSteps k s = .next t
  trace : t.trace = s.trace ++ es
  calls : t.calls = s.calls
  line : t.line = s.line.drop n
  lineReads : t.lineReads = s.lineReads + n

section Leads

variable {s t u : State} {k k' n n' : Nat} {es es' : List Event}

theorem Leads.trans (h : Leads k s t es n) (h' : Leads k' t u es' n') :
    Leads (k + k') s u (es ++ es') (n + n') where
  run := by rw [runSteps_add h.run, h'.run]
  trace := by rw [h'.trace, h.trace, List.append_assoc]
  calls := h'.calls.trans h.calls
  line := by rw [h'.line, h.line, List.drop_drop]
  lineReads := by rw [h'.lineReads, h.lineReads, Nat.add_assoc]

theorem Leads.of_step (h : step s = .next t) (htrace : t.trace = s.trace ++ es)
    (hcalls : t.calls = s.calls) (hline : t.line = s.line.drop n)
    (hreads : t.lineReads = s.lineReads + n) : Leads 1 s t es n :=
  ⟨by rw [runSteps_next h, runSteps_zero], htrace, hcalls, hline, hreads⟩

theorem persists_runSteps (h : runSteps k s = .next t) : Persists s t := by
  induction k generalizing s with
  | zero =>
    cases h
    exact .refl _
  | succ k ih =>
    cases hs : step s with
    | next u =>
      rw [runSteps_next hs] at h
      exact (step_persists hs).trans (ih h)
    | fault f => cases f
    | refused r =>
      unfold runSteps at h
      rw [hs] at h
      cases h

/-- The samples still to come are those of before, without the ones consumed. -/
theorem Leads.levelAt_eq (h : Leads k s t es n) (j : Nat) : levelAt t j = levelAt s (n + j) := by
  have hpin := (persists_runSteps h.run).pin
  simp only [levelAt, levAt, h.line, h.lineReads, hpin, List.getElem?_drop, Nat.add_assoc]

end Leads

/-! ### A slot that completes -/

/-- The state at slot `n` after an operation that left `s`. -/
def advanceTo (n : Nat) (s : State) : State := { s with upc := Fin.ofNat 97 n, pc := phaseOf n }

theorem step_slot {s v : State} {i : Instr} {u : Nat} (hr : s.running = true) (hu : s.upc.val = u)
    (hlt : u < 95) (hi : slotInstr s.pin u = some i) (he : exec i s = .next v)
    (hv : v.upc = s.upc) : step s = .next (advanceTo (u + 1) v) := by
  have hvu : v.upc.val = u := by rw [hv, hu]
  rw [step_of_slot hr (by rw [hu, hi]) he, afterSlot_next (by omega), hvu]
  rfl

/-! ### The handshake, slots 1 to 8 -/

/-- The attempt stands at slot `u` and its operations on the register block will execute. -/
structure AtSlot (u : Nat) (s : State) : Prop where
  running : s.running = true
  upc : s.upc.val = u
  ready : Ready s
  pin : pinLegal s.pin

/-- `k` slots lead from `s` to `t` with the events `es`, and reach the register block, the class and the
place in the attempt only. -/
structure Handshakes (k : Nat) (s t : State) (es : List Event) : Prop where
  run : runSteps k s = .next t
  frame : t = { s with
    fsel := t.fsel
    out := t.out
    prio := t.prio
    pc := t.pc
    upc := t.upc
    trace := s.trace ++ es }
  upc : t.upc.val = s.upc.val + k

section Handshakes

variable {s t u : State} {k k' m : Nat} {es es' : List Event}

theorem Handshakes.trans (h : Handshakes k s t es) (h' : Handshakes k' t u es') :
    Handshakes (k + k') s u (es ++ es') where
  run := by rw [runSteps_add h.run, h'.run]
  frame := by
    rw [h'.frame, h.frame, List.append_assoc]
  upc := by rw [h'.upc, h.upc, Nat.add_assoc]

theorem Handshakes.pin (h : Handshakes k s t es) : t.pin = s.pin := (congrArg State.pin h.frame :)

theorem Handshakes.params (h : Handshakes k s t es) : t.params = s.params :=
  (congrArg State.params h.frame :)

theorem Handshakes.leads (h : Handshakes k s t es) : Leads k s t es 0 where
  run := h.run
  trace := (congrArg State.trace h.frame :)
  calls := (congrArg State.calls h.frame :)
  line := (congrArg State.line h.frame :)
  lineReads := (congrArg State.lineReads h.frame :)

theorem AtSlot.after (hs : AtSlot m s) (h : Handshakes k s t es) : AtSlot (m + k) t where
  running := (congrArg State.running h.frame :).trans hs.running
  upc := by rw [h.upc, hs.upc]
  ready := ⟨(congrArg State.mapped h.frame :).trans hs.ready.1, by rw [h.params]; exact hs.ready.2⟩
  pin := by rw [h.pin]; exact hs.pin

end Handshakes

/-- The slot of an operation that makes accesses, sets the class or waits. -/
theorem slot_handshakes {u : Nat} {s v : State} {i : Instr} {es : List Event} (h : AtSlot u s)
    (hlt : u < 95) (hi : slotInstr s.pin u = some i) (he : exec i s = .next v)
    (hv : v = { s with fsel := v.fsel, out := v.out, prio := v.prio, trace := s.trace ++ es }) :
    ∃ t, Handshakes 1 s t es ∧ t.fsel = v.fsel := by
  have hupc : v.upc = s.upc := (congrArg State.upc hv :)
  have hnext : (advanceTo (u + 1) v).upc.val = u + 1 := upc_succ (by omega)
  refine ⟨advanceTo (u + 1) v, ⟨?_, ?_, by rw [hnext, h.upc]⟩, rfl⟩
  · rw [runSteps_next (step_slot h.running h.upc hlt hi he hupc), runSteps_zero]
  · rw [hv]
    rfl

/-- Slot 1 (R102). -/
theorem setoutput_slot {s : State} (h : AtSlot 1 s) {v0 v1 v2 : Word}
    (hv0 : v0 = readFsel s (regIndex s.pin))
    (hv1 : v1 = v0 &&& ~~~fselMask s.pin) (hv2 : v2 = v1 ||| fselOut s.pin) :
    ∃ t, Handshakes 1 s t [.busRead (regIndex s.pin) v0, .busWrite (regIndex s.pin) v1,
        .busRead (regIndex s.pin) v1, .busWrite (regIndex s.pin) v2] ∧
      readFsel t (regIndex s.pin) = v2 := by
  subst hv0 hv1 hv2
  have he := exec_setoutput_ready h.ready h.pin
  have hword := readFsel_afterModify_afterModify (s := s) h.pin (fun v => v &&& ~~~fselMask s.pin)
    (fun v => v ||| fselOut s.pin) (regIndex s.pin)
  rw [if_pos rfl] at hword
  rw [afterModify_afterModify s h.pin] at he hword
  obtain ⟨t, ht, hfsel⟩ := slot_handshakes h (by decide) rfl he rfl
  exact ⟨t, ht, (readFsel_congr hfsel _).trans hword⟩

/-- Slots 2 to 5: high for 500 ms, low for 20 ms (R79). -/
theorem pulse_slots {s : State} (h : AtSlot 2 s) :
    ∃ t, Handshakes 4 s t [.busWrite setOff (pinBit s.pin), .sleep 500,
        .busWrite clrOff (pinBit s.pin), .busyWait 20] ∧ t.fsel = s.fsel := by
  obtain ⟨t2, h2, hf2⟩ := slot_handshakes h (by decide) rfl (exec_sethigh_ready h.ready h.pin) rfl
  have a3 := h.after h2
  obtain ⟨t3, h3, hf3⟩ := slot_handshakes a3 (by decide) rfl (i := .sleepc tHighMs) rfl rfl
  have a4 := a3.after h3
  obtain ⟨t4, h4, hf4⟩ := slot_handshakes a4 (by decide) rfl (exec_setlow_ready a4.ready a4.pin) rfl
  obtain ⟨t5, h5, hf5⟩ := slot_handshakes (a4.after h4) (by decide) rfl (i := .waitp tLowMs) rfl rfl
  have hrun := ((h2.trans h3).trans h4).trans h5
  rw [h3.pin, h2.pin] at hrun
  exact ⟨t5, hrun, ((hf5.trans hf4).trans hf3).trans hf2⟩

/-- Slots 6 to 8: the pin an input, the settle delay, the priority raised (R79). -/
theorem release_slots {s : State} (h : AtSlot 6 s) :
    ∃ t, Handshakes 3 s t [.busRead (regIndex s.pin) (readFsel s (regIndex s.pin)),
      .busWrite (regIndex s.pin) (readFsel s (regIndex s.pin) &&& ~~~fselMask s.pin),
      .settle s.params.settleIter, .prioUp] := by
  have he := exec_setinput_ready h.ready h.pin
  rw [afterModify_eq] at he
  obtain ⟨t6, h6, -⟩ := slot_handshakes h (by decide) rfl he rfl
  have a7 := h.after h6
  obtain ⟨t7, h7, -⟩ := slot_handshakes a7 (by decide) rfl (i := .settle) rfl rfl
  obtain ⟨t8, h8, -⟩ := slot_handshakes (a7.after h7) (by decide) rfl (i := .prioup) rfl rfl
  have hrun := (h6.trans h7).trans h8
  rw [h6.params] at hrun
  exact ⟨t8, hrun⟩

/-- Slots 1 to 8 are the handshake of R111. -/
theorem handshake_slots {s : State} (h : AtSlot 1 s) :
    ∃ t, Handshakes 8 s t
      (handshakeEvents s.pin (readFsel s (regIndex s.pin)) s.params.settleIter) := by
  obtain ⟨t1, h1, hword⟩ := setoutput_slot h rfl rfl rfl
  have a2 := h.after h1
  obtain ⟨t5, h5, hfsel⟩ := pulse_slots a2
  obtain ⟨t8, h8⟩ := release_slots (a2.after h5)
  have hrun := (h1.trans h5).trans h8
  rw [h5.pin, h5.params, h1.pin, h1.params, readFsel_congr hfsel, hword] at hrun
  exact ⟨t8, hrun⟩

end Sys2Proof.Machine
end

section
/-! The events of one attempt (spec 42_protocol_sequencer.md R111, R133): the mapping request, the
handshake, the sampling window, the decode stage. -/

namespace Sys2Proof.Machine

open Sys2Proof.Safety

/-! ### A polling slot on a known line -/

/-- The state after the slot of `ph` counted a run of `n` samples. -/
def polled (s : State) (ph : PollPhase) (n : Nat) : State :=
  advanceTo (pollSlot ph + 1) (writeCounter (afterReads s (n + 1)) ph (BitVec.ofNat 32 n))

section Polled

variable {s : State} {ph : PollPhase} {n : Nat}

@[simp] theorem polled_running : (polled s ph n).running = s.running := by simp [polled, advanceTo]

@[simp] theorem polled_wcnt : (polled s ph n).wcnt =
    if pollSlot ph = 9 then BitVec.ofNat 32 n else s.wcnt :=
  wcnt_writeCounter_slot (afterReads s (n + 1)) ph _

@[simp] theorem polled_params : (polled s ph n).params = s.params := by simp [polled, advanceTo]

theorem polled_upc : (polled s ph n).upc.val = pollSlot ph + 1 := by
  have hbounds := pollSlot_bounds ph
  exact upc_succ (by omega)

theorem readCnt_polled (k : Nat) :
    readCnt (polled s ph n) k = if 10 + k = pollSlot ph then BitVec.ofNat 32 n else readCnt s k :=
  readCnt_writeCounter_slot (afterReads s (n + 1)) ph _ k

/-- The slot of `ph` on a line that shows a run of `n` samples, below the ceiling (R126). -/
theorem polled_leads (hI : Inv s) (hr : s.running = true) (hslot : s.upc.val = pollSlot ph)
    (hrun : ∀ k, k < n → levelAt s k = pollLevel ph) (hend : levelAt s n ≠ pollLevel ph)
    (hn : n < s.params.maxCount) :
    Leads 1 s (polled s ph n) ((List.range (n + 1)).map fun k => Event.busRead levOff (levAt s k))
      (n + 1) := by
  have hbounds := pollSlot_bounds ph
  have hzero := counter_zero hI hr hslot
  have he := exec_pollInstr_ends (ready_of_inv hI hr (by omega)) hI.admissible.1 hrun
    (.inr (by omega)) hend
  rw [hzero, Nat.zero_add] at he
  exact .of_step (step_slot hr hslot (by omega) (slotInstr_poll s.pin ph) he (by simp))
    (by simp [polled, advanceTo, afterReads]) (by simp [polled, advanceTo])
    (by simp [polled, advanceTo]) (by simp [polled, advanceTo])

/-- The slot of `ph` on a line that shows no end of its run below the ceiling (R129). -/
theorem timedOut_leads (hI : Inv s) (hr : s.running = true) (hslot : s.upc.val = pollSlot ph)
    (hrun : ∀ k, k < s.params.maxCount → levelAt s k = pollLevel ph) :
    Leads 1 s (timedOut s ph)
      (((List.range s.params.maxCount).map fun k => Event.busRead levOff (levAt s k)) ++
        [.prioDown, .result none]) s.params.maxCount := by
  have hbounds := pollSlot_bounds ph
  have hraised := (prio_realTime_iff_slot hI hr).mpr (by omega)
  exact .of_step (step_timedOut hI hr hslot hrun)
    (by rw [timedOut_trace hraised, List.append_assoc]; rfl)
    (by simp [timedOut]) (by simp [timedOut]) (by simp [timedOut])

/-- Every line either ends the run of the slot below the ceiling or shows it up to the ceiling. -/
theorem run_ends_or_not (s : State) (ph : PollPhase) :
    (∃ n, n < s.params.maxCount ∧ (∀ k, k < n → levelAt s k = pollLevel ph) ∧
      levelAt s n ≠ pollLevel ph) ∨
    ∀ k, k < s.params.maxCount → levelAt s k = pollLevel ph := by
  by_cases hex : ∃ n, n < s.params.maxCount ∧ levelAt s n ≠ pollLevel ph
  · obtain ⟨hlt, hne⟩ := Nat.find_spec hex
    refine .inl ⟨Nat.find hex, hlt, fun k hk => ?_, hne⟩
    by_contra hk'
    exact Nat.find_min hex hk ⟨hk.trans hlt, hk'⟩
  · refine .inr fun k hk => ?_
    by_contra hk'
    exact hex ⟨k, hk, hk'⟩

end Polled

/-! ### From the sampling window to the end -/

/-- Slot 92 (R124). -/
def afterPriodn (s : State) : State := advanceTo 93 (lowerPrio s)

theorem step_priodn {s : State} (hr : s.running = true) (hu : s.upc.val = 92) :
    step s = .next (afterPriodn s) :=
  step_slot hr hu (by decide) rfl rfl rfl

/-- The end of the decode stage with a class that is not raised: `Result` and no other event. -/
theorem decode_stage_leads {s : State} (hr : s.running = true) (hu : s.upc.val = 93)
    (hprio : s.prio = .default) :
    ∃ t, Leads 3 s t [.result t.res] 0 ∧ t.running = false ∧ t.upc.val = 96 := by
  have hrun := run_decode_stage hr hu
  by_cases hv : frameValid (afterDecbits (afterThresh s)) = true
  · rw [if_pos hv] at hrun
    exact ⟨_, ⟨hrun, rfl, rfl, rfl, rfl⟩, rfl, rfl⟩
  · rw [if_neg hv] at hrun
    have hkept : (afterDecbits (afterThresh s)).prio = .default := hprio
    refine ⟨_, ⟨hrun, ?_, ?_, ?_, ?_⟩, rfl, rfl⟩
    · rw [attemptEnd_trace, raiseError_trace, hkept, if_neg (by decide)]
      rfl
    · rw [attemptEnd_calls, raiseError_calls]
      rfl
    · rw [attemptEnd_line, raiseError_line]
      rfl
    · rw [attemptEnd_lineReads, raiseError_lineReads]
      rfl

/-- `t` is the end of the attempt at `s`, reached in `k` steps after `reads` from the register block,
`PrioDown` and `Result`. -/
structure SamplingEnds (k : Nat) (s t : State) (reads : List Word) : Prop where
  leads : Leads k s t ((reads.map fun v => Event.busRead 13 v) ++ [.prioDown, .result t.res])
    reads.length
  running : t.running = false
  upc : t.upc.val = 96

/-- From slot 92 on no sample is read. -/
theorem last_slots {s : State} (hr : s.running = true) (hu : s.upc.val = 92) :
    ∃ t, SamplingEnds 4 s t [] := by
  obtain ⟨t, ht, htr, htu⟩ := decode_stage_leads (s := afterPriodn s) hr rfl rfl
  have hfirst : Leads 1 s (afterPriodn s) [.prioDown] 0 :=
    .of_step (step_priodn hr hu) rfl rfl rfl rfl
  exact ⟨t, hfirst.trans ht, htr, htu⟩

theorem SamplingEnds.of_polled {k n : Nat} {s u t : State} {reads : List Word}
    (h : Leads 1 s u ((List.range (n + 1)).map fun k => Event.busRead levOff (levAt s k)) (n + 1))
    (h' : SamplingEnds k u t reads) :
    SamplingEnds (1 + k) s t ((List.range (n + 1)).map (levAt s) ++ reads) where
  leads := by
    have hall := h.trans h'.leads
    simpa [levOff, Function.comp_def] using hall
  running := h'.running
  upc := h'.upc

theorem samplingEnds_timedOut {s : State} {ph : PollPhase} (hI : Inv s) (hr : s.running = true)
    (hslot : s.upc.val = pollSlot ph) (hrun : ∀ k, k < s.params.maxCount → levelAt s k = pollLevel ph) :
    SamplingEnds 1 s (timedOut s ph) ((List.range s.params.maxCount).map (levAt s)) where
  leads := by
    have hres : (timedOut s ph).res = none := rfl
    simpa [levOff, hres, Function.comp_def] using timedOut_leads hI hr hslot hrun
  running := rfl
  upc := rfl

/-- From slot 9 on: one step for each slot and at most `MAXCOUNT` reads for each polling slot. -/
theorem sampling_ends {s : State} (hI : Inv s) (hr : s.running = true) (h9 : 9 ≤ s.upc.val)
    (h92 : s.upc.val ≤ 92) :
    ∃ k t reads, k ≤ 96 - s.upc.val ∧ SamplingEnds k s t reads ∧
      reads.length ≤ (92 - s.upc.val) * s.params.maxCount := by
  generalize hm : 92 - s.upc.val = m
  induction m generalizing s with
  | zero =>
    obtain ⟨t, ht⟩ := last_slots hr (by omega)
    exact ⟨4, t, [], by omega, ht, by simp⟩
  | succ m ih =>
    obtain ⟨ph, hslot⟩ := exists_pollSlot h9 (by omega)
    obtain ⟨n, hn, hrun, hend⟩ | hrun := run_ends_or_not s ph
    · have hfirst := polled_leads hI hr hslot.symm hrun hend hn
      have hupc : (polled s ph n).upc.val = s.upc.val + 1 := by rw [polled_upc, hslot]
      obtain ⟨k, t, reads, hk, ht, hlen⟩ :=
        ih (inv_runSteps hI hfirst.run) (by rw [polled_running, hr]) (by omega) (by omega) (by omega)
      refine ⟨1 + k, t, _, by omega, ht.of_polled hfirst, ?_⟩
      rw [polled_params] at hlen
      rw [List.length_append, List.length_map, List.length_range, Nat.succ_mul]
      omega
    · refine ⟨1, _, _, by omega, samplingEnds_timedOut hI hr hslot.symm hrun, ?_⟩
      rw [List.length_map, List.length_range, Nat.succ_mul]
      omega

/-! ### The whole attempt -/

/-- The mapping request and its answer, if no map is present (R90). -/
def mapEvents (s : State) : List Event :=
  if s.mapped = true then [] else [.mapReq, .mapResp (mapperResponse (nextMapper s))]

theorem ensureMapped_denied {s : State} (hm : s.mapped = false)
    (hresp : mapperResponse (nextMapper s) ≠ .ok) :
    ∃ e, ensureMapped s = raiseError e none (askMapper s) := by
  cases h : mapperResponse (nextMapper s) with
  | ok => exact absurd h hresp
  | deviceOpenError => exact ⟨_, ensureMapped_deviceOpenError hm h⟩
  | mappingError => exact ⟨_, ensureMapped_mappingError hm h⟩

section Slot0

variable {s : State} (hI : Inv s) (hr : s.running = true) (hu : s.upc.val = 0)
include hI hr hu

/-- A map present or granted lets the attempt go on. -/
theorem mapped_slot (hmap : s.mapped = true ∨ mapperResponse (nextMapper s) = .ok) :
    ∃ t, Leads 1 s t (mapEvents s) 0 ∧ AtSlot 1 t ∧ t.fsel = s.fsel := by
  have hslot (v : State) (he : ensureMapped s = v) (hv : v.upc = s.upc) :
      step s = .next (advanceTo 1 v) :=
    step_slot hr hu (by decide) rfl (by rw [exec_ensuremapped, he]) hv
  obtain ⟨hp, -, -, -, hsize⟩ := hI.admissible
  by_cases hm : s.mapped = true
  · refine ⟨advanceTo 1 s, .of_step (hslot s (ensureMapped_keeps_map hm) rfl) ?_ rfl rfl rfl,
      ⟨hr, rfl, ⟨hm, hsize⟩, hp⟩, rfl⟩
    rw [mapEvents, if_pos hm]
    exact (List.append_nil _).symm
  · have hgranted := ensureMapped_granted (by simpa using hm) (hmap.resolve_left hm)
    refine ⟨_, .of_step (hslot _ hgranted rfl) ?_ rfl rfl rfl, ⟨hr, rfl, ⟨rfl, hsize⟩, hp⟩, rfl⟩
    rw [mapEvents, if_neg hm]
    exact congrArg State.trace (askMapper_eq s)

/-- A failed request ends the attempt (R92). -/
theorem unmapped_slot (hmap : ¬(s.mapped = true ∨ mapperResponse (nextMapper s) = .ok)) :
    ∃ t, Leads 1 s t (mapEvents s ++ [.result t.res]) 0 ∧ t.running = false ∧ t.upc.val = 96 := by
  obtain ⟨hm, hresp⟩ := not_or.mp hmap
  have hprio : s.prio ≠ .realTime := by
    rw [Ne, prio_realTime_iff_slot hI hr]
    omega
  obtain ⟨e, he⟩ := ensureMapped_denied (by simpa using hm) hresp
  refine ⟨attemptEnd (raiseError e none (askMapper s)), .of_step ?_ ?_ ?_ ?_ ?_, rfl, rfl⟩
  · rw [step_of_slot hr (by rw [hu]; rfl) (exec_ensuremapped s), he, afterSlot_error rfl]
  · rw [mapEvents, if_neg hm, attemptEnd_trace, raiseError_trace, askMapper_prio, if_neg hprio]
    simp
  · simp
  · simp
  · simp

/-- The run from slot 0 to slot 9 with a map present or granted: the mapping, then the handshake. -/
theorem leads_to_sampling (hmap : s.mapped = true ∨ mapperResponse (nextMapper s) = .ok) :
    ∃ t, Leads 9 s t
        (mapEvents s ++ handshakeEvents s.pin (readFsel s (regIndex s.pin)) s.params.settleIter) 0 ∧
      AtSlot 9 t := by
  obtain ⟨t1, h1, a1, hfsel⟩ := mapped_slot hI hr hu hmap
  obtain ⟨t9, h9⟩ := handshake_slots a1
  have hkept := persists_runSteps h1.run
  have hall := h1.trans h9.leads
  rw [hkept.pin, hkept.params, readFsel_congr hfsel] at hall
  exact ⟨t9, hall, a1.after h9⟩

/-- The events of an attempt from its first slot, in their order (R111). -/
theorem attempt_events :
    ∃ (k : Nat) (t : State) (reads : List Word), k ≤ 96 ∧
      Leads k s t (mapEvents s ++
        (if s.mapped = true ∨ mapperResponse (nextMapper s) = .ok then
          handshakeEvents s.pin (readFsel s (regIndex s.pin)) s.params.settleIter ++
            (reads.map fun v => Event.busRead 13 v) ++ [.prioDown]
         else []) ++ [.result t.res]) reads.length ∧
      t.running = false ∧ t.upc.val = 96 ∧ reads.length ≤ 83 * s.params.maxCount := by
  by_cases hmap : s.mapped = true ∨ mapperResponse (nextMapper s) = .ok
  · obtain ⟨t9, h9, a9⟩ := leads_to_sampling hI hr hu hmap
    obtain ⟨k, t, reads, hk, ht, hlen⟩ := sampling_ends (inv_runSteps hI h9.run) a9.running
      (by rw [a9.upc]) (by rw [a9.upc]; decide)
    rw [a9.upc] at hk hlen
    rw [(persists_runSteps h9.run).params] at hlen
    refine ⟨9 + k, t, reads, by omega, ?_, ht.running, ht.upc, hlen⟩
    have hall := h9.trans ht.leads
    rw [if_pos hmap]
    simpa using hall
  · obtain ⟨t, ht, htr, htu⟩ := unmapped_slot hI hr hu hmap
    refine ⟨1, t, [], by decide, ?_, htr, htu, Nat.zero_le _⟩
    rw [if_neg hmap, List.append_nil]
    exact ht

end Slot0

/-- The acceptance of `READDATA` at rest in public use (R113, R131). -/
theorem step_readdata {s : State} {rest : List OpWord} (hI : Inv s) (hr : s.running = false)
    (hc : s.calls = encode .readdata :: rest) :
    step s = .next (attemptStart { s with calls := rest }) := by
  obtain ⟨hnil, -⟩ | ⟨rest', hc', hstep⟩ := rest_step hI hr
  · cases hc.symm.trans hnil
  · cases hc.symm.trans hc'
    exact hstep

/-- Settles O50: `READDATA`, then the events of the slots. -/
theorem eventsOfOneAttempt : Obligations.EventsOfOneAttempt := by
  unfold Obligations.EventsOfOneAttempt
  intro s rest hI hr hc
  have hstart := step_readdata hI hr hc
  obtain ⟨k, t, reads, hk, h, htr, htu, hlen⟩ :=
    attempt_events (stepKeepsInvariant _ _ hI hstart) rfl rfl
  have htrace := h.trace
  rw [← List.append_assoc, ← List.append_assoc] at htrace
  exact ⟨k + 1, t, reads, by omega, by rw [runSteps_next hstart, h.run], htr, htu, h.calls,
    htrace, h.lineReads, hlen⟩

end Sys2Proof.Machine
end

section
/-! From the runs on the line to the counts (spec 42_protocol_sequencer.md R126, R132): each polling slot
counts its run and reads the first sample of the next one. -/

namespace Sys2Proof.Machine

open Sys2Proof.Safety

/-! ### The samples a line shows -/

/-- The coming level samples begin with `l`. -/
def Shows (s : State) (l : List Bool) : Prop :=
  ∀ (k : Nat) (b : Bool), l[k]? = some b → levelAt s k = b

theorem Shows.after {k n : Nat} {s t : State} {es : List Event} {l l' : List Bool}
    (h : Shows s (l ++ l')) (ht : Leads k s t es n) (hn : l.length = n) : Shows t l' := by
  intro j b hj
  rw [ht.levelAt_eq, ← hn]
  exact h _ b (by rw [List.getElem?_append_right (Nat.le_add_right _ _), Nat.add_sub_cancel_left, hj])

/-- The samples of a run and the one that ends it. -/
theorem Shows.run {s : State} {n : Nat} {level : Bool} {l : List Bool}
    (h : Shows s (List.replicate n level ++ [!level] ++ l)) :
    (∀ k, k < n → levelAt s k = level) ∧ levelAt s n ≠ level := by
  rw [List.append_assoc] at h
  refine ⟨fun k hk => h k level ?_, ?_⟩
  · rw [List.getElem?_append_left (by simpa using hk), List.getElem?_replicate_of_lt hk]
  · rw [h n (!level) (by simp)]
    simp

/-! ### The samples of the pulses -/

/-- The samples of the pulses after the first low one: each run is entered by the read that ended the run
before, so a run of `n` samples is counted as `n - 1`. -/
def pulseSamples (runs : List (Nat × Nat)) : List Bool :=
  match runs with
  | [] => []
  | (low, high) :: rest =>
    List.replicate (low - 1) false ++ [true] ++
      (List.replicate (high - 1) true ++ [false] ++ pulseSamples rest)

/-- Every run of the sample is there and ends below the ceiling. -/
def RunsFit (c : Params) (runs : List (Nat × Nat)) : Prop :=
  ∀ bc ∈ runs, 1 ≤ bc.1 ∧ bc.1 ≤ c.maxCount ∧ 1 ≤ bc.2 ∧ bc.2 ≤ c.maxCount

theorem runLevels_eq (a : Nat) {runs : List (Nat × Nat)} {c : Params} (h : RunsFit c runs) :
    runLevels a runs = List.replicate a true ++ [false] ++ pulseSamples runs := by
  have hpulses : (runs.flatMap fun bc => List.replicate bc.1 false ++ List.replicate bc.2 true) ++
      [false] = false :: pulseSamples runs := by
    induction runs with
    | nil => rfl
    | cons bc rest ih =>
      obtain ⟨low, high⟩ := bc
      obtain ⟨⟨hlow, -, hhigh, -⟩, hrest⟩ := List.forall_mem_cons.mp h
      obtain ⟨low, rfl⟩ := Nat.exists_eq_add_of_le' hlow
      obtain ⟨high, rfl⟩ := Nat.exists_eq_add_of_le' hhigh
      rw [List.flatMap_cons, List.append_assoc, ih hrest]
      simp [pulseSamples, List.replicate_succ]
  rw [runLevels, List.append_assoc, hpulses, List.append_assoc]
  rfl

/-! ### A polling slot, a pulse, all pulses -/

/-- A polling slot counts its run. -/
theorem shows_polled {s : State} {ph : PollPhase} {n : Nat} {l : List Bool} (hI : Inv s)
    (hr : s.running = true) (hslot : s.upc.val = pollSlot ph) (hn : n < s.params.maxCount)
    (h : Shows s (List.replicate n (pollLevel ph) ++ [!pollLevel ph] ++ l)) :
    (∃ es, Leads 1 s (polled s ph n) es (n + 1)) ∧ Shows (polled s ph n) l := by
  obtain ⟨hrun, hend⟩ := h.run
  have hleads := polled_leads hI hr hslot hrun hend hn
  exact ⟨⟨_, hleads⟩, h.after hleads (by simp)⟩

/-- The attempt at slot `10 + 2 * i` goes on to `t` with the counts of the pulses `runs`, the first of
them pulse `i`, and the counters of the slots before as they were. -/
structure PulsesCounted (s t : State) (i : Nat) (runs : List (Nat × Nat)) : Prop where
  leads : ∃ es, Leads (2 * runs.length) s t es (runs.map fun bc => bc.1 + bc.2).sum
  running : t.running = true
  upc : t.upc.val = 10 + 2 * (i + runs.length)
  response : t.wcnt = s.wcnt
  kept : ∀ k, k < 2 * i → readCnt t k = readCnt s k
  counted : ∀ (j : Nat) (bc : Nat × Nat), runs[j]? = some bc →
    (readCnt t (2 * (i + j))).toNat = bc.1 - 1 ∧ (readCnt t (2 * (i + j) + 1)).toNat = bc.2 - 1

/-- The two slots of one pulse. -/
theorem pulse_counted {s : State} {i : Fin 41} {low high : Nat} {l : List Bool} (hI : Inv s)
    (hr : s.running = true) (hu : s.upc.val = 10 + 2 * i.val) (hfit : RunsFit s.params [(low, high)])
    (h : Shows s (List.replicate (low - 1) false ++ [true] ++
      (List.replicate (high - 1) true ++ [false] ++ l))) :
    ∃ t, PulsesCounted s t i.val [(low, high)] ∧ Shows t l := by
  obtain ⟨hlow, hlowmax, hhigh, hhighmax⟩ := hfit _ (List.mem_singleton.mpr rfl)
  obtain ⟨⟨es, h1⟩, hl⟩ := shows_polled (ph := .sampleLow i) hI hr hu (by omega) h
  have hu2 : (polled s (.sampleLow i) (low - 1)).upc.val = pollSlot (.sampleHigh i) := by
    rw [polled_upc]
    simp only [pollSlot]
    omega
  obtain ⟨⟨es', h2⟩, hl'⟩ := shows_polled (ph := .sampleHigh i) (inv_runSteps hI h1.run)
    (polled_running.trans hr) hu2 (by rw [polled_params]; omega) hl
  refine ⟨_, ⟨⟨es ++ es', ?_⟩, by simp [hr], ?_, ?_, fun k hk => ?_, ?_⟩, hl'⟩
  · have hboth := h1.trans h2
    have hsum : low - 1 + 1 + (high - 1 + 1) = ([(low, high)].map fun bc => bc.1 + bc.2).sum := by
      simp
      omega
    rw [hsum] at hboth
    exact hboth
  · rw [polled_upc]
    simp only [pollSlot, List.length_singleton]
    omega
  · rw [polled_wcnt, polled_wcnt, if_neg (by simp only [pollSlot]; omega),
      if_neg (by simp only [pollSlot]; omega)]
  · rw [readCnt_polled, readCnt_polled, if_neg (by simp only [pollSlot]; omega),
      if_neg (by simp only [pollSlot]; omega)]
  · intro j bc hj
    obtain ⟨rfl, rfl⟩ : j = 0 ∧ bc = (low, high) := by
      cases j with
      | zero => simpa using hj.symm
      | succ j => simp at hj
    have hlowcount := toNat_ofNat_count hI (n := low - 1) (by omega)
    have hhighcount := toNat_ofNat_count hI (n := high - 1) (by omega)
    constructor
    · rw [readCnt_polled, readCnt_polled, if_neg (by simp only [pollSlot]; omega),
        if_pos (by simp only [pollSlot]; omega), hlowcount]
    · rw [readCnt_polled, if_pos (by simp only [pollSlot]; omega), hhighcount]

theorem PulsesCounted.trans {s t u : State} {i : Nat} {bc : Nat × Nat} {runs : List (Nat × Nat)}
    (h : PulsesCounted s t i [bc]) (h' : PulsesCounted t u (i + 1) runs) :
    PulsesCounted s u i (bc :: runs) where
  leads := by
    obtain ⟨es, hes⟩ := h.leads
    obtain ⟨es', hes'⟩ := h'.leads
    have hboth := hes.trans hes'
    simp only [List.map_cons, List.map_nil, List.sum_cons, List.sum_nil, Nat.add_zero,
      List.length_singleton, ← Nat.mul_add, Nat.add_comm 1] at hboth
    exact ⟨_, hboth⟩
  running := h'.running
  upc := by rw [h'.upc, List.length_cons]; omega
  response := h'.response.trans h.response
  kept k hk := (h'.kept k (by omega)).trans (h.kept k hk)
  counted j bc' hj := by
    cases j with
    | zero =>
      obtain rfl : bc = bc' := by simpa using hj
      obtain ⟨hlow, hhigh⟩ := h.counted 0 bc rfl
      rw [h'.kept _ (by omega), h'.kept _ (by omega)]
      exact ⟨hlow, hhigh⟩
    | succ j =>
      have hnext := h'.counted j bc' (by simpa using hj)
      rwa [Nat.add_assoc, Nat.add_comm 1] at hnext

theorem pulses_counted {runs : List (Nat × Nat)} {s : State} {i : Nat} (hI : Inv s)
    (hr : s.running = true) (hu : s.upc.val = 10 + 2 * i) (hi : i + runs.length = 41)
    (hfit : RunsFit s.params runs) (h : Shows s (pulseSamples runs)) :
    ∃ t, PulsesCounted s t i runs := by
  induction runs generalizing s i with
  | nil =>
    exact ⟨s, ⟨[], rfl, by simp, rfl, rfl, rfl⟩, hr, by simpa using hu, rfl, fun _ _ => rfl, by simp⟩
  | cons bc rest ih =>
    rw [List.length_cons] at hi
    obtain ⟨hbc, hrest⟩ := List.forall_mem_cons.mp hfit
    obtain ⟨t, ht, hl⟩ := pulse_counted (i := ⟨i, by omega⟩) hI hr hu (by simpa [RunsFit] using hbc) h
    obtain ⟨es, hes⟩ := ht.leads
    obtain ⟨u, hu⟩ := ih (i := i + 1) (inv_runSteps hI hes.run) ht.running
      (by rw [ht.upc, List.length_singleton]) (by omega)
      (by rw [(persists_runSteps hes.run).params]; exact hrest) hl
    exact ⟨u, ht.trans hu⟩

/-- The sampling window on a line that shows a preamble of `a` samples and 41 pulses. -/
theorem sample_counted {s : State} {a : Nat} {runs : List (Nat × Nat)} (hI : Inv s)
    (hr : s.running = true) (hu : s.upc.val = 9) (hlen : runs.length = 41)
    (ha : a + 1 ≤ s.params.maxCount) (hfit : RunsFit s.params runs) (h : Shows s (runLevels a runs)) :
    ∃ t es, Leads 83 s t es (a + 1 + (runs.map fun bc => bc.1 + bc.2).sum) ∧ t.running = true ∧
      t.upc.val = 92 ∧ t.wcnt.toNat = a ∧
      ∀ (i : Nat) (bc : Nat × Nat), runs[i]? = some bc →
        (readCnt t (2 * i)).toNat = bc.1 - 1 ∧ (readCnt t (2 * i + 1)).toNat = bc.2 - 1 := by
  rw [runLevels_eq a hfit] at h
  obtain ⟨⟨es, h9⟩, hl⟩ := shows_polled (ph := .waitResponse) hI hr hu (by omega) h
  obtain ⟨t, ht⟩ := pulses_counted (i := 0) (inv_runSteps hI h9.run) (polled_running.trans hr)
    polled_upc (by omega) (by rw [polled_params]; exact hfit) hl
  obtain ⟨es', hes'⟩ := ht.leads
  refine ⟨t, es ++ es', ?_, ht.running, ?_, ?_, fun i bc hi => ?_⟩
  · have hboth := h9.trans hes'
    rwa [hlen] at hboth
  · rw [ht.upc, hlen]
  · rw [ht.response, polled_wcnt, if_pos (show pollSlot .waitResponse = 9 from rfl),
      toNat_ofNat_count hI (by omega)]
  · simpa using ht.counted i bc hi

/-- Settles O51: the counts are the runs of the line, each short of the sample that ended it. -/
theorem runsBecomeCounts : Obligations.RunsBecomeCounts := by
  unfold Obligations.RunsBecomeCounts
  intro s a runs hI hr hu hlen ha hfit h
  obtain ⟨t, es, ht, htr, htu, hwcnt, hcounts⟩ := sample_counted hI hr hu hlen ha hfit h
  exact ⟨t, ht.run, htr, htu, hwcnt, hcounts, by rw [ht.lineReads]; omega⟩

end Sys2Proof.Machine
end

section
/-! The decode stage on its counts (spec 43_decode_checksum.md R141 to R145, R150): the threshold as a
mean, the place of each bit, and a two-valued sample decoded as it was sent. -/

namespace Sys2Proof.Machine

open Sys2Proof.Safety

/-! ### The threshold (R141) -/

theorem sum_map_le {α : Type} {f : α → Nat} {b : Nat} {l : List α} (h : ∀ a ∈ l, f a ≤ b) :
    (l.map f).sum ≤ l.length * b := by
  simpa using List.sum_le_card_nsmul (l.map f) b (by simpa using h)

/-- The mean of 39 counts fits the threshold register, for all counts (log 11). -/
theorem afterThresh_thr (s : State) : (afterThresh s).thr.toNat = thresholdSum s / 39 := by
  have hsum : thresholdSum s ≤ 39 * (2 ^ 32 - 1) := by
    refine (sum_map_le fun i _ => Nat.le_sub_one_of_lt (highCount s i).isLt).trans ?_
    rw [List.length_range']
    exact le_rfl
  show (BitVec.ofNat 32 (thresholdSum s / 39)).toNat = _
  rw [BitVec.toNat_ofNat]
  omega

/-- A sum of `short` and `long`: as many differences above all-short as there are `long`. -/
theorem sum_map_ite {α : Type} (p : α → Bool) {short long : Nat} (h : short ≤ long) (l : List α) :
    (l.map fun a => if p a then long else short).sum =
      l.length * short + l.countP p * (long - short) := by
  obtain ⟨d, rfl⟩ := Nat.exists_eq_add_of_le h
  induction l with
  | nil => simp
  | cons a l ih =>
    rw [List.map_cons, List.sum_cons, ih, List.countP_cons, List.length_cons]
    cases p a <;> simp <;> ring

theorem thresholdSum_twoValued {s : State} {d : Vector Byte 5} {short long : Nat}
    (h : TwoValued s d short long) (hlt : short ≤ long) :
    thresholdSum s = 39 * short + longPulses d * (long - short) := by
  have hcounts : (List.range' thrFirst thrN).map (fun i => (highCount s i).toNat) =
      (List.range' 2 39).map fun i => if frameBit d (i - 1) then long else short := by
    refine List.map_congr_left fun i hi => ?_
    obtain ⟨hlow, hhigh⟩ := List.mem_range'_1.mp hi
    simp only [thrFirst, thrN] at hlow hhigh
    exact h i (by omega) (by omega)
  rw [thresholdSum, hcounts, sum_map_ite _ hlt, List.length_range']
  rfl

/-! ### The bits (R142, R143) -/

/-- `DECBITS` after its first `n` pulses. -/
def decodedPulses (s : State) (n : Nat) : Vector Byte 5 :=
  (List.range' decFirst n).foldl (decodePulse s) s.dat

theorem decodedPulses_succ (s : State) (n : Nat) :
    decodedPulses s (n + 1) = decodePulse s (decodedPulses s n) (n + 1) := by
  rw [decodedPulses, List.range'_concat, List.foldl_append]
  simp [decodedPulses, decFirst, Nat.add_comm]

/-- Shifting a byte left and setting its low bit or not. -/
theorem shift_bit (x : Byte) (b : Bool) {m : Nat} (hm : m < 8) :
    (if b then x <<< 1 ||| 1 else x <<< 1 : Byte).getLsbD m =
      if m = 0 then b else x.getLsbD (m - 1) := by
  have hshift : (x <<< 1).getLsbD m = (!decide (m = 0) && x.getLsbD (m - 1)) := by
    rw [BitVec.getLsbD_shiftLeft]
    simp [hm]
  have hone : (1 : Byte).getLsbD m = decide (m = 0) := by
    rw [BitVec.ofNat_eq_ofNat, BitVec.getLsbD_one]
    simp
  cases b
  · simp only [Bool.false_eq_true, if_false, hshift]
    by_cases h0 : m = 0 <;> simp [h0]
  · simp only [if_true, BitVec.getLsbD_or, hshift, hone]
    by_cases h0 : m = 0 <;> simp [h0]

/-- One pulse shifts its byte and puts its bit in the lowest place. -/
theorem decodePulse_bit (s : State) (dat : Vector Byte 5) {i : Nat} (hi : (i - 1) / 8 < 5) (j m : Nat)
    (hm : m < 8) :
    ((decodePulse s dat i)[j]?.getD 0).getLsbD m =
      if j = (i - 1) / 8 then
        if m = 0 then bitOfCount s.thr (highCount s i) else (dat[j]?.getD 0).getLsbD (m - 1)
      else (dat[j]?.getD 0).getLsbD m := by
  unfold decodePulse
  by_cases hj : j = (i - 1) / 8
  · subst hj
    rw [if_pos rfl]
    simp only [Vector.getElem?_setIfInBounds, hi, if_true, Option.getD_some]
    exact shift_bit _ _ hm
  · have hj' : (i - 1) / 8 ≠ j := fun e => hj e.symm
    simp [hj, hj']

/-- After `n` pulses the bit of pulse `i` has been shifted once for every later pulse of its byte. -/
theorem decodedPulses_bit (s : State) {n : Nat} (hn : n ≤ 40) {i : Nat} (h1 : 1 ≤ i) (hi : i ≤ n) :
    ((decodedPulses s n)[(i - 1) / 8]?.getD 0).getLsbD (min n (8 * ((i - 1) / 8) + 8) - i) =
      bitOfCount s.thr (highCount s i) := by
  induction n with
  | zero => omega
  | succ n ih =>
    rw [decodedPulses_succ, decodePulse_bit s _ (by omega) _ _ (by omega)]
    by_cases hlast : i = n + 1
    · rw [if_pos (by rw [hlast]), if_pos (by omega), hlast]
    · have hprev := ih (by omega) (by omega)
      by_cases hbyte : (i - 1) / 8 = (n + 1 - 1) / 8
      · rw [if_pos hbyte, if_neg (by omega)]
        convert hprev using 2
        omega
      · rw [if_neg hbyte]
        convert hprev using 2
        omega

/-- The bit of pulse `i` in the frame (R143). -/
theorem afterDecbits_bit (s : State) {i : Nat} (h1 : 1 ≤ i) (h40 : i ≤ 40) :
    (readDat (afterDecbits s) ((i - 1) / 8)).getLsbD (7 - (i - 1) % 8) =
      bitOfCount s.thr (highCount s i) := by
  have hbit := decodedPulses_bit s le_rfl h1 h40
  have hplace : min 40 (8 * ((i - 1) / 8) + 8) - i = 7 - (i - 1) % 8 := by omega
  rw [hplace] at hbit
  exact hbit

/-! ### A two-valued sample (R150) -/

section TwoValued

variable {s : State} {d : Vector Byte 5} {short long : Nat} (h : TwoValued s d short long)
  (hlt : short < long) (hsep : 39 ≤ longPulses d * (long - short))
include h hlt hsep

/-- Far enough apart for the threshold, the two counts have it between them. -/
theorem thr_between : short < (afterThresh s).thr.toNat ∧ (afterThresh s).thr.toNat ≤ long := by
  have hfew : longPulses d ≤ 39 := by
    rw [longPulses]
    exact List.countP_le_length.trans (by rw [List.length_range'])
  have hmost : longPulses d * (long - short) ≤ 39 * (long - short) := Nat.mul_le_mul_right _ hfew
  rw [afterThresh_thr, thresholdSum_twoValued h hlt.le]
  omega

/-- Each pulse then decodes as it was sent. -/
theorem bitOfCount_twoValued {i : Nat} (h1 : 1 ≤ i) (h40 : i ≤ 40) :
    bitOfCount (afterThresh s).thr (highCount s i) = frameBit d (i - 1) := by
  obtain ⟨hshort, hlong⟩ := thr_between h hlt hsep
  have hcount := h i h1 h40
  simp only [bitOfCount, BitVec.le_def, hcount]
  cases frameBit d (i - 1) with
  | false => simpa using hshort
  | true => simpa using hlong

/-- So the decode stage gives the frame. -/
theorem readDat_twoValued {j : Nat} (hj : j < 5) :
    readDat (afterDecbits (afterThresh s)) j = d[j]?.getD 0 := by
  apply BitVec.eq_of_getLsbD_eq
  intro m hm
  have hbit := afterDecbits_bit (afterThresh s) (i := 8 * j + (7 - m) + 1) (by omega) (by omega)
  have hsent := bitOfCount_twoValued h hlt hsep (i := 8 * j + (7 - m) + 1) (by omega) (by omega)
  have hbyte : (8 * j + (7 - m) + 1 - 1) / 8 = j := by omega
  have hplace : 7 - (8 * j + (7 - m) + 1 - 1) % 8 = m := by omega
  have hcount : highCount (afterThresh s) = highCount s := rfl
  rw [hcount, hsent, frameBit, hbyte, hplace] at hbit
  exact hbit

end TwoValued

/-- The checksum of a frame is that of the register that holds it. -/
theorem frameValid_of_frame {s : State} {d : Vector Byte 5}
    (h : ∀ j, j < 5 → readDat s j = d[j]?.getD 0) : frameValid s = validFrame d := by
  rw [frameValid, frameSum, h 0 (by decide), h 1 (by decide), h 2 (by decide), h 3 (by decide),
    h 4 (by decide)]
  rfl

/-- Slots 93 to 95 on a two-valued sample of a valid frame. -/
theorem decode_twoValued {s : State} {d : Vector Byte 5} {short long : Nat} (hr : s.running = true)
    (hu : s.upc.val = 93) (h : TwoValued s d short long) (hlt : short < long)
    (hsep : 39 ≤ longPulses d * (long - short)) (hvalid : validFrame d = true) :
    ∃ t, runSteps 3 s = .next t ∧ t.running = false ∧ t.pc = .done ∧ t.prio = s.prio ∧
      (∀ j : Nat, j < 5 → readDat t j = d[j]?.getD 0) ∧
      t.res = some { humidity := f32OfByte (d[0]?.getD 0), temperature := f32OfByte (d[2]?.getD 0) } ∧
      t.trace.getLast? = some (.result t.res) := by
  have hframe (j : Nat) (hj : j < 5) := readDat_twoValued h hlt hsep hj
  have hrun := run_decode_stage hr hu
  rw [frameValid_of_frame hframe, if_pos hvalid] at hrun
  refine ⟨_, hrun, rfl, rfl, rfl, hframe, ?_, ?_⟩
  · rw [attemptEnd_res, readingOf, hframe 0 (by decide), hframe 2 (by decide)]
  · simp

end Sys2Proof.Machine
end

section
/-! A whole successful read (spec 42_protocol_sequencer.md R110, R132; 43_decode_checksum.md R150). -/

namespace Sys2Proof.Machine

open Sys2Proof.Safety

/-- From slot 0 to slot 93 on a line that shows a preamble and 41 pulses: 93 steps. -/
theorem attempt_sampled {s : State} {a : Nat} {runs : List (Nat × Nat)} (hI : Inv s)
    (hr : s.running = true) (hu : s.upc.val = 0)
    (hmap : s.mapped = true ∨ mapperResponse (nextMapper s) = .ok) (hlen : runs.length = 41)
    (ha : a + 1 ≤ s.params.maxCount) (hfit : RunsFit s.params runs) (h : Shows s (runLevels a runs)) :
    ∃ t, runSteps 93 s = .next t ∧ t.running = true ∧ t.upc.val = 93 ∧ t.prio = .default ∧
      ∀ (i : Nat) (bc : Nat × Nat), runs[i]? = some bc → (highCount t i).toNat = bc.2 - 1 := by
  obtain ⟨t9, h9, a9⟩ := leads_to_sampling hI hr hu hmap
  have hparams := (persists_runSteps h9.run).params
  obtain ⟨t92, es, h92, hr92, hu92, -, hcounts⟩ := sample_counted (inv_runSteps hI h9.run) a9.running
    a9.upc hlen (by rw [hparams]; exact ha) (by rw [hparams]; exact hfit) (h.after (l := []) h9 rfl)
  refine ⟨afterPriodn t92, ?_, hr92, rfl, rfl, fun i bc hi => (hcounts i bc hi).2⟩
  exact (runSteps_add (m := 1) (h9.trans h92).run).trans (runSteps_next (step_priodn hr92 hu92))

/-- Settles O52: one step for `READDATA`, 93 for the slots up to the decode stage, 3 for that. -/
theorem validFrameIsRead : Obligations.ValidFrameIsRead := by
  unfold Obligations.ValidFrameIsRead
  intro s rest d short long a runs hI hr hc hmap hvalid hlt hsep _ ha hlen hfit hbits h
  have hstart := step_readdata hI hr hc
  obtain ⟨t93, h93, hr93, hu93, hprio, hcounts⟩ :=
    attempt_sampled (stepKeepsInvariant _ _ hI hstart) rfl rfl hmap hlen ha hfit h
  have htwo : TwoValued t93 d short long := by
    intro i h1 h40
    have hi : runs[i]? = some runs[i] := List.getElem?_eq_getElem (by omega)
    rw [hcounts i _ hi, hbits i _ h1 hi, Nat.add_sub_cancel]
  obtain ⟨t, ht, htr, hpc, htp, hdat, hres, hlast⟩ :=
    decode_twoValued hr93 hu93 htwo hlt hsep hvalid
  have hrun := ((runSteps_next hstart).trans (runSteps_add (m := 3) h93)).trans ht
  exact ⟨t, hrun, htr, hpc, htp.trans hprio, hdat, hres, hlast⟩

end Sys2Proof.Machine
end

section
/-! The operations of the decode stage one by one (spec 43_decode_checksum.md R141 to R144). -/

namespace Sys2Proof.Machine

open Sys2Proof.Safety

/-! ### The threshold (R141) -/

theorem exec_thresh (s : State) : exec .thresh s = .next { s with thr := (afterThresh s).thr } := rfl

theorem thresholdSum_eq_range (s : State) :
    thresholdSum s = ((List.range 39).map fun k => (highCount s (k + 2)).toNat).sum := by
  rw [thresholdSum, thrFirst, thrN, List.range'_eq_map_range, List.map_map]
  simp only [Function.comp_def, Nat.add_comm 2]

/-- A mean lies between any bounds of the counts. -/
theorem thr_bounds {s : State} {lo hi : Nat}
    (h : ∀ k, k < 39 → lo ≤ (highCount s (k + 2)).toNat ∧ (highCount s (k + 2)).toNat ≤ hi) :
    lo ≤ (afterThresh s).thr.toNat ∧ (afterThresh s).thr.toNat ≤ hi := by
  have hle : thresholdSum s ≤ 39 * hi := by
    rw [thresholdSum_eq_range]
    exact (sum_map_le fun k hk => (h k (List.mem_range.mp hk)).2).trans_eq (by rw [List.length_range])
  have hge : 39 * lo ≤ thresholdSum s := by
    rw [thresholdSum_eq_range]
    simpa using List.card_nsmul_le_sum ((List.range 39).map fun k => (highCount s (k + 2)).toNat) lo
      (by simpa using fun k hk => (h k hk).1)
  rw [afterThresh_thr]
  omega

/-- No count above the mean: then none is below it either. -/
theorem highCount_eq_thr {s : State}
    (h : ∀ k, k < 39 → (highCount s (k + 2)).toNat ≤ (afterThresh s).thr.toNat) {k : Nat}
    (hk : k < 39) : highCount s (k + 2) = (afterThresh s).thr := by
  by_contra hne
  have hlt : (highCount s (k + 2)).toNat < (afterThresh s).thr.toNat :=
    lt_of_le_of_ne (h k hk) fun e => hne (BitVec.eq_of_toNat_eq e)
  have hsum : thresholdSum s <
      ((List.range 39).map fun _ => (afterThresh s).thr.toNat).sum := by
    rw [thresholdSum_eq_range]
    exact List.sum_lt_sum _ _ (fun j hj => h j (List.mem_range.mp hj)) ⟨k, List.mem_range.mpr hk, hlt⟩
  have hthr := afterThresh_thr s
  rw [List.map_const', List.sum_replicate, List.length_range, smul_eq_mul] at hsum
  omega

/-- Settles O31: the sum fits (`afterThresh_thr`), so the register holds the floor of the mean. -/
theorem thresholdIsFloorMean : Obligations.ThresholdIsFloorMean := by
  unfold Obligations.ThresholdIsFloorMean
  refine ⟨by decide, fun s => ?_⟩
  have hthr := afterThresh_thr s
  refine ⟨_, thresholdSum s, thresholdSum_eq_range s, exec_thresh s, rfl, hthr, ?_, ?_,
    fun lo hi h => thr_bounds h, fun h k hk => highCount_eq_thr h hk⟩
  · show 39 * (afterThresh s).thr.toNat ≤ thresholdSum s
    omega
  · show thresholdSum s < 39 * ((afterThresh s).thr.toNat + 1)
    omega

/-! ### The bits (R142, R143) -/

theorem exec_decbits (s : State) : exec .decbits s = .next { s with dat := (afterDecbits s).dat } := rfl

/-- Settles O32, by the induction over the pulses in `decodedPulses_bit`. -/
theorem decodedBitsLand : Obligations.DecodedBitsLand := by
  unfold Obligations.DecodedBitsLand
  exact ⟨by decide, fun s => ⟨_, exec_decbits s, rfl, fun i h1 h40 => afterDecbits_bit s h1 h40⟩⟩

/-- The same by byte and bit: bit `m` of byte `j` is that of pulse `8 * j + 8 - m`. -/
theorem readDat_afterDecbits_bit (s : State) {j m : Nat} (hj : j < 5) (hm : m < 8) :
    (readDat (afterDecbits s) j).getLsbD m = bitOfCount s.thr (highCount s (8 * j + 8 - m)) := by
  have hbit := afterDecbits_bit s (i := 8 * j + 8 - m) (by omega) (by omega)
  have hbyte : (8 * j + 8 - m - 1) / 8 = j := by omega
  have hplace : 7 - (8 * j + 8 - m - 1) % 8 = m := by omega
  rw [hbyte, hplace] at hbit
  exact hbit

/-- So a decoded byte is known by the bits of its eight pulses. -/
theorem readDat_afterDecbits_eq {s : State} {j : Nat} {b : Byte} (hj : j < 5)
    (h : ∀ m, m < 8 → bitOfCount s.thr (highCount s (8 * j + 8 - m)) = b.getLsbD m) :
    readDat (afterDecbits s) j = b :=
  BitVec.eq_of_getLsbD_eq fun m hm => (readDat_afterDecbits_bit s hj hm).trans (h m hm)

theorem bitOfCount_eq_true_iff {thr c : Count} : bitOfCount thr c = true ↔ thr.toNat ≤ c.toNat :=
  decide_eq_true_iff

/-- Eight counts at or above the threshold are a byte of ones. -/
theorem readDat_afterDecbits_ones {s : State} {j : Nat} (hj : j < 5)
    (h : ∀ i, 8 * j + 1 ≤ i → i ≤ 8 * j + 8 → s.thr.toNat ≤ (highCount s i).toNat) :
    readDat (afterDecbits s) j = 255 := by
  have hones : ∀ m, m < 8 → (255 : Byte).getLsbD m = true := by decide
  refine readDat_afterDecbits_eq hj fun m hm => ?_
  rw [hones m hm, bitOfCount_eq_true_iff]
  exact h _ (by omega) (by omega)

/-! ### The checksum (R144) -/

theorem frameValid_iff (s : State) : frameValid s = true ↔ (readDat s 4).toNat =
    ((readDat s 0).toNat + (readDat s 1).toNat + (readDat s 2).toNat + (readDat s 3).toNat) % 256 := by
  rw [frameValid, beq_iff_eq, frameSum, ← BitVec.toNat_inj, BitVec.toNat_ofNat]

theorem exec_chksum_valid {s : State} (h : frameValid s = true) :
    exec .chksum s = .next { s with res := some (readingOf s), pc := .done } := by
  show execChksum s = _
  rw [execChksum, if_pos h]

theorem exec_chksum_invalid {s : State} (h : frameValid s ≠ true) :
    exec .chksum s = .next (errorState .checksumError none s) := by
  show execChksum s = _
  rw [execChksum, if_neg h, raiseError_eq_errorState]

/-- Settles O33: the sum modulo 256 decides `frameValid`. -/
theorem checksumDecides : Obligations.ChecksumDecides := by
  unfold Obligations.ChecksumDecides
  refine ⟨by decide, ?_⟩
  rintro s _ rfl
  exact ⟨fun h => exec_chksum_valid ((frameValid_iff s).mpr h),
    fun h => exec_chksum_invalid (mt (frameValid_iff s).mp h)⟩

end Sys2Proof.Machine
end

section
/-! The conversion of a byte to binary32 (spec 43_decode_checksum.md R147). -/

namespace Sys2Proof.Machine

section Fields

variable {b : Byte} {e : Nat} (hlow : 2 ^ e ≤ b.toNat) (hhigh : b.toNat < 2 ^ (e + 1))

include hlow in
theorem byte_exponent_le : e ≤ 7 := by
  have hpow : 2 ^ e < 2 ^ 8 := hlow.trans_lt b.isLt
  exact Nat.le_of_lt_succ ((Nat.pow_lt_pow_iff_right (by decide)).mp hpow)

include hlow in
/-- The hidden bit, as a multiple of the place of the byte's lowest bit. -/
theorem hiddenBit_eq : 2 ^ 23 = 2 ^ e * 2 ^ (23 - e) := by
  have he := byte_exponent_le hlow
  rw [← pow_add, Nat.add_sub_cancel' (by omega)]

include hlow hhigh

/-- Below its leading bit a byte needs no more than the fraction field. -/
theorem fraction_lt : (b.toNat - 2 ^ e) * 2 ^ (23 - e) < 2 ^ 23 := by
  rw [pow_succ] at hhigh
  rw [hiddenBit_eq hlow]
  exact Nat.mul_lt_mul_of_pos_right (by omega) (Nat.two_pow_pos _)

/-- The exponent and fraction fields do not overlap, and the sign bit is free. -/
theorem f32OfByte_toNat :
    (f32OfByte b).toNat = (127 + e) * 2 ^ 23 + (b.toNat - 2 ^ e) * 2 ^ (23 - e) := by
  have hne : b.toNat ≠ 0 := ((Nat.two_pow_pos e).trans_le hlow).ne'
  have hlog : b.toNat.log2 = e := (Nat.log2_eq_iff hne).mpr ⟨hlow, hhigh⟩
  have hb : b ≠ 0 := fun h => hne (by rw [h]; rfl)
  have he := byte_exponent_le hlow
  have hfraction := fraction_lt hlow hhigh
  rw [f32OfByte, if_neg hb, hlog, BitVec.toNat_ofNat]
  exact Nat.mod_eq_of_lt (by omega)

theorem f32OfByte_exponent : (f32OfByte b).toNat / 2 ^ 23 = 127 + e := by
  have hfraction := fraction_lt hlow hhigh
  rw [f32OfByte_toNat hlow hhigh]
  omega

theorem f32OfByte_fraction :
    (f32OfByte b).toNat % 2 ^ 23 = (b.toNat - 2 ^ e) * 2 ^ (23 - e) := by
  have hfraction := fraction_lt hlow hhigh
  rw [f32OfByte_toNat hlow hhigh]
  omega

theorem f32OfByte_sign : (f32OfByte b).toNat / 2 ^ 31 = 0 := by
  have he := byte_exponent_le hlow
  have hexponent := f32OfByte_exponent hlow hhigh
  omega

/-- The significand is the byte, shifted; the exponent undoes the shift. -/
theorem f32OfByte_value :
    (2 ^ 23 + (f32OfByte b).toNat % 2 ^ 23) * 2 ^ ((f32OfByte b).toNat / 2 ^ 23) =
      b.toNat * 2 ^ 150 := by
  have he := byte_exponent_le hlow
  have hsignificand : 2 ^ 23 + (b.toNat - 2 ^ e) * 2 ^ (23 - e) = b.toNat * 2 ^ (23 - e) := by
    rw [hiddenBit_eq hlow, ← add_mul, Nat.add_sub_cancel' hlow]
  have hshift : 23 - e + (127 + e) = 150 := by omega
  rw [f32OfByte_exponent hlow hhigh, f32OfByte_fraction hlow hhigh, hsignificand, mul_assoc,
    ← pow_add, hshift]

end Fields

/-- Settles O34: the fields with `e` the byte's binary logarithm. -/
theorem byteToFloatIsExact : Obligations.ByteToFloatIsExact := by
  unfold Obligations.ByteToFloatIsExact
  refine ⟨by decide, fun b hb => ?_, fun b e hlow hhigh =>
    ⟨f32OfByte_exponent hlow hhigh, f32OfByte_fraction hlow hhigh⟩, by decide⟩
  have hne : b.toNat ≠ 0 := fun h => hb (BitVec.eq_of_toNat_eq h)
  have hlow := Nat.log2_self_le hne
  have hhigh := Nat.lt_log2_self (n := b.toNat)
  exact ⟨f32OfByte_sign hlow hhigh, f32OfByte_value hlow hhigh⟩

end Sys2Proof.Machine
end

section
/-! The decode stage of an attempt as one function of the sample (spec 43_decode_checksum.md R140, R148),
and the samples of R150. -/

namespace Sys2Proof.Machine

open Sys2Proof.Safety

/-! ### The end of an attempt from slot 93 (R140) -/

/-- `t` is what the decode stage makes of `s`; its result is told by its own frame. -/
structure DecodeEnds (s t : State) : Prop where
  thr : t.thr = (afterThresh s).thr
  dat : ∀ j, readDat t j = readDat (afterDecbits (afterThresh s)) j
  valid : frameValid t = true → t.res = some (readingOf t) ∧ t.pc = .done ∧ t.err = s.err
  invalid : frameValid t ≠ true → t.res = none ∧ t.pc = .failed ∧ t.err = .checksumError

theorem frameValid_congr {s t : State} (h : ∀ j, j < 5 → readDat s j = readDat t j) :
    frameValid s = frameValid t :=
  (frameValid_of_frame (d := t.dat) h).trans (frameValid_of_frame fun _ _ => rfl).symm

theorem readingOf_congr {s t : State} (h : ∀ j, j < 5 → readDat s j = readDat t j) :
    readingOf s = readingOf t := by
  rw [readingOf, readingOf, h 0 (by decide), h 2 (by decide)]

theorem readDat_congr {s t : State} (h : t.dat = s.dat) (j : Nat) : readDat t j = readDat s j := by
  rw [readDat, readDat, h]

theorem decodeEnds {s t : State} (hr : s.running = true) (hu : s.upc.val = 93)
    (h : runSteps 3 s = .next t) : DecodeEnds s t := by
  have hrun := (run_decode_stage hr hu).symm.trans h
  by_cases hv : frameValid (afterDecbits (afterThresh s)) = true
  · rw [if_pos hv] at hrun
    cases hrun
    exact ⟨rfl, fun _ => rfl, fun _ => ⟨rfl, rfl, rfl⟩, fun hn => absurd hv hn⟩
  · rw [if_neg hv] at hrun
    cases hrun
    have hdat := readDat_congr (raiseError_dat .checksumError none (afterDecbits (afterThresh s)))
    refine ⟨?_, hdat, fun hn => absurd ?_ hv, fun _ => ⟨rfl, rfl, rfl⟩⟩
    · rw [attemptEnd_thr, raiseError_thr]
      rfl
    · rw [← hn]
      exact frameValid_congr fun j _ => (hdat j).symm

/-- Settles O35: the run has the event `Result` only, and ends as `DecodeEnds` says. -/
theorem decodeStageIsOneFunction : Obligations.DecodeStageIsOneFunction := by
  unfold Obligations.DecodeStageIsOneFunction
  intro s hr hu hprio herr
  obtain ⟨t, ht, htr, htu⟩ := decode_stage_leads hr hu hprio
  have hend := decodeEnds hr hu ht.run
  refine ⟨t, ht.run, htr, htu, ?_, fun i h1 h40 => ?_, ?_, ht.trace, ht.lineReads⟩
  · rw [hend.thr, afterThresh_thr, thresholdSum_eq_range]
    rfl
  · rw [hend.dat, hend.thr]
    exact afterDecbits_bit (afterThresh s) h1 h40
  · split
    · rename_i hv
      obtain ⟨hres, hpc, hkept⟩ := hend.valid ((frameValid_iff t).mpr hv)
      exact ⟨hres, hpc, hkept.trans herr⟩
    · rename_i hv
      exact hend.invalid (mt (frameValid_iff t).mp hv)

/-! ### What the decode stage reads (R148) -/

section SameHighCounts

variable {s1 s2 : State} (h : ∀ i, 1 ≤ i → i ≤ 40 → highCount s1 i = highCount s2 i)
include h

theorem afterThresh_thr_congr : (afterThresh s1).thr = (afterThresh s2).thr := by
  have hsum : thresholdSum s1 = thresholdSum s2 := by
    rw [thresholdSum_eq_range, thresholdSum_eq_range]
    refine congrArg List.sum (List.map_congr_left fun k hk => ?_)
    have hlt := List.mem_range.mp hk
    rw [h (k + 2) (by omega) (by omega)]
  apply BitVec.eq_of_toNat_eq
  rw [afterThresh_thr, afterThresh_thr, hsum]

theorem readDat_decoded_congr {j : Nat} (hj : j < 5) :
    readDat (afterDecbits (afterThresh s1)) j = readDat (afterDecbits (afterThresh s2)) j := by
  refine readDat_afterDecbits_eq hj fun m hm => ?_
  rw [readDat_afterDecbits_bit _ hj hm, afterThresh_thr_congr h]
  exact congrArg _ (h _ (by omega) (by omega))

end SameHighCounts

/-- Settles O36: the threshold and the frame are equal, and the frame tells the rest. -/
theorem unusedCountsDoNotMatter : Obligations.UnusedCountsDoNotMatter := by
  unfold Obligations.UnusedCountsDoNotMatter
  rintro s1 s2 t1 t2 ⟨hr1, hu1⟩ ⟨hr2, hu2⟩ hcounts herr h1 h2
  have e1 := decodeEnds hr1 hu1 h1
  have e2 := decodeEnds hr2 hu2 h2
  have hthr : t1.thr = t2.thr := by rw [e1.thr, e2.thr, afterThresh_thr_congr hcounts]
  have hdat : ∀ j, j < 5 → readDat t1 j = readDat t2 j := fun j hj => by
    rw [e1.dat, e2.dat, readDat_decoded_congr hcounts hj]
  by_cases hv : frameValid t2 = true
  · obtain ⟨hres1, hpc1, herr1⟩ := e1.valid ((frameValid_congr hdat).trans hv)
    obtain ⟨hres2, hpc2, herr2⟩ := e2.valid hv
    exact ⟨by rw [hres1, hres2, readingOf_congr hdat], by rw [herr1, herr2, herr],
      hpc1.trans hpc2.symm, hthr, hdat⟩
  · obtain ⟨hres1, hpc1, herr1⟩ := e1.invalid (by rw [frameValid_congr hdat]; exact hv)
    obtain ⟨hres2, hpc2, herr2⟩ := e2.invalid hv
    exact ⟨hres1.trans hres2.symm, herr1.trans herr2.symm, hpc1.trans hpc2.symm, hthr, hdat⟩

/-! ### `THRESH` and `DECBITS` on their own (R150) -/

section TwoOperations

variable {s t u : State} (ht : exec .thresh s = .next t) (hu : exec .decbits t = .next u)
include ht

theorem thr_of_thresh : t.thr = (afterThresh s).thr := by
  cases ht
  rfl

include hu

/-- They leave the frame that slots 93 and 94 leave. -/
theorem readDat_of_decbits (j : Nat) : readDat u j = readDat (afterDecbits (afterThresh s)) j := by
  cases ht
  cases hu
  rfl

end TwoOperations

/-- The threshold of a two-valued sample is the short count until the long pulses add 39 to the sum. -/
theorem thr_le_short_iff {s : State} {d : Vector Byte 5} {short long : Nat}
    (h : TwoValued s d short long) (hlt : short < long) :
    (afterThresh s).thr.toNat ≤ short ↔ longPulses d * (long - short) < 39 := by
  rw [afterThresh_thr, thresholdSum_twoValued h hlt.le]
  omega

/-- Both counts of a two-valued sample are at least the short one. -/
theorem short_le_highCount {s : State} {d : Vector Byte 5} {short long : Nat}
    (h : TwoValued s d short long) (hlt : short < long) {i : Nat} (h1 : 1 ≤ i) (h40 : i ≤ 40) :
    short ≤ (highCount s i).toNat := by
  rw [h i h1 h40]
  split
  · exact hlt.le
  · exact le_rfl

/-- Settles O37: a threshold above the short count keeps the two counts apart, one at it makes every
pulse a 1. -/
theorem twoValuedSampleDecodes : Obligations.TwoValuedSampleDecodes := by
  unfold Obligations.TwoValuedSampleDecodes
  intro s t u d short long hlt htwo ht hu
  have hiff := thr_le_short_iff htwo hlt
  refine ⟨by rw [thr_of_thresh ht]; exact hiff, fun hsep j hj => ?_, fun hclose j hj => ?_⟩
  · rw [readDat_of_decbits ht hu, readDat_twoValued htwo hlt hsep hj]
  · rw [readDat_of_decbits ht hu]
    exact readDat_afterDecbits_ones hj fun i hlow hhigh =>
      (hiff.mpr hclose).trans (short_le_highCount htwo hlt (by omega) (by omega))

/-- Only pulse 1 can be a 0 in a first byte whose other counts reach the threshold. -/
theorem readDat_afterDecbits_first {s : State}
    (h : ∀ i, 2 ≤ i → i ≤ 8 → s.thr.toNat ≤ (highCount s i).toNat) :
    readDat (afterDecbits s) 0 = 255 ∨ readDat (afterDecbits s) 0 = 127 := by
  by_cases h1 : s.thr.toNat ≤ (highCount s 1).toNat
  · refine .inl (readDat_afterDecbits_ones (by decide) fun i hlow hhigh => ?_)
    by_cases hi : i = 1
    · rw [hi]
      exact h1
    · exact h i (by omega) hhigh
  · have hbits : ∀ m, m < 8 → (127 : Byte).getLsbD m = decide (m ≠ 7) := by decide
    refine .inr (readDat_afterDecbits_eq (by decide) fun m hm => ?_)
    rw [hbits m hm, Bool.eq_iff_iff, bitOfCount_eq_true_iff, decide_eq_true_iff]
    by_cases hm7 : m = 7
    · subst hm7
      simpa using h1
    · exact iff_of_true (h _ (by omega) (by omega)) hm7

/-- Four bytes of ones after a first byte of 255 or 127 sum to 1020 or 892, low bytes 252 and 124. -/
theorem frameValid_ones {s : State} (h0 : readDat s 0 = 255 ∨ readDat s 0 = 127)
    (h : ∀ j, 1 ≤ j → j < 5 → readDat s j = 255) : frameValid s ≠ true := by
  rw [Ne, frameValid_iff, h 1 (by decide) (by decide), h 2 (by decide) (by decide),
    h 3 (by decide) (by decide), h 4 (by decide) (by decide)]
  obtain h0 | h0 := h0 <;> rw [h0] <;> decide

/-- Settles O38: the mean of equal counts is the count, so every pulse but the first reaches it. -/
theorem equalCountsFailChecksum : Obligations.EqualCountsFailChecksum := by
  unfold Obligations.EqualCountsFailChecksum
  intro s t u c hc ht hu
  have hcount (i : Nat) (h2 : 2 ≤ i) (h40 : i ≤ 40) : highCount s i = c := hc i h2 h40
  have hthr : (afterThresh s).thr = c := by
    obtain ⟨hge, hle⟩ := thr_bounds (s := s) (lo := c.toNat) (hi := c.toNat) fun k hk => by
      rw [hcount (k + 2) (by omega) (by omega)]
      exact ⟨le_rfl, le_rfl⟩
    exact BitVec.eq_of_toNat_eq (le_antisymm hle hge)
  have hreach (i : Nat) (h2 : 2 ≤ i) (h40 : i ≤ 40) :
      (afterThresh s).thr.toNat ≤ (highCount (afterThresh s) i).toNat :=
    (congrArg BitVec.toNat (hthr.trans (hcount i h2 h40).symm)).le
  have hfirst : readDat u 0 = 255 ∨ readDat u 0 = 127 := by
    rw [readDat_of_decbits ht hu]
    exact readDat_afterDecbits_first fun i h2 h8 => hreach i h2 (by omega)
  have hrest (j : Nat) (h1 : 1 ≤ j) (h5 : j < 5) : readDat u j = 255 := by
    rw [readDat_of_decbits ht hu]
    exact readDat_afterDecbits_ones h5 fun i hlow hhigh => hreach i (by omega) (by omega)
  exact ⟨(thr_of_thresh ht).trans hthr, hfirst, hrest, exec_chksum_invalid (frameValid_ones hfirst hrest)⟩

end Sys2Proof.Machine
end

section
/-! The error entry and the cause codes (spec 60_exceptions.md R161, R166). -/

namespace Sys2Proof.Machine

open Sys2Proof.Safety

/-! ### The error entry (R166) -/

/-- The index 96 the error entry sets ends the attempt, without a reading. -/
theorem afterSlot_errorState (e : ErrKind) (place : Option PollPhase) (s : State) :
    afterSlot (errorState e place s) =
      { errorState e place s with
        trace := s.trace ++ (if s.prio = .realTime then [Event.prioDown] else []) ++ [.result none]
        running := false } :=
  afterSlot_error rfl

/-- Settles O39: the entry as R166 writes it out, then the end of the attempt it brings. -/
theorem errorEntry : Obligations.ErrorEntry := by
  unfold Obligations.ErrorEntry
  intro e place s
  rw [raiseError_eq_errorState]
  exact ⟨rfl, afterSlot_errorState e place s⟩

/-! ### The number of a phase (R161) -/

/-- The polling phases are numbered in the order of their slots, from slot 9 on. -/
theorem pollSlot_eq_phaseCode (ph : PollPhase) : pollSlot ph = 9 + phaseCode ph := by
  cases ph <;> simp only [pollSlot, phaseCode] <;> omega

theorem phaseCode_le (ph : PollPhase) : phaseCode ph ≤ 82 := by
  have hslot := pollSlot_bounds ph
  rw [pollSlot_eq_phaseCode] at hslot
  omega

/-- `WaitResponse` alone has the number 0; the low phases have the odd numbers and the high phases the
even ones above 0, each in the order of the pulses. -/
theorem phaseCode_injective : Function.Injective phaseCode := by
  intro a b h
  cases a with
  | waitResponse =>
    cases b with
    | waitResponse => rfl
    | sampleLow _ | sampleHigh _ => simp only [phaseCode] at h; omega
  | sampleLow i =>
    cases b with
    | sampleLow j => exact congrArg _ (Fin.ext (by simpa [phaseCode] using h))
    | waitResponse | sampleHigh _ => simp only [phaseCode] at h; omega
  | sampleHigh i =>
    cases b with
    | sampleHigh j => exact congrArg _ (Fin.ext (by simpa [phaseCode] using h))
    | waitResponse | sampleLow _ => simp only [phaseCode] at h; omega

/-- Settles O40: the bound comes from the slots of the phases, the rest is the numbering itself. -/
theorem causeCodes : Obligations.CauseCodes := by
  unfold Obligations.CauseCodes
  exact ⟨rfl, rfl, rfl, rfl, rfl, rfl, fun _ => ⟨rfl, rfl⟩, phaseCode_le,
    fun _ _ h => phaseCode_injective h⟩

end Sys2Proof.Machine
end

section
/-! The sensor pin from slot to slot (spec 42_protocol_sequencer.md R111; 70_reset_and_hazards.md R210):
slots 1, 2, 4 and 6 decide its function and its latch, no other slot reaches them. -/

namespace Sys2Proof.Machine

open Sys2Proof.Safety

/-- The pin before slot `n` of an attempt (R111): output in slots 2 to 6 and input from slot 7 on, its
latch 1 in slots 3 and 4 and 0 from slot 5 on. -/
structure PinAt (n : Nat) (s : State) : Prop where
  output : 2 ≤ n → n ≤ 6 → pinFunction s s.pin = fselOutput
  input : 7 ≤ n → pinFunction s s.pin = fselInput
  high : 3 ≤ n → n ≤ 4 → latch s s.pin = true
  low : 5 ≤ n → latch s s.pin = false

theorem pinAt_congr {n : Nat} {s t : State} (h : PinAt n s) (hpin : t.pin = s.pin)
    (hfsel : t.fsel = s.fsel) (hout : t.out = s.out) : PinAt n t := by
  have hfunction : pinFunction t t.pin = pinFunction s s.pin := by rw [hpin, pinFunction_congr hfsel]
  have hlatch : latch t t.pin = latch s s.pin := by rw [hpin, latch_congr hout]
  obtain ⟨houtput, hinput, hhigh, hlow⟩ := h
  rw [← hfunction] at houtput hinput
  rw [← hlatch] at hhigh hlow
  exact ⟨houtput, hinput, hhigh, hlow⟩

/-- Slots other than 1, 2, 4 and 6 find the pin as the slot after them is to find it. -/
theorem pinAt_succ {n : Nat} {s : State} (h : PinAt n s) (hn : n = 0 ∨ n = 3 ∨ n = 5 ∨ 7 ≤ n) :
    PinAt (n + 1) s where
  output _ _ := h.output (by omega) (by omega)
  input _ := h.input (by omega)
  high _ _ := h.high (by omega) (by omega)
  low _ := h.low (by omega)

/-! ### The four slots that reach the pin -/

section Handshake

variable {s : State} (hp : pinLegal s.pin)
include hp

theorem pinAt_setoutput :
    PinAt 2 (afterModify (afterModify s s.pin fun v => v &&& ~~~fselMask s.pin) s.pin
      fun v => v ||| fselOut s.pin) where
  output _ _ := pinFunction_after_setoutput hp
  input _ := by omega
  high _ _ := by omega
  low _ := by omega

theorem pinAt_sethigh (h : PinAt 2 s) :
    PinAt 3 (emit (.busWrite setOff (pinBit s.pin)) { s with out := s.out ||| pinBit s.pin }) where
  output _ _ := h.output (by omega) (by omega)
  input _ := by omega
  high _ _ := by
    rw [latch_emit, emit_pin, latch_set hp]
    simp
  low _ := by omega

theorem pinAt_setlow (h : PinAt 4 s) :
    PinAt 5 (emit (.busWrite clrOff (pinBit s.pin))
      { s with out := s.out &&& ~~~pinBit s.pin }) where
  output _ _ := h.output (by omega) (by omega)
  input _ := by omega
  high _ _ := by omega
  low _ := by
    rw [latch_emit, emit_pin, latch_clear hp]
    simp

theorem pinAt_setinput (h : PinAt 6 s) :
    PinAt 7 (afterModify s s.pin fun v => v &&& ~~~fselMask s.pin) where
  output _ _ := by omega
  input _ := pinFunction_after_setinput hp
  high _ _ := by omega
  low _ := h.low (by omega)

end Handshake

/-- Whatever a slot does, raising an error included, it leaves the pin as the next slot is to find it. -/
theorem pinAt_slot {s u : State} (hp : pinLegal s.pin) (hs : PinAt s.upc.val s)
    (h : SlotEffect s u) : PinAt (s.upc.val + 1) u := by
  cases h with
  | setoutput h1 => rw [h1]; exact pinAt_setoutput hp
  | sethigh h2 => rw [h2] at hs ⊢; exact pinAt_sethigh hp hs
  | setlow h4 => rw [h4] at hs ⊢; exact pinAt_setlow hp hs
  | setinput h6 => rw [h6] at hs ⊢; exact pinAt_setinput hp hs
  | pollEnds ph n hn | pollTimesOut ph n hn =>
    have hslot := pollSlot_bounds ph
    exact pinAt_congr (pinAt_succ hs (by omega)) (by simp) (by simp) (by simp)
  | ensuremapped hn | sleepc hn | waitp hn | settle hn | prioup hn | priodn hn | thresh hn
  | decbits hn | chksumValid hn | chksumInvalid hn =>
    exact pinAt_congr (pinAt_succ hs (by omega)) (by simp) (by simp) (by simp)

/-! ### The invariant -/

theorem pinInv_of_running {s : State} (hr : s.running = true) (h : PinAt s.upc.val s) : PinInv s where
  driven _ := h.output
  released _ := h.input
  latched_high _ := h.high
  latched_low _ := h.low
  after hrest := by simp [hr] at hrest

theorem pinAt_of_pinInv {s : State} (hr : s.running = true) (h : PinInv s) : PinAt s.upc.val s :=
  ⟨h.driven hr, h.released hr, h.latched_high hr, h.latched_low hr⟩

theorem pinInv_of_resting {s : State} (hr : s.running = false)
    (h : s.pc = .done ∨ s.err = .timeoutError ∨ s.err = .checksumError →
      pinFunction s s.pin = fselInput ∧ latch s s.pin = false) : PinInv s where
  driven hrun := by simp [hr] at hrun
  released hrun := by simp [hr] at hrun
  latched_high hrun := by simp [hr] at hrun
  latched_low hrun := by simp [hr] at hrun
  after _ := h

/-- Before the sampling only slot 0 can end the attempt, with an error of the mapper service (R92). -/
theorem running_or_mapper_error {s u : State} (hr : s.running = true) (hlt : s.upc.val < 9)
    (h : SlotEffect s u) :
    (afterSlot u).running = true ∨ (afterSlot u).pc = .failed ∧
      ((afterSlot u).err = .deviceOpenError ∨ (afterSlot u).err = .mappingError) := by
  have hgoesOn {v : State} (hrun : v.running = s.running) (hupc : v.upc = s.upc) :
      (afterSlot v).running = true := by
    rw [afterSlot_next (by rw [hupc]; omega)]
    exact hrun.trans hr
  cases h with
  | ensuremapped =>
    obtain ⟨-, he⟩ | he | ⟨e, hkind, he⟩ := ensureMapped_cases s <;> rw [he]
    · exact .inl (hgoesOn rfl rfl)
    · exact .inl (hgoesOn rfl rfl)
    · rw [afterSlot_error rfl]
      exact .inr ⟨rfl, hkind⟩
  | setoutput | sethigh | sleepc | setlow | waitp | setinput | settle | prioup =>
    exact .inl (hgoesOn rfl rfl)
  | pollEnds ph | pollTimesOut ph =>
    have hslot := pollSlot_bounds ph
    omega
  | priodn | thresh | decbits | chksumValid | chksumInvalid => omega

/-- An attempt that ended in `Done`, by a timeout or by the checksum had come to the sampling. -/
theorem sampling_of_ended {s u : State} (hr : s.running = true) (h : SlotEffect s u)
    (hrest : (afterSlot u).running = false)
    (hend : (afterSlot u).pc = .done ∨ (afterSlot u).err = .timeoutError ∨
      (afterSlot u).err = .checksumError) : 9 ≤ s.upc.val := by
  by_contra hlt
  obtain hrun | ⟨hpc, herr⟩ := running_or_mapper_error hr (by omega) h
  · simp [hrun] at hrest
  · obtain herr | herr := herr <;> simp [hpc, herr] at hend

theorem pinInv_step_running {s t : State} (hI : Inv s) (hr : s.running = true) (hs : PinInv s)
    (h : step s = .next t) : PinInv t := by
  obtain ⟨u, hu, rfl⟩ := slot_effect_of_step hI hr h
  have hpin : PinAt (s.upc.val + 1) (afterSlot u) :=
    pinAt_congr (pinAt_slot hI.admissible.1 (pinAt_of_pinInv hr hs) hu) (persists_afterSlot u).pin
      (afterSlot_fsel u) (afterSlot_out u)
  obtain ⟨t, es, hstep, hadvances, -⟩ := attempt_step hI hr
  cases hstep.symm.trans h
  obtain ⟨hrun, hupc, -⟩ | ⟨hrest, -⟩ := hadvances
  · exact pinInv_of_running hrun (hupc ▸ hpin)
  · refine pinInv_of_resting hrest fun hend => ?_
    have hsampling := sampling_of_ended hr hu hrest hend
    exact ⟨hpin.input (by omega), hpin.low (by omega)⟩

/-- The attempt start puts the attempt before slot 0, where nothing is known of the pin. -/
theorem pinInv_attemptStart (s : State) : PinInv (attemptStart s) := by
  refine pinInv_of_running rfl ?_
  constructor <;> simp

/-- Settles O48: in an attempt each slot leaves the pin as the next one is to find it, an attempt that
ends after the sampling began ends with the pin released, and at rest nothing reaches the pin. -/
theorem pinIsReleasedAfterAttempt : Obligations.PinIsReleasedAfterAttempt := by
  unfold Obligations.PinIsReleasedAfterAttempt
  intro s t hI hs h
  cases hr : s.running with
  | true => exact pinInv_step_running hI hr hs h
  | false =>
    obtain ⟨-, hstep⟩ | ⟨rest, -, hstep⟩ := rest_step hI hr
    · cases hstep.symm.trans h
      exact hs
    · cases hstep.symm.trans h
      exact pinInv_attemptStart _

end Sys2Proof.Machine
end
